-- ==== Sys2Proof/Word.lean ====
section
/-! DEFINITION. The word types of the hardware (00_scope.md R7, R8; 10_state.md R10; 30_encoding.md R90). -/

namespace Sys2Proof

/-- A data word: every register of the interrupt controller is 16 bits wide (R7). -/
abbrev Word := BitVec 16

/-- A byte of data space. -/
abbrev Byte := BitVec 8

/-- A data-space effective address (20_memory.md R74); a device uses the low DATA_ADDR_BITS of it (00_scope.md R6,
`Machine.eaOf`). -/
abbrev DataAddr := BitVec 16

/-- A program address, of the 23 bits that GOTO, a vector and a frame give it (30_encoding.md R92, R72, R140); a device
uses the low PC_BITS of it, with bit 0 always 0 (R6, R10, 92_eei_decisions.md D19, `Machine.pcOf`). PRESUMED width,
log 10. -/
abbrev ProgAddr := BitVec 23

/-- A count of the 14 bits that DISI and a write give it (30_encoding.md R92, 42_sfr_access.md R126); the DISICNT of a
device holds the low DISICNT_BITS of it (R6, 10_state.md R18). -/
abbrev DisiCount := BitVec 14

/-- A program word: 24 bits (20_memory.md R70). -/
abbrev ProgWord := BitVec 24

end Sys2Proof
end

