-- ==== Sys2Proof/Syntax.lean ====
section
/-! DEFINITION. Names of registers and traps, the instructions (one constructor of `Instr` for each row of
spec/opcode_table.json), and the rest of the operation alphabet of 30_encoding.md R91. -/

namespace Sys2Proof

/-- A working register W0 to W15 (10_state.md R11, R13). -/
abbrev WReg := Fin 16

/-- The two accumulators (10_state.md R56). -/
inductive Acc where
  | a
  | b
deriving DecidableEq, Repr

/-- The registers that software names (10_state.md R11 to R54). The working registers are memory-mapped
(93_implementation_defined.md GK7). IFSx and IECx exist for x = 0, 1, 3 to 7 and IPCx for the 17 numbers of R34:
another number names a register that does not exist, which reads 0 and ignores writes (R33, R34; log 30). -/
inductive Sfr where
  | w (i : WReg)
  | splim
  | sr
  | corcon
  | disicnt
  | intcon1
  | intcon2
  | inttreg
  | rcon
  | osccon
  | ifs (x : Fin 8)
  | iec (x : Fin 8)
  | ipc (x : Fin 30)
deriving DecidableEq, Repr

/-- The four implemented traps (60_exceptions.md R134). -/
inductive Trap where
  | oscFail
  | addressError
  | stackError
  | mathError
deriving DecidableEq, Repr

/-- The operand of PWRSAV (40_system_instructions.md R103). -/
inductive SleepMode where
  | sleep
  | idle
deriving DecidableEq, Repr

/-- The shift count of SFTAC: "a literal value or a value in one of the W registers" (41_named_instructions.md R114).
The literal's width is not in the spec, so it is an integer. -/
inductive ShiftCount where
  | literal (k : Int)
  | register (i : WReg)
deriving DecidableEq, Repr

/-- Forms of MOV.D (R117, 20_memory.md R77 "double-word (MOV.D) data accesses"): two words read at the address in `p`,
from data space or through PSV, into W`d` and W`d+1`; or two words stored from W`s` and W`s+1` at the address in `p`.
DESIGN CHOICE of operand forms, log 23. -/
inductive DoubleForm where
  | load (p d : WReg) (psv : Bool)
  | store (s p : WReg)
deriving DecidableEq, Repr

/-- Where a bit test and skip finds its word: a direct file address, the address in a W register, or a PSV access to
program memory (R117, 70_reset_and_hazards.md R211). DESIGN CHOICE of operand forms, log 23. -/
inductive BitSource where
  | file (f : DataAddr)
  | indirect (p : WReg)
  | psv (p : WReg)
deriving DecidableEq, Repr

/-- What a bit-manipulation instruction does to its bit; `other` is any operation the spec does not give (R119, log 23). -/
inductive BitOp where
  | set
  | clear
  | other
deriving DecidableEq, Repr

/-- The instructions: one constructor for each row of spec/opcode_table.json. -/
inductive Instr where
  /-- NOP, R105. -/
  | nop
  /-- RETFIE, R102. -/
  | retfie
  /-- RETURN, R112. -/
  | ret
  /-- DISI #lit14, R100. -/
  | disi (k : DisiCount)
  /-- PWRSAV #lit1, R103. -/
  | pwrsav (m : SleepMode)
  /-- RESET, R104. -/
  | reset
  /-- GOTO lit23, R106. -/
  | goto (a : ProgAddr)
  /-- BRA, R111; `n` is the signed word offset of R92. -/
  | bra (n : BitVec 16)
  /-- PUSH f, R113. -/
  | pushF (f : DataAddr)
  /-- POP f, R113. -/
  | popF (f : DataAddr)
  /-- MOV #lit16,Wnd, R110 and R125. -/
  | movLit (k : Word) (d : WReg)
  /-- MOV Wns,f, R121. -/
  | movToF (r : WReg) (f : DataAddr)
  /-- MOV f,Wnd, R120. -/
  | movFromF (f : DataAddr) (d : WReg)
  /-- BSET f,#bit4, R122. -/
  | bsetF (f : DataAddr) (b : BitVec 4)
  /-- BCLR f,#bit4, R122. -/
  | bclrF (f : DataAddr) (b : BitVec 4)
  /-- SFTAC, R114. -/
  | sftac (acc : Acc) (c : ShiftCount)
  /-- The divide instruction under REPEAT, R115: dividend in W`m`, divisor in W`n`, quotient to W`q`, remainder to W`r`. -/
  | repeatDivide (m n q r : WReg)
  /-- The MAC class, R116: writes `acc`, after an optional X-space and an optional Y-space fetch through W registers. -/
  | macClass (acc : Acc) (x y : Option WReg)
  /-- MOV.D, R117. -/
  | movD (form : DoubleForm)
  /-- BTSC, R117. -/
  | btsc (src : BitSource) (b : BitVec 4)
  /-- BTSS, R117. -/
  | btss (src : BitSource) (b : BitVec 4)
  /-- Bit manipulation with indirect addressing, R119. -/
  | bitIndirect (op : BitOp) (p : WReg) (b : BitVec 4)
deriving DecidableEq, Repr

/-- The half of a register that a byte write selects (42_sfr_access.md R121). -/
inductive Half where
  | lo
  | hi
deriving DecidableEq, Repr

/-- How an effective address was formed (20_memory.md R79): from W15, with whether its computation wrapped past the end of
data space, or not from W15. -/
inductive EaBase where
  | other
  | stack (wrapped : Bool)
deriving DecidableEq, Repr

/-- One action of an instruction of the surrounding instruction set (41_named_instructions.md R110). The list of an
instruction's actions is the parameter; what each action may do to the state of this spec is R110's interface.
`base` says how the effective address was formed. -/
inductive Action where
  | setW (i : WReg) (v : Word)
  | setFlags (v : Word)
  | readWord (a : DataAddr) (base : EaBase)
  | readByte (a : DataAddr) (base : EaBase)
  | writeWord (a : DataAddr) (v : Word) (base : EaBase)
  | writeByte (a : DataAddr) (v : Byte) (base : EaBase)
  | bitIndirect (a : DataAddr) (b : BitVec 4) (v : Bool) (base : EaBase)
  | writeAcc (acc : Acc) (v : BitVec 40) (c31 c39 : Bool)
  | divideByZero
  | badShift
  | jump (a : ProgAddr)
deriving DecidableEq, Repr

/-- The operations of R91 that are not rows of the opcode table: register access by name, the save and restore of SR,
and `OTHER(i)`. `field r hi lo x` is the field assignment of R122. -/
inductive AbsOp where
  | sfrRead (r : Sfr)
  | sfrWrite (r : Sfr) (v : Word)
  | sfrWriteByte (r : Sfr) (h : Half) (v : Byte)
  | sfrBset (r : Sfr) (b : BitVec 4)
  | sfrBclr (r : Sfr) (b : BitVec 4)
  | field (r : Sfr) (hi lo : BitVec 4) (x : Word)
  | pushSr
  | popSr
  | other (k : Nat)
deriving DecidableEq, Repr

/-- What stands at an even program address: a 24-bit word (an encoded instruction or a vector, R70, R72), or an
operation of R91's alphabet, since seven rows of the table have no encoding. -/
inductive ProgCell where
  | word (w : ProgWord)
  | instr (i : Instr)
  | abs (o : AbsOp)
deriving DecidableEq, Repr

end Sys2Proof
end

