-- ==== Sys2Proof/WellFormed.lean ====
section
/-! DEFINITION. Which operands an operation admits (30_encoding.md R91, R92). -/

namespace Sys2Proof

/-- An even data address: the `f` operand of a word instruction holds bits 15:1 only (R92). -/
def evenAddr (f : DataAddr) : Bool := f.getLsbD 0 == false

/-- The `f` operand of BSET and BCLR: the even address of a word whose two byte addresses fit 13 bits (R92). -/
def bitAddr (f : DataAddr) : Bool := evenAddr f && f.toNat < 0x2000

/-- The first register of a MOV.D pair must have a successor. -/
def pairReg (d : WReg) : Bool := d.val < 15

/-- The operands that an instruction admits. -/
def Instr.wellFormed : Instr → Bool
  | .nop => true
  | .retfie => true
  | .ret => true
  | .disi _ => true
  | .pwrsav _ => true
  | .reset => true
  | .goto a => a.getLsbD 0 == false
  | .bra _ => true
  | .pushF f => evenAddr f
  | .popF f => evenAddr f
  | .movLit _ _ => true
  | .movToF _ f => evenAddr f
  | .movFromF f _ => evenAddr f
  | .bsetF f _ => bitAddr f
  | .bclrF f _ => bitAddr f
  | .sftac _ _ => true
  | .repeatDivide _ _ _ _ => true
  | .macClass _ _ _ => true
  | .movD (.load _ d _) => pairReg d
  | .movD (.store s _) => pairReg s
  | .btsc (.file f) _ => evenAddr f
  | .btsc (.indirect _) _ => true
  | .btsc (.psv _) _ => true
  | .btss (.file f) _ => evenAddr f
  | .btss (.indirect _) _ => true
  | .btss (.psv _) _ => true
  | .bitIndirect _ _ _ => true

/-- A field assignment names a field with its high bit not below its low bit (42_sfr_access.md R122). -/
def AbsOp.wellFormed : AbsOp → Bool
  | .field _ hi lo _ => lo.toNat ≤ hi.toNat
  | .sfrRead _ => true
  | .sfrWrite _ _ => true
  | .sfrWriteByte _ _ _ => true
  | .sfrBset _ _ => true
  | .sfrBclr _ _ => true
  | .pushSr => true
  | .popSr => true
  | .other _ => true

end Sys2Proof
end

