-- ==== Sys2Proof/Decode.lean ====
section
/-! DEFINITION. Reading and writing the 24-bit instruction words of 30_encoding.md R92 (PRESUMED encodings, log 1).
Seven rows of the opcode table have no encoding: no word decodes to them. -/

namespace Sys2Proof

/-- Why a word is rejected (R93(d), 92_eei_decisions.md D31). -/
inductive DecodeError where
  /-- The word matches no row of R92. -/
  | noRow
  /-- A GOTO whose second word does not match R92's second pattern, or is not a program word. -/
  | gotoSecondWord
deriving DecidableEq, Repr

/-- The data address with bits 15:1 from a 15-bit field (R92: "the `f` field of MOV word moves is the data address
shifted right by one"). -/
def addrOfField15 (f : BitVec 15) : DataAddr := f ++ 0#1

/-- The data address with bits 12:1 from the field of BSET and BCLR (R92). -/
def addrOfField12 (f : BitVec 12) : DataAddr := 0#3 ++ f ++ 0#1

/-- GOTO's target, `word2[6:0] ## word1[15:1] ## 0` (R92). -/
def gotoTarget (w1 w2 : ProgWord) : ProgAddr := w2.extractLsb' 0 7 ++ w1.extractLsb' 1 15 ++ 0#1

/-- The working register that a 4-bit field names (R92). -/
def regOfField (b : BitVec 4) : WReg := ⟨b.toNat, b.isLt⟩

/-- The 4-bit field that names a working register (R92). -/
def fieldOfReg (r : WReg) : BitVec 4 := BitVec.ofNat 4 r.val

/-- The bit number of BSET and BCLR, bit 0 above bits 15:13 (R92). -/
def bitNumber (w : ProgWord) : BitVec 4 := w.extractLsb' 0 1 ++ w.extractLsb' 13 3

/-- The mask and match of the first word of each encoded row, in the order of R92's table. -/
def rowPatterns : List (ProgWord × ProgWord) :=
  [(0xFF0000#24, 0x000000#24), (0xFFFFFF#24, 0x064000#24), (0xFFFFFF#24, 0x060000#24), (0xFFC000#24, 0xFC0000#24),
   (0xFFFFFE#24, 0xFE4000#24), (0xFFFFFF#24, 0xFE0000#24), (0xFF0001#24, 0x040000#24), (0xFF0000#24, 0x370000#24),
   (0xFF0001#24, 0xF80000#24), (0xFF0001#24, 0xF90000#24), (0xF00000#24, 0x200000#24), (0xF80000#24, 0x880000#24),
   (0xF80000#24, 0x800000#24), (0xFF0000#24, 0xA80000#24), (0xFF0000#24, 0xA90000#24)]

/-- The instruction that a program word encodes, given the word at the next program address (none where no program
word stands there): R92's rows, each by its mask and match. -/
def decode (w : ProgWord) (next : Option ProgWord) : Except DecodeError Instr :=
  if w &&& 0xFF0000#24 = 0x000000#24 then .ok .nop
  else if w = 0x064000#24 then .ok .retfie
  else if w = 0x060000#24 then .ok .ret
  else if w &&& 0xFFC000#24 = 0xFC0000#24 then .ok (.disi (w.extractLsb' 0 14))
  else if w = 0xFE4000#24 then .ok (.pwrsav .sleep)
  else if w = 0xFE4001#24 then .ok (.pwrsav .idle)
  else if w = 0xFE0000#24 then .ok .reset
  else if w &&& 0xFF0001#24 = 0x040000#24 then
    match next with
    | some w2 => if w2 &&& 0xFFFF80#24 = 0x000000#24 then .ok (.goto (gotoTarget w w2)) else .error .gotoSecondWord
    | none => .error .gotoSecondWord
  else if w &&& 0xFF0000#24 = 0x370000#24 then .ok (.bra (w.extractLsb' 0 16))
  else if w &&& 0xFF0001#24 = 0xF80000#24 then .ok (.pushF (addrOfField15 (w.extractLsb' 1 15)))
  else if w &&& 0xFF0001#24 = 0xF90000#24 then .ok (.popF (addrOfField15 (w.extractLsb' 1 15)))
  else if w &&& 0xF00000#24 = 0x200000#24 then .ok (.movLit (w.extractLsb' 4 16) (regOfField (w.extractLsb' 0 4)))
  else if w &&& 0xF80000#24 = 0x880000#24 then
    .ok (.movToF (regOfField (w.extractLsb' 0 4)) (addrOfField15 (w.extractLsb' 4 15)))
  else if w &&& 0xF80000#24 = 0x800000#24 then
    .ok (.movFromF (addrOfField15 (w.extractLsb' 4 15)) (regOfField (w.extractLsb' 0 4)))
  else if w &&& 0xFF0000#24 = 0xA80000#24 then .ok (.bsetF (addrOfField12 (w.extractLsb' 1 12)) (bitNumber w))
  else if w &&& 0xFF0000#24 = 0xA90000#24 then .ok (.bclrF (addrOfField12 (w.extractLsb' 1 12)) (bitNumber w))
  else .error .noRow

/-- The first word of BSET or BCLR: opcode byte, bit4<2:0>, f<12:1>, bit4<3> (R92). -/
def bitWord (opcode : BitVec 8) (f : DataAddr) (b : BitVec 4) : ProgWord :=
  opcode ++ b.extractLsb' 0 3 ++ f.extractLsb' 1 12 ++ b.extractLsb' 3 1

/-- The words of an instruction, first word first (R92); an instruction without an encoding has none. -/
def encode : Instr → List ProgWord
  | .nop => [0x000000#24]
  | .retfie => [0x064000#24]
  | .ret => [0x060000#24]
  | .disi k => [0xFC#8 ++ 0#2 ++ k]
  | .pwrsav .sleep => [0xFE4000#24]
  | .pwrsav .idle => [0xFE4001#24]
  | .reset => [0xFE0000#24]
  | .goto a => [0x04#8 ++ a.extractLsb' 1 15 ++ 0#1, 0#17 ++ a.extractLsb' 16 7]
  | .bra n => [0x37#8 ++ n]
  | .pushF f => [0xF8#8 ++ f.extractLsb' 1 15 ++ 0#1]
  | .popF f => [0xF9#8 ++ f.extractLsb' 1 15 ++ 0#1]
  | .movLit k d => [0x2#4 ++ k ++ fieldOfReg d]
  | .movToF r f => [0x11#5 ++ f.extractLsb' 1 15 ++ fieldOfReg r]
  | .movFromF f d => [0x10#5 ++ f.extractLsb' 1 15 ++ fieldOfReg d]
  | .bsetF f b => [bitWord 0xA8#8 f b]
  | .bclrF f b => [bitWord 0xA9#8 f b]
  | .sftac _ _ => []
  | .repeatDivide _ _ _ _ => []
  | .macClass _ _ _ => []
  | .movD _ => []
  | .btsc _ _ => []
  | .btss _ _ => []
  | .bitIndirect _ _ _ => []

/-- The rows of the opcode table that R92 gives an encoding. -/
def Instr.encoded (i : Instr) : Bool := !(encode i).isEmpty

/-- How many program words an instruction occupies: one, but two for GOTO (R91, R92);
an instruction without an encoding is taken as one word (R92: "every instruction is one 24-bit word except GOTO"). -/
def Instr.length (i : Instr) : Nat := max 1 (encode i).length

/-- The two 24-bit words of an instruction whose bits are `w`, cut to `nbits` bits. -/
def tableWords (nbits w : Nat) : ProgWord × ProgWord :=
  let bits := w % 2 ^ nbits
  (BitVec.ofNat 24 bits, BitVec.ofNat 24 (bits / 2 ^ 24))

/-- The instruction the decoder reads from an instruction whose bits are `w`. -/
def decodeTableWord (nbits w : Nat) : Option Instr :=
  let ws := tableWords nbits w
  match decode ws.1 (some ws.2) with
  | .ok i => some i
  | .error _ => none

end Sys2Proof
end

