-- ==== Sys2Proof/Config.lean ====
section
/-! DEFINITION. What an implementation fixes (00_scope.md R6) and the free values: constants with no body, which
nothing can evaluate, applied to the index of the step (R8 `draw`; log 3). -/

namespace Sys2Proof

/-- What one bit of the two stacked words of an exception frame holds (R6 `FRAME_LAYOUT`, 60_exceptions.md R140): a bit
of the return address, of SRL, IPL3, or 0. -/
inductive FrameBit where
  | pc (k : Fin 23)
  | srl (k : Fin 8)
  | ipl3
  | zero
deriving DecidableEq, Repr

/-- FRAME_LAYOUT (R6, 92_eei_decisions.md D3 `OPEN`): what each bit of the first and of the second pushed word holds. -/
structure FrameLayout where
  first : Vector FrameBit 16
  second : Vector FrameBit 16
deriving DecidableEq, Repr

/-- The parameters of R6 as plain data; a machine keeps one value of it for the whole run. `sources` is
IMPLEMENTED_SOURCES, `nVectors`, `ivtBase`, `aivtBase`, `resetPc`, `stackBase` and `frame` are the parameters of these
names, the four `vector…` are TRAP_VECTOR and the four `level…` TRAP_LEVEL, `sfrAddr` is SFR_ADDR, `dataRanges` and
`progRanges` are IMPLEMENTED_DATA and IMPLEMENTED_PROG as inclusive address ranges, `ySpace` is the Y part of data space
(R74), `pcBits`, `dataAddrBits` and `disicntBits` are PC_BITS, DATA_ADDR_BITS and DISICNT_BITS, and
`unimplementedWriteTraps` is the parameter of U14; `cycles(i)` is `Machine.cycles`. A width above that of `ProgAddr`,
`DataAddr` or `DisiCount` counts as that width: DESIGN CHOICE, log 2. -/
structure Device where
  sources : List Nat
  nVectors : Nat
  ivtBase : Nat
  aivtBase : Nat
  resetPc : ProgAddr
  stackBase : Word
  pcBits : Nat
  dataAddrBits : Nat
  disicntBits : Nat
  frame : FrameLayout
  progRanges : List (Nat × Nat)
  dataRanges : List (Nat × Nat)
  ySpace : List (Nat × Nat)
  sfrAddr : List (Sfr × DataAddr)
  vectorOscFail : Nat
  vectorAddressError : Nat
  vectorStackError : Nat
  vectorMathError : Nat
  levelOscFail : Nat
  levelAddressError : Nat
  levelStackError : Nat
  levelMathError : Nat
  skidMaxIrq : Nat
  skidMaxSoft : Nat
  unimplementedWriteTraps : Bool
deriving DecidableEq, Repr

namespace Config

/-- The byte that data memory holds at an address nothing has written since the last reset, by count of resets (U17). -/
opaque ramByte (epoch a : Nat) : Byte

/-- Bits of a register read that the spec leaves open: SPLIM before a word write, INTTREG in the windows of D10, RCON
and OSCCON bits (R120, R53, R54). -/
opaque sfrBits (t : Nat) (r : Sfr) : Word

/-- What a misaligned or unimplemented read returns, and a read of an SFR-window address that no register of the spec
holds (U12, log 11). -/
opaque busByte (t : Nat) (a : Nat) : Byte

/-- Further cycles of an instruction beyond the ones the spec fixes (D7). -/
opaque extraCycles (t : Nat) : Nat

/-- Whether an exception entry takes a fifth cycle (D7, R211). -/
opaque fifthCycle (t : Nat) : Bool

/-- Whether a deferrable exception is deferred at this boundary (R139, D8). -/
opaque defer (t : Nat) : Bool

/-- Ticks during Sleep or Idle and wake-up (D23). -/
opaque sleepTicks (t : Nat) : Nat

/-- VECNUM latched at a trap entry (R142, R170). -/
opaque trapVecnum (t : Nat) : BitVec 7

/-- Whether the return address stacked for a bad fetch is pc + 2 (D24). -/
opaque badFetchPastPc (t : Nat) : Bool

/-- The `i`-th word of state that a device reset leaves unspecified (D30). -/
opaque resetWord (t i : Nat) : Word

/-- The return address in the temporary buffer after a device reset (log 33). -/
opaque resetBufPc (t : Nat) : ProgAddr

/-- SRL in the temporary buffer after a device reset (log 33). -/
opaque resetBufSrl (t : Nat) : BitVec 8

/-- An accumulator after a device reset (D30). -/
opaque resetAcc (t : Nat) (acc : Acc) : BitVec 40

/-- A pin's level after a device reset (R168, R200). -/
opaque resetPin (t x : Nat) : Bool

/-- The `i`-th result word of an instruction whose arithmetic is outside the spec (N18). -/
opaque resultWord (t i : Nat) : Word

/-- The accumulator result of an instruction whose arithmetic is outside the spec (N18). -/
opaque resultAcc (t : Nat) : BitVec 40

/-- Whether an accumulator operation carried out of bit 31 (R154). -/
opaque carry31 (t : Nat) : Bool

/-- Whether an accumulator operation carried out of bit 39 (R154). -/
opaque carry39 (t : Nat) : Bool

/-- Flags after an instruction whose flags are not in the spec (R114, R115). -/
opaque flags (t : Nat) : Word

/-- Whether a bit test and skip skips (R117). -/
opaque skips (t : Nat) : Bool

/-- The value an unnamed bit manipulation gives its bit (R119). -/
opaque resultBit (t : Nat) : Bool

/-- Whether this iteration of the divide is the last of its REPEAT loop (R115, log 24). -/
opaque lastIteration (t : Nat) : Bool

/-- `sat31(acc)`: the 31-bit saturation mode is enabled for the accumulator, by CORCON (R154). -/
opaque sat31 (acc : Acc) (corcon : Word) : Bool

/-- The 39-bit saturation mode is enabled for the accumulator, by CORCON (R154). -/
opaque sat39 (acc : Acc) (corcon : Word) : Bool

/-- How many program words beyond the first the surrounding instruction number `k` occupies (30_encoding.md R91). -/
opaque otherExtraWords (k : Nat) : Nat

/-- How many program words beyond the first an instruction occupies whose first word matches no row of R92 (log 26). -/
opaque wordExtraWords (w : ProgWord) : Nat

/-- The actions of the surrounding instruction number `k` at this step (R110). -/
opaque otherActions (k t : Nat) : List Action

end Config

end Sys2Proof
end

