-- ==== Sys2Proof/Machine/Bits.lean ====
section
/-! DEFINITION. Bit fields of 16-bit registers (00_scope.md R7, R8) and the write masks of 42_sfr_access.md R121. -/

namespace Sys2Proof.Machine

/-- `REG<b> <- v`. -/
def setBit (w : Word) (b : Nat) (v : Bool) : Word :=
  if v then w ||| (1#16 <<< b) else w &&& ~~~(1#16 <<< b)

/-- The bit vector whose bit `b` is `p b`. -/
def ofBits (n : Nat) (p : Nat → Bool) : BitVec n :=
  (List.range n).foldl (fun m b => if p b then m ||| (1#n <<< b) else m) 0#n

/-- The word whose bit `b` is `p b`. -/
def maskOf (p : Nat → Bool) : Word := ofBits 16 p

/-- A register after a software write of `v` to the bits `sel` (R121): the writable bits `wm` take `v`, the clear-only
bits `co` are cleared by a 0 and kept by a 1, every other bit is unchanged. -/
def mergeWrite (old v sel wm co : Word) : Word :=
  ((old &&& ~~~(wm &&& sel)) ||| (v &&& wm &&& sel)) &&& ~~~(co &&& sel &&& ~~~v)

/-- The byte at the even address of a little-endian word (20_memory.md R75). -/
def lowByte (v : Word) : Byte := v.extractLsb' 0 8

/-- The byte at the odd address of a little-endian word (R75). -/
def highByte (v : Word) : Byte := v.extractLsb' 8 8

/-- The word whose bytes are `lo` at the even and `hi` at the odd address (R75). -/
def wordOfBytes (lo hi : Byte) : Word := hi ++ lo

/-- A data address with bit 0 cleared: the word that holds a byte (R75), and W15, whose bit 0 is always 0 (R11). -/
def evenPart (a : Word) : Word := a &&& 0xFFFE#16

/-- The low `n` bits of a value: what a register or an address of `n` bits holds of it (00_scope.md R6). -/
def narrow {w : Nat} (n : Nat) (x : BitVec w) : BitVec w := x &&& BitVec.ofNat w (2 ^ n - 1)

/-- A program address with bit 0 cleared (R10, 92_eei_decisions.md D19). -/
def evenPc (a : ProgAddr) : ProgAddr := a &&& 0x7FFFFE#23

/-- A 16-bit word offset, sign-extended to a program address difference of 2 per word (30_encoding.md R92, BRA). -/
def branchOffset (n : BitVec 16) : ProgAddr := n.signExtend 23 <<< 1

end Sys2Proof.Machine
end

