-- ==== Sys2Proof/Machine/Params.lean ====
section
/-! DEFINITION. The constants and tables of the hardware (00_scope.md R6, 60_exceptions.md R131, R134) and the default
device (log 2, log 17). -/

namespace Sys2Proof.Machine

/-- A program address as pc holds it: modulo 2^PC_BITS, with bit 0 kept 0 (R6, 10_state.md R10, D19). -/
def pcOf (d : Device) (a : ProgAddr) : ProgAddr := narrow d.pcBits (evenPc a)

/-- A data-space effective address: modulo 2^DATA_ADDR_BITS (R6, 20_memory.md R74). -/
def eaOf (d : Device) (a : DataAddr) : DataAddr := narrow d.dataAddrBits a

/-- The last even address of data space, 0xFFFE with the 16 address bits of R6 (R74, R79). -/
def lastWord (d : Device) : DataAddr := eaOf d 0xFFFE#16

/-- The program counter after reset (R6 `RESET_PC`). -/
def resetPc (d : Device) : ProgAddr := pcOf d d.resetPc

/-- W15 after reset (R6 `STACK_BASE`), with bit 0 kept 0 (10_state.md R11). -/
def resetSp (d : Device) : Word := evenPart d.stackBase

/-- The first data address above the SFR window (93_implementation_defined.md GK11). PRESUMED, log 11. -/
def sfrWindowEnd : Nat := 0x0800

/-- The IRQ numbers of the 36 sources of R131, in natural order. -/
def irqTable : List Nat :=
  [0, 1, 2, 3, 5, 6, 7, 8, 9, 10, 11, 12, 13, 16, 17, 18, 19, 20, 29, 57, 65, 80, 94, 95, 96, 97, 103, 104, 105,
   110, 111, 112, 113, 114, 115, 116]

/-- IRQ number `n` has a source on this device (R131, R174, 92_eei_decisions.md D25), and its vector number `n + 8` is one
of the N_VECTORS of a table (R6). -/
def implemented (d : Device) (n : Nat) : Bool :=
  irqTable.contains n && d.sources.contains n && n + 8 < d.nVectors

/-- The implemented bits of IFSx and of IECx (10_state.md R22, R30, R33). -/
def flagMask (d : Device) (x : Nat) : Word := maskOf (fun b => implemented d (16 * x + b))

/-- The implemented bits of IPCx: bits 2:0 of the nibble of each source (R33, R34). -/
def priorityMask (d : Device) (x : Nat) : Word :=
  maskOf (fun b => b % 4 != 3 && implemented d (4 * x + b / 4))

/-- IPCx after reset: every implemented field holds 4 (R34, R58). -/
def priorityReset (d : Device) (x : Nat) : Word :=
  maskOf (fun b => b % 4 == 2 && implemented d (4 * x + b / 4))

/-- The CPU priority level of a trap (R6 `TRAP_LEVEL`, R134). -/
def trapLevel (d : Device) : Trap → Nat
  | .oscFail => d.levelOscFail
  | .addressError => d.levelAddressError
  | .stackError => d.levelStackError
  | .mathError => d.levelMathError

/-- The levels are trap levels in the order of R134: 8 to 15, the oscillator failure highest, the math error lowest, one
trap to a level. -/
def trapLevelsOrdered (d : Device) : Bool :=
  8 ≤ d.levelMathError && d.levelMathError < d.levelStackError && d.levelStackError < d.levelAddressError &&
  d.levelAddressError < d.levelOscFail && d.levelOscFail ≤ 15

/-- Hard traps stop code execution until acknowledged; soft traps are treated like interrupts (R134, R147). -/
def hardTrap : Trap → Bool
  | .oscFail => true
  | .addressError => true
  | .stackError => false
  | .mathError => false

/-- The bit of a trap's status flag in INTCON1 (R134, R19). -/
def trapFlagBit : Trap → Nat
  | .oscFail => 1
  | .addressError => 3
  | .stackError => 2
  | .mathError => 4

/-- TRAP_VECTOR (R6, R134). -/
def trapVector (d : Device) : Trap → Nat
  | .oscFail => d.vectorOscFail
  | .addressError => d.vectorAddressError
  | .stackError => d.vectorStackError
  | .mathError => d.vectorMathError

/-- The four traps, in the order of R134's table. -/
def trapsByLevel : List Trap := [.oscFail, .addressError, .stackError, .mathError]

/-- Whether an address lies in one of some inclusive ranges. -/
def inRanges (rs : List (Nat × Nat)) (a : Nat) : Bool := rs.any (fun r => r.1 ≤ a && a ≤ r.2)

/-- The register at an even data address (parameter SFR_ADDR, 42_sfr_access.md). -/
def sfrAt (d : Device) (a : DataAddr) : Option Sfr := (d.sfrAddr.find? (fun e => e.2 == eaOf d a)).map (·.1)

/-- An address of implemented data space (20_memory.md R74, R80); the address of a register is implemented. -/
def dataImplemented (d : Device) (a : DataAddr) : Bool :=
  (sfrAt d (evenPart a)).isSome || inRanges d.dataRanges (eaOf d a).toNat

/-- An address of the Y part of data space (R74). -/
def inYSpace (d : Device) (a : DataAddr) : Bool := inRanges d.ySpace (eaOf d a).toNat

/-- An address of implemented program memory (R71, R80). -/
def progImplemented (d : Device) (a : ProgAddr) : Bool := inRanges d.progRanges a.toNat

/-- The bit of the saved values that a frame bit holds (60_exceptions.md R140). -/
def frameBitValue (ret : ProgAddr) (l : BitVec 8) (i : Bool) : FrameBit → Bool
  | .pc k => ret.getLsbD k.val
  | .srl k => l.getLsbD k.val
  | .ipl3 => i
  | .zero => false

/-- A stacked word: its bits by the layout, from the return address, SRL and IPL3 (R140). -/
def frameWord (bits : Vector FrameBit 16) (ret : ProgAddr) (l : BitVec 8) (i : Bool) : Word :=
  maskOf (fun b => frameBitValue ret l i (bits[b]?.getD .zero))

/-- The value that the two words of a frame hold for a frame bit; 0 where the layout has no such bit. -/
def frameBitAt (f : FrameLayout) (lo hi : Word) (b : FrameBit) : Bool :=
  (List.finRange 16).any (fun k => (f.first[k] == b && lo.getLsbD k.val) || (f.second[k] == b && hi.getLsbD k.val))

/-- The return address in a frame; its bit 0 is 0 (40_system_instructions.md R102, D4). -/
def framePcOf (f : FrameLayout) (lo hi : Word) : ProgAddr :=
  ofBits 23 (fun k => k != 0 && frameBitAt f lo hi (.pc (Fin.ofNat 23 k)))

/-- SRL in a frame (R102). -/
def frameSrlOf (f : FrameLayout) (lo hi : Word) : BitVec 8 :=
  ofBits 8 (fun k => frameBitAt f lo hi (.srl (Fin.ofNat 8 k)))

/-- IPL3 in a frame (R102). -/
def frameIpl3Of (f : FrameLayout) (lo hi : Word) : Bool := frameBitAt f lo hi .ipl3

/-- A layout has a place for a frame bit. -/
def frameHas (f : FrameLayout) (b : FrameBit) : Bool :=
  (List.finRange 16).any (fun k => f.first[k] == b || f.second[k] == b)

/-- A layout has a place for everything that an entry saves: PC<22:1>, SRL and IPL3 (R140, R177). -/
def frameComplete (f : FrameLayout) : Bool :=
  (List.finRange 23).all (fun k => k.val == 0 || frameHas f (.pc k)) &&
  (List.finRange 8).all (fun k => frameHas f (.srl k)) && frameHas f .ipl3

/-- The default FRAME_LAYOUT (D3, D4, 93_implementation_defined.md GK1): PC<15:1> and 0; SRL, IPL3, PC<22:16>. PRESUMED,
log 8. -/
def defaultFrame : FrameLayout where
  first := Vector.ofFn (fun k : Fin 16 => if k.val = 0 then .zero else .pc (Fin.ofNat 23 k.val))
  second := Vector.ofFn (fun k : Fin 16 =>
    if k.val < 7 then .pc (Fin.ofNat 23 (16 + k.val)) else if k.val = 7 then .ipl3 else .srl (Fin.ofNat 8 (k.val - 8)))

/-- The default of SFR_ADDR, 93_implementation_defined.md GK3 and GK7. PRESUMED, log 2. -/
def defaultSfrAddr : List (Sfr × DataAddr) :=
  (List.finRange 16).map (fun i => (Sfr.w i, BitVec.ofNat 16 (2 * i.val))) ++
  [(.splim, 0x0020#16), (.sr, 0x0042#16), (.corcon, 0x0044#16), (.disicnt, 0x0052#16), (.intcon1, 0x0080#16),
   (.intcon2, 0x0082#16), (.inttreg, 0x00E0#16), (.rcon, 0x0740#16), (.osccon, 0x0742#16)] ++
  ([0, 1, 3, 4, 5, 6, 7] : List (Fin 8)).map (fun x => (Sfr.ifs x, BitVec.ofNat 16 (0x0084 + 2 * x.val))) ++
  ([0, 1, 3, 4, 5, 6, 7] : List (Fin 8)).map (fun x => (Sfr.iec x, BitVec.ofNat 16 (0x0094 + 2 * x.val))) ++
  ([0, 1, 2, 3, 4, 5, 7, 14, 16, 20, 23, 24, 25, 26, 27, 28, 29] : List (Fin 30)).map
    (fun x => (Sfr.ipc x, BitVec.ofNat 16 (0x00A4 + 2 * x.val)))

/-- The default of every parameter (R6): all 36 sources; 126 vectors at 0x000004 and 0x000104; reset at 0x000000;
stack base 0x0800; a pc of 23, data addresses of 16 and a DISICNT of 14 bits; the frame of D3; program memory 0x000000
to 0x000FFE (the convention of 95_test_vectors.md section 3); all of data space; Y space 0x1800 to 0x1FFF (DESIGN
CHOICE); the trap vectors of D5 and the trap levels of S41; skid bounds 2 and 2; writes to unimplemented data space
report nothing. Log 2, log 17. -/
def defaultDevice : Device where
  sources := irqTable
  nVectors := 126
  ivtBase := 0x000004
  aivtBase := 0x000104
  resetPc := 0x000000#23
  stackBase := 0x0800#16
  pcBits := 23
  dataAddrBits := 16
  disicntBits := 14
  frame := defaultFrame
  progRanges := [(0x000000, 0x000FFE)]
  dataRanges := [(0x0000, 0xFFFF)]
  ySpace := [(0x1800, 0x1FFF)]
  sfrAddr := defaultSfrAddr
  vectorOscFail := 1
  vectorAddressError := 2
  vectorStackError := 3
  vectorMathError := 4
  levelOscFail := 14
  levelAddressError := 13
  levelStackError := 12
  levelMathError := 11
  skidMaxIrq := 2
  skidMaxSoft := 2
  unimplementedWriteTraps := false

end Sys2Proof.Machine
end

