-- ==== Sys2Proof/Machine/State.lean ====
section
/-! DEFINITION. The state of the machine as plain data (10_state.md, R57, R58), the reasons a step can stop, and the
state after reset. -/

namespace Sys2Proof.Machine

/-- The power mode (10_state.md R55). -/
inductive Power where
  | run
  | asleep (m : SleepMode)
deriving DecidableEq, Repr

/-- What the environment may do (60_exceptions.md R130): a peripheral sets its flag (R132), a pin changes level (R168),
the oscillator fails (R149), the device is reset from outside (R200). -/
inductive EnvEvent where
  | peripheral (n : Nat)
  | pin (x : Fin 3) (level : Bool)
  | oscillatorFailure
  | externalReset
deriving DecidableEq, Repr

/-- One turn of R130's interleaving: the CPU's or the environment's. -/
inductive Turn where
  | cpu
  | env (e : EnvEvent)
deriving DecidableEq, Repr

/-- Why a device is reset (00_scope.md R8 `reset(cause)`, 70_reset_and_hazards.md R200, R201). -/
inductive ResetCause where
  | software
  | external
  | trapConflict
deriving DecidableEq, Repr

/-- The reasons a machine stops with a fault. -/
inductive Fault where
  /-- A hard trap event at the level the CPU is already at (60_exceptions.md R146, D15); raised by `raiseHard`. Safe. -/
  | hardTrapInOwnHandler (t : Trap)
  /-- The CPU fetches a program address that nothing has loaded (log 7); raised by `runAt`. Safe. -/
  | programWordAbsent (a : ProgAddr)
  /-- An exception fetches a vector that nothing has loaded (R202, log 7); raised by `vectorTarget`. Safe. -/
  | vectorAbsent (a : ProgAddr)
deriving DecidableEq, Repr

/-- The reasons a step is given no meaning. -/
inductive Refusal where
  /-- An instruction that has no meaning yet; raised in `exec`'s arms only. Safe. -/
  | notModelled (mnemonic : String)
  /-- The word at the program counter matches no row of R92, or a GOTO's second word does not (R93, D31). Safe. -/
  | undecodable (e : DecodeError)
  /-- An abstract operation in program memory whose operands it does not admit (R91). Safe. -/
  | illFormedOperation
  /-- Software changes MATHERR, ADDRERR, STKERR or OSCFAIL from 0 to 1 (R127, D14); raised by `sfrWrite`. Safe. -/
  | softwareSetTrapFlag
  /-- Software changes the priority of a live request (R204, D26); raised by `sfrWrite`. Safe. -/
  | priorityChangedWhileLive
  /-- A fetched vector that is no address of PC_BITS bits with bit 0 clear, or no program word (R72, D13); raised by
  `vectorTarget`. Safe. -/
  | badVector
  /-- An oscillator failure while the device sleeps (R149, D17); raised by `envStep`. Safe. -/
  | oscFailWhileAsleep
deriving DecidableEq, Repr

/-- A REPEAT loop of a divide that has begun and not ended (41_named_instructions.md R115, log 24): W15 and the divide's
address when the model last met it, and whether its first iteration has been executed. -/
structure LoopMark where
  stack : Word
  pc : ProgAddr
  started : Bool
deriving DecidableEq, Repr

/-- The machine's state: every piece of state of 10_state.md (INVENTORY.md lists them one by one), the two memories,
the model's own fields, and the device parameters. The accumulators are exactly 40 bits wide, where R56 says "at least 40
bits wide": DESIGN CHOICE, log 38. `badFetch` and `divideLoops` are log 18 and log 24. -/
structure State where
  pc : ProgAddr
  w : Vector Word 16
  splim : Word
  splimWritten : Bool
  sr : Word
  corcon : Word
  disicnt : DisiCount
  disiActive : Bool
  intcon1 : Word
  intcon2 : Word
  ifs : Vector Word 8
  iec : Vector Word 8
  ipc : Vector Word 30
  inttreg : Word
  traprSet : Bool
  cfSet : Bool
  power : Power
  accA : BitVec 40
  accB : BitVec 40
  pins : Vector Bool 3
  bufPc : ProgAddr
  bufSrl : BitVec 8
  skid : Nat
  mem : List Host.Cell
  prog : List (Nat × ProgCell)
  inttregFresh : Bool
  disiLoaded : Bool
  badFetch : Bool
  divideLoops : List LoopMark
  ramEpoch : Nat
  draws : Nat
  agenda : List Turn
  dev : Device
deriving DecidableEq, Repr

/-- The three outcomes of a step of this machine. -/
abbrev Res := Host.Outcome State Fault Refusal

/-- The machine right after reset (10_state.md R58, 70_reset_and_hazards.md R200), with the default device, nothing
loaded in program memory, nothing written in data memory and an idle environment. W0 to W14, SPLIM, the accumulators,
the pins and the temporary buffer hold 0: DESIGN CHOICE, log 5; TRAPR and CF: log 12. -/
def State.reset : State where
  pc := 0x000000#23
  w := Vector.ofFn (fun i : Fin 16 => if i = 15 then 0x0800#16 else 0#16)
  splim := 0x0000#16
  splimWritten := false
  sr := 0x0000#16
  corcon := 0x0020#16
  disicnt := 0#14
  disiActive := false
  intcon1 := 0x0000#16
  intcon2 := 0x0000#16
  ifs := Vector.ofFn (fun _ => 0#16)
  iec := Vector.ofFn (fun _ => 0#16)
  ipc := Vector.ofFn (fun x : Fin 30 => priorityReset defaultDevice x.val)
  inttreg := 0x0000#16
  traprSet := false
  cfSet := false
  power := .run
  accA := 0#40
  accB := 0#40
  pins := Vector.ofFn (fun _ => false)
  bufPc := 0#23
  bufSrl := 0#8
  skid := 0
  mem := []
  prog := []
  inttregFresh := true
  disiLoaded := false
  badFetch := false
  divideLoops := []
  ramEpoch := 0
  draws := 0
  agenda := []
  dev := defaultDevice

end Sys2Proof.Machine
end

