-- ==== Sys2Proof/Machine/Arbiter.lean ====
section
/-! DEFINITION. Requests, priorities and masking (60_exceptions.md R135 to R138). -/

namespace Sys2Proof.Machine

/-- SR.IPL<2:0> (10_state.md R15). -/
def ipl (s : State) : BitVec 3 := s.sr.extractLsb' 5 3

/-- CORCON.IPL3 (R17). -/
def ipl3 (s : State) : Bool := s.corcon.getLsbD 3

/-- The CPU priority level, `8 * IPL3 + IPL<2:0>` (R135). -/
def cpuIPL (s : State) : Nat := 8 * (ipl3 s).toNat + (ipl s).toNat

/-- INTCON1.NSTDIS (R19). -/
def nstdis (s : State) : Bool := s.intcon1.getLsbD 15

/-- INTCON2.ALTIVT (R21). -/
def altivt (s : State) : Bool := s.intcon2.getLsbD 15

/-- `IF[n]` (R33); it reads 0 for an IRQ number without a source. -/
def irqFlag (s : State) (n : Nat) : Bool :=
  implemented s.dev n && (s.ifs[n / 16]?.getD 0#16).getLsbD (n % 16)

/-- `IE[n]` (R33). -/
def irqEnable (s : State) (n : Nat) : Bool :=
  implemented s.dev n && (s.iec[n / 16]?.getD 0#16).getLsbD (n % 16)

/-- `IP[n]` (R33). -/
def irqPriority (s : State) (n : Nat) : Nat :=
  if implemented s.dev n then ((s.ipc[n / 4]?.getD 0#16).extractLsb' (4 * (n % 4)) 3).toNat else 0

/-- Source `n` requests (R136). -/
def requests (s : State) (n : Nat) : Bool := irqFlag s n && irqEnable s n

/-- The winner among `best` and the requesting sources of a list in natural order: the greatest assigned priority, and
among equals the earliest (R137). -/
def winnerAmong (s : State) : List Nat → Option Nat → Option Nat
  | [], best => best
  | n :: ns, none => winnerAmong s ns (if requests s n then some n else none)
  | n :: ns, some m =>
    winnerAmong s ns (if requests s n && irqPriority s m < irqPriority s n then some n else some m)

/-- The winner among all requesting interrupts (R137). -/
def winner (s : State) : Option Nat := winnerAmong s irqTable none

/-- A request of priority `l` passes the CPU priority and DISI (R138; R204 `live`). -/
def passesMask (s : State) (l : Nat) : Bool := cpuIPL s < l && (!s.disiActive || l == 7)

/-- The interrupt presented to the CPU: the winner, if it passes the mask (R138). -/
def presentableIrq (s : State) : Option Nat :=
  match winner s with
  | some n => if passesMask s (irqPriority s n) then some n else none
  | none => none

/-- A trap is pending exactly while its status flag is 1 (R141). -/
def trapPending (s : State) (t : Trap) : Bool := s.intcon1.getLsbD (trapFlagBit t)

/-- A trap is presentable (R138). -/
def trapPresentable (s : State) (t : Trap) : Bool := trapPending s t && cpuIPL s < trapLevel s.dev t

/-- The presentable trap with the greatest level among `best` and those of a list (R139). -/
def topTrapAmong (s : State) : List Trap → Option Trap → Option Trap
  | [], best => best
  | t :: ts, none => topTrapAmong s ts (if trapPresentable s t then some t else none)
  | t :: ts, some u =>
    topTrapAmong s ts (if trapPresentable s t && trapLevel s.dev u < trapLevel s.dev t then some t else some u)

/-- The presentable trap with the greatest level (R139). -/
def topTrap (s : State) : Option Trap := topTrapAmong s trapsByLevel none

/-- The wake-up condition (R165). -/
def wakes (s : State) : Bool := irqTable.any (fun n => requests s n && 1 ≤ irqPriority s n)

end Sys2Proof.Machine
end

