-- ==== Sys2Proof/Machine/Memory.lean ====
section
/-! DEFINITION. The two memories as lists with strictly rising keys (20_memory.md R70), and the bytes of RAM. -/

namespace Sys2Proof.Machine

/-- What is listed at a key. -/
def assocGet {β : Type} : List (Nat × β) → Nat → Option β
  | [], _ => none
  | (k, v) :: m, a => if k = a then some v else assocGet m a

/-- List a value at a key, keeping the keys rising. -/
def assocPut {β : Type} : List (Nat × β) → Nat → β → List (Nat × β)
  | [], a, v => [(a, v)]
  | (k, u) :: m, a, v =>
    if a < k then (a, v) :: (k, u) :: m
    else if a = k then (a, v) :: m
    else (k, u) :: assocPut m a v

/-- The keys are at least `lo`, below `hi`, and strictly rising. -/
def keysRise {β : Type} (lo hi : Nat) : List (Nat × β) → Bool
  | [] => true
  | (k, _) :: m => lo ≤ k && k < hi && keysRise (k + 1) hi m

/-- The canonical form of data memory: addresses strictly rising within 0x0000 to 0xFFFF. An address nothing has written
since the last reset is not listed, and a listed byte is never "nothing written", so equal memories are equal lists. -/
def memoryWf (m : List Host.Cell) : Bool := keysRise 0 0x10000 m

/-- The canonical form of program memory. -/
def programWf (m : List (Nat × ProgCell)) : Bool := keysRise 0 0x800000 m

/-- The byte of RAM at an address: the last byte written since the reset, else a byte that the spec leaves unspecified
(93_implementation_defined.md U17, log 6). -/
def ramRead (s : State) (a : DataAddr) : Byte :=
  (assocGet s.mem (eaOf s.dev a).toNat).getD (Config.ramByte s.ramEpoch (eaOf s.dev a).toNat)

/-- A data address that is RAM: implemented and above the SFR window (20_memory.md R74). -/
def isRam (d : Device) (a : DataAddr) : Bool :=
  sfrWindowEnd ≤ (eaOf d a).toNat && inRanges d.dataRanges (eaOf d a).toNat

/-- Store a byte in RAM; a store to an address that is no RAM has no effect on any state of the spec (U14, log 11). -/
def ramWrite (s : State) (a : DataAddr) (b : Byte) : State :=
  if isRam s.dev a then { s with mem := assocPut s.mem (eaOf s.dev a).toNat b } else s

/-- What stands at a program address. -/
def progAt (s : State) (a : ProgAddr) : Option ProgCell := assocGet s.prog a.toNat

/-- The program word at a program address, where one stands (00_scope.md R8 `ProgRead`). -/
def progWordAt (s : State) (a : ProgAddr) : Option ProgWord :=
  match progAt s a with
  | some (.word w) => some w
  | _ => none

end Sys2Proof.Machine
end

