-- ==== Sys2Proof/Machine/Operands.lean ====
section
/-! DEFINITION. Reads and writes of registers and of data space: every operand form of the instructions
(20_memory.md R74 to R80, 42_sfr_access.md R120 to R129). -/

namespace Sys2Proof.Machine

/-- The trap events an instruction raises (60_exceptions.md R148, R150, R152); `math` holds the INTCON1 bits a math
error sets, and `fetch` says that the address error is a transfer of control to an unimplemented address (R150 cause 4).
They are applied after the instruction's own effect (41_named_instructions.md R110). -/
structure Events where
  stack : Bool
  addr : Bool
  math : Word
  fetch : Bool
deriving DecidableEq, Repr

/-- No event. -/
def quiet : Events := ⟨false, false, 0#16, false⟩

/-- The events of two actions of one instruction (R160). -/
def joinEvents (e f : Events) : Events :=
  ⟨e.stack || f.stack, e.addr || f.addr, e.math ||| f.math, e.fetch || f.fetch⟩

/-- A stack event, if the condition holds. -/
def stackEvent (c : Bool) : Events := ⟨c, false, 0#16, false⟩

/-- An address event, if the condition holds. -/
def addrEvent (c : Bool) : Events := ⟨false, c, 0#16, false⟩

/-- The address event of a transfer of control, if the target is unimplemented (R150 cause 4). -/
def jumpEvent (c : Bool) : Events := ⟨false, c, 0#16, c⟩

/-- A math event with its INTCON1 bits. -/
def mathEvent (bits : Word) : Events := ⟨false, false, bits, false⟩

/-- W15. -/
def sp (s : State) : Word := s.w[15]

/-- Write a working register; bit 0 of W15 is always 0 (10_state.md R11). -/
def putW (s : State) (i : WReg) (v : Word) : State :=
  { s with w := s.w.set i (if i = 15 then evenPart v else v) }

/-- The underflow check after an update of W15, against STACK_BASE (20_memory.md R79, 00_scope.md R6). -/
def stackLow (s : State) : Bool := sp s < s.dev.stackBase

/-- The event of a write to working register `i`, in the state after the write (R79, R125). -/
def putWEvents (s : State) (i : WReg) : Events := stackEvent (i = 15 && stackLow s)

/-- The overflow check of an effective address formed from W15 (R79). -/
def aboveLimit (s : State) (ea : DataAddr) : Bool := s.splimWritten && s.splim < eaOf s.dev ea

/-- The event of an access whose effective address was formed from working register `p` (R79). -/
def baseEvents (s : State) (p : WReg) (ea : DataAddr) : Events := stackEvent (p = 15 && aboveLimit s ea)

/-- `SFR_READ r` (R120): unimplemented bits read 0, and the bits that the spec leaves open are free (log 12, log 13). -/
def sfrRead (s : State) : Sfr → Word
  | .w i => s.w[i]
  | .splim => if s.splimWritten then s.splim else Config.sfrBits s.draws .splim
  | .sr => s.sr
  | .corcon => s.corcon &&& 0x1FFF#16
  | .disicnt => s.disicnt.setWidth 16
  | .intcon1 => s.intcon1 &&& 0xFFDE#16
  | .intcon2 => (s.intcon2 &&& 0x8007#16) ||| (if s.disiActive then 0x4000#16 else 0#16)
  | .inttreg =>
    (if s.inttregFresh && (presentableIrq s).isNone then s.inttreg else Config.sfrBits s.draws .inttreg) &&& 0x0F7F#16
  | .rcon => Config.sfrBits s.draws .rcon ||| (if s.traprSet then 0x8000#16 else 0#16)
  | .osccon => Config.sfrBits s.draws .osccon ||| (if s.cfSet then 0x0008#16 else 0#16)
  | .ifs x => s.ifs[x] &&& flagMask s.dev x.val
  | .iec x => s.iec[x] &&& flagMask s.dev x.val
  | .ipc x => s.ipc[x] &&& priorityMask s.dev x.val

/-- The trap status flags of INTCON1: MATHERR, ADDRERR, STKERR, OSCFAIL (R127). -/
def trapFlagMask : Word := 0x001E#16

/-- A write of `new` to IPCx changes the priority of a source whose request is live (70_reset_and_hazards.md R204). -/
def changesLivePriority (s : State) (x : Nat) (new : Word) : Bool :=
  (List.range 4).any (fun j =>
    let a := irqPriority s (4 * x + j)
    let b := (new.extractLsb' (4 * j) 3).toNat
    a != b && requests s (4 * x + j) && (passesMask s a || passesMask s b))

/-- DISICNT takes a count: its low DISICNT_BITS (R6, 10_state.md R18); the ticks of the loading instruction are not
counted (40_system_instructions.md R100, R126, log 14). -/
def loadDisicnt (s : State) (v : DisiCount) : State :=
  { s with
    disicnt := narrow s.dev.disicntBits v
    disiActive := narrow s.dev.disicntBits v != 0#14
    disiLoaded := true }

/-- The write of DISICNT (R126): while DISI is active the count is replaced, and 0 ends DISI; while it is not active the
write is dropped (D9, log 14). -/
def writeDisicnt (s : State) (v : DisiCount) : State := if s.disiActive then loadDisicnt s v else s

/-- `SFR_WRITE r, v` and `SFR_WRITE_BYTE r, h, v` (R121), with `sel` the bit positions written, and the rules of each
register (R123 to R129). -/
def sfrWrite (s : State) (r : Sfr) (v sel : Word) : Except Refusal (State × Events) :=
  match r with
  | .w i =>
    let s1 := putW s i (mergeWrite s.w[i] v sel 0xFFFF#16 0#16)
    .ok (s1, putWEvents s1 i)
  | .splim =>
    .ok ({ s with splim := mergeWrite s.splim v sel 0xFFFF#16 0#16,
                  splimWritten := s.splimWritten || sel == 0xFFFF#16 }, quiet)
  | .sr =>
    .ok ({ s with sr := mergeWrite s.sr v sel (if nstdis s then 0x000F#16 else 0x00EF#16) 0x3400#16 }, quiet)
  | .corcon => .ok ({ s with corcon := mergeWrite s.corcon v sel 0x18F7#16 0x0008#16 }, quiet)
  | .disicnt =>
    .ok (writeDisicnt s ((mergeWrite (s.disicnt.setWidth 16) v sel 0x3FFF#16 0#16).setWidth 14), quiet)
  | .intcon1 =>
    let new := mergeWrite s.intcon1 v sel 0xFFDE#16 0#16
    if new &&& ~~~s.intcon1 &&& trapFlagMask = 0#16 then .ok ({ s with intcon1 := new }, quiet)
    else .error .softwareSetTrapFlag
  | .intcon2 => .ok ({ s with intcon2 := mergeWrite s.intcon2 v sel 0x8007#16 0#16 }, quiet)
  | .inttreg => .ok (s, quiet)
  | .rcon => .ok ({ s with traprSet := s.traprSet && !sel.getLsbD 15 }, quiet)
  | .osccon => .ok ({ s with cfSet := s.cfSet && !sel.getLsbD 3 }, quiet)
  | .ifs x => .ok ({ s with ifs := s.ifs.set x (mergeWrite s.ifs[x] v sel (flagMask s.dev x.val) 0#16) }, quiet)
  | .iec x => .ok ({ s with iec := s.iec.set x (mergeWrite s.iec[x] v sel (flagMask s.dev x.val) 0#16) }, quiet)
  | .ipc x =>
    let new := mergeWrite s.ipc[x] v sel (priorityMask s.dev x.val) 0#16
    if changesLivePriority s x.val new then .error .priorityChangedWhileLive
    else .ok ({ s with ipc := s.ipc.set x new }, quiet)

/-- The bit positions of a half of a register (R121). -/
def halfMask : Half → Word
  | .lo => 0x00FF#16
  | .hi => 0xFF00#16

/-- A byte in the position of a half (R121). -/
def halfValue (h : Half) (v : Byte) : Word :=
  match h with
  | .lo => wordOfBytes v 0#8
  | .hi => wordOfBytes 0#8 v

/-- `SFR_WRITE_BYTE r, h, v` (R121). -/
def sfrWriteByte (s : State) (r : Sfr) (h : Half) (v : Byte) : Except Refusal (State × Events) :=
  sfrWrite s r (halfValue h v) (halfMask h)

/-- The half of a register that a byte address selects (R75). -/
def halfOf (a : DataAddr) : Half := if a.getLsbD 0 then .hi else .lo

/-- A byte of data space: of the register there, of RAM, or a free byte where the spec does not say what is read
(R80, U12, log 11). -/
def readByte (s : State) (a : DataAddr) : Byte :=
  match sfrAt s.dev (evenPart a) with
  | some r => if a.getLsbD 0 then highByte (sfrRead s r) else lowByte (sfrRead s r)
  | none => if isRam s.dev a then ramRead s a else Config.busByte s.draws a.toNat

/-- A byte read raises the address error at an unimplemented address (R150 item 3). -/
def byteReadFaults (s : State) (a : DataAddr) : Bool := !dataImplemented s.dev a

/-- A word read raises the address error at an odd or unimplemented address (R150 items 1 and 3). -/
def wordReadFaults (s : State) (a : DataAddr) : Bool := a.getLsbD 0 || !dataImplemented s.dev a

/-- `MemRead(a, 2)`: the word at an even address; a misaligned read returns free bytes (U12). DESIGN CHOICE, log 25: no read
made here goes through the PSV window, whatever CORCON.PSV is, because the spec gives neither the window's place nor its
extent (20_memory.md R83); only MOV.D, BTSC and BTSS have a PSV form. -/
def readWord (s : State) (a : DataAddr) : Word :=
  if a.getLsbD 0 then wordOfBytes (Config.busByte s.draws a.toNat) (Config.busByte s.draws (a.toNat + 1))
  else
    match sfrAt s.dev a with
    | some r => sfrRead s r
    | none => wordOfBytes (readByte s a) (readByte s (a + 1#16))

/-- A byte write raises the address error where the device reports writes to unimplemented addresses (U14). -/
def byteWriteFaults (s : State) (a : DataAddr) : Bool :=
  !dataImplemented s.dev a && s.dev.unimplementedWriteTraps

/-- A word write raises the address error at an odd address (R150 item 1, D32), or as a byte write does (U14). -/
def wordWriteFaults (s : State) (a : DataAddr) : Bool := a.getLsbD 0 || byteWriteFaults s a

/-- `MemWrite(a, 1, v)`; a write that raises the address error is not performed (R151). -/
def writeByte (s : State) (a : DataAddr) (v : Byte) : Except Refusal (State × Events) :=
  if byteWriteFaults s a then .ok (s, addrEvent true)
  else
    match sfrAt s.dev (evenPart a) with
    | some r => sfrWriteByte s r (halfOf a) v
    | none => .ok (ramWrite s a v, quiet)

/-- `MemWrite(a, 2, v)`: the low byte at the even address (R75); a write that raises the address error is not performed
(R151). -/
def writeWord (s : State) (a : DataAddr) (v : Word) : Except Refusal (State × Events) :=
  if wordWriteFaults s a then .ok (s, addrEvent true)
  else
    match sfrAt s.dev a with
    | some r => sfrWrite s r v 0xFFFF#16
    | none => .ok (ramWrite (ramWrite s a (lowByte v)) (a + 1#16) (highByte v), quiet)

/-- The address of the byte that holds bit `b` of the word at `f` (R75, R92). -/
def bitByte (f : DataAddr) (b : BitVec 4) : DataAddr := if b.getLsbD 3 then f + 1#16 else f

/-- Give bit `bit` of the byte at an address the value `v` by reading and writing the byte (DESIGN CHOICE, log 28). -/
def modifyByteBit (s : State) (a : DataAddr) (bit : Nat) (v : Bool) : Except Refusal (State × Events) :=
  if byteReadFaults s a then .ok (s, addrEvent true)
  else writeByte s a (lowByte (setBit (wordOfBytes (readByte s a) 0#8) bit v))

/-- Give bit `b` of the word at the even address `f` the value `v`: on a register by R122's read and word write, elsewhere
by a read and write of the byte that holds the bit. -/
def modifyBit (s : State) (f : DataAddr) (b : BitVec 4) (v : Bool) : Except Refusal (State × Events) :=
  match sfrAt s.dev f with
  | some r => sfrWrite s r (setBit (sfrRead s r) b.toNat v) 0xFFFF#16
  | none => modifyByteBit s (bitByte f b) (b.extractLsb' 0 3).toNat v

end Sys2Proof.Machine
end

