-- ==== Sys2Proof/Machine/Flags.lean ====
section
/-! DEFINITION. The status bits that instructions write: flags outside the spec (N18), RA, and the accumulator status with
its overflow events (60_exceptions.md R152 to R156, 41_named_instructions.md R114 to R116). -/

namespace Sys2Proof.Machine

/-- The flags of 40_system_instructions.md whose values after SFTAC, the divide and the accumulator instructions are not in
the spec: SA, SB, OAB, SAB, DC, N, OV, Z, C. OA and OB follow R116. -/
def openFlags : Word := 0x3D0F#16

/-- The SR bits an instruction of the surrounding instruction set may write as results: all but OA, OB and IPL<2:0>
(R110, R116). -/
def surroundingFlags : Word := 0x3F1F#16

/-- SR with the bits of `mask` taken from `v`. -/
def withFlags (s : State) (v mask : Word) : State := { s with sr := (s.sr &&& ~~~mask) ||| (v &&& mask) }

/-- Every open flag takes a free value (R114 "Flags: not in S41"). -/
def freeFlags (s : State) : State := withFlags s (Config.flags s.draws) openFlags

/-- SR.RA, "REPEAT loop active" (R115). -/
def repeatActive (s : State) : Bool := s.sr.getLsbD 4

/-- SR.RA takes a value. -/
def setRepeatActive (s : State) (v : Bool) : State := { s with sr := setBit s.sr 4 v }

/-- The SR bit OA or OB (10_state.md R14). -/
def overflowStatusBit : Acc → Nat
  | .a => 15
  | .b => 14

/-- OVATE or OVBTE in INTCON1 (10_state.md R19). -/
def overflowEnableBit : Acc → Nat
  | .a => 10
  | .b => 9

/-- MATHERR with OVAERR or OVBERR (R153). -/
def overflowErrorBits : Acc → Word
  | .a => 0x4010#16
  | .b => 0x2010#16

/-- MATHERR with COVAERR or COVBERR (R153). -/
def catastrophicErrorBits : Acc → Word
  | .a => 0x1010#16
  | .b => 0x0810#16

/-- MATHERR with DIV0ERR (R155). -/
def divideErrorBits : Word := 0x0050#16

/-- MATHERR with SFTACERR (R156). -/
def shiftErrorBits : Word := 0x0090#16

/-- `satAny(acc)`: some saturation, 31-bit or 39-bit, is enabled for the accumulator (R154). -/
def satAny (acc : Acc) (corcon : Word) : Bool := Config.sat31 acc corcon || Config.sat39 acc corcon

/-- The math error bits of an operation on an accumulator that carried out of bit 31 or of bit 39 (R116, R153, R154). -/
def accumulatorErrors (s : State) (acc : Acc) (c31 c39 : Bool) : Word :=
  (if c31 && s.intcon1.getLsbD (overflowEnableBit acc) && !Config.sat31 acc s.corcon
   then overflowErrorBits acc else 0#16) |||
  (if c39 && s.intcon1.getLsbD 8 && !satAny acc s.corcon then catastrophicErrorBits acc else 0#16)

/-- The value of an accumulator. -/
def accValue (s : State) : Acc → BitVec 40
  | .a => s.accA
  | .b => s.accB

/-- An instruction writes an accumulator: the value, and OA or OB, which follows the carry-out of bit 31 (R116, R154). -/
def putAcc (s : State) (acc : Acc) (v : BitVec 40) (c31 : Bool) : State :=
  match acc with
  | .a => { s with accA := v, sr := setBit s.sr (overflowStatusBit .a) c31 }
  | .b => { s with accB := v, sr := setBit s.sr (overflowStatusBit .b) c31 }

end Sys2Proof.Machine
end

