-- ==== Sys2Proof/Machine/Ops.lean ====
section
/-! DEFINITION. The shared operations of the machine: the software stack (20_memory.md R78, R79), device reset
(70_reset_and_hazards.md R200), trap events (60_exceptions.md R146, R148 to R152), taking an exception (R140, R142) and
returning from one (40_system_instructions.md R102), and ticks (R101, R107). -/

namespace Sys2Proof.Machine

/-- `pc + 2`, modulo 2^PC_BITS. -/
def nextPc (s : State) : ProgAddr := pcOf s.dev (s.pc + 2#23)

/-- The state after an instruction of one program word: `pc <- pc + 2`. -/
def advance (s : State) : State := { s with pc := nextPc s }

/-- `pc <- a`, as pc holds it (D19). -/
def setPc (s : State) (a : ProgAddr) : State := { s with pc := pcOf s.dev a }

/-- The checks of R79 after a push or pop whose effective address was `ea`, in the state after it: overflow against SPLIM,
an address computation that wrapped, underflow below STACK_BASE. -/
def stackChecks (s : State) (ea : DataAddr) (wrapped : Bool) : Events :=
  stackEvent (aboveLimit s ea || wrapped || stackLow s)

/-- `W[15] <- W[15] + 2` after a push at `ea`, with R79's checks. -/
def pushDone (s : State) (ea : DataAddr) (e : Events) : State × Events :=
  let s1 := putW s 15 (sp s + 2#16)
  (s1, joinEvents e (stackChecks s1 ea (lastWord s.dev ≤ eaOf s.dev ea)))

/-- `push16(v)` (R78); where the same instruction has already raised an address error the word is not written (R151). -/
def push16 (s : State) (v : Word) (inhibit : Bool) : Except Refusal (State × Events) :=
  if inhibit then .ok (pushDone s (sp s) quiet)
  else
    match writeWord s (sp s) v with
    | .error r => .error r
    | .ok (s1, e) => .ok (pushDone s1 (sp s) e)

/-- The state after the pop of one word: `W[15] <- W[15] - 2` (R78). -/
def popState (s : State) : State := putW s 15 (sp s - 2#16)

/-- The word a pop reads (R78). -/
def popValue (s : State) : Word := readWord (popState s) (sp (popState s))

/-- The events of a pop: R79's checks, and the address error of the read (R150). -/
def popEvents (s : State) : Events :=
  joinEvents (addrEvent (wordReadFaults s (sp (popState s))))
    (stackChecks (popState s) (sp (popState s)) (eaOf s.dev (sp s) < 2#16))

/-- `reset(cause)` (R200): every register takes its reset value; what the spec leaves unspecified takes a free value, the
temporary buffer too (DESIGN CHOICE, log 33); the program, the device parameters and the environment's agenda are not the
device's to reset. -/
def deviceReset (cause : ResetCause) (s : State) : State :=
  { State.reset with
    pc := resetPc s.dev
    w := Vector.ofFn (fun i : Fin 16 => if i = 15 then resetSp s.dev else Config.resetWord s.draws i.val)
    splim := Config.resetWord s.draws 16
    ipc := Vector.ofFn (fun x : Fin 30 => priorityReset s.dev x.val)
    traprSet := decide (cause = .trapConflict)
    accA := Config.resetAcc s.draws .a
    accB := Config.resetAcc s.draws .b
    pins := Vector.ofFn (fun x : Fin 3 => Config.resetPin s.draws x.val)
    bufPc := Config.resetBufPc s.draws
    bufSrl := Config.resetBufSrl s.draws
    prog := s.prog
    ramEpoch := s.ramEpoch + 1
    draws := s.draws
    agenda := s.agenda
    dev := s.dev }

/-- Some trap of a level above `t`'s is pending (R146). -/
def higherTrapPending (s : State) (t : Trap) : Bool :=
  trapsByLevel.any (fun u => decide (trapLevel s.dev t < trapLevel s.dev u) && trapPending s u)

/-- A hard trap event (R146): a conflict resets the device, an event at the CPU's own level stops the model (D15),
else the status flag is set. -/
def raiseHard (t : Trap) (s : State) : Res :=
  if higherTrapPending s t || decide (trapLevel s.dev t < cpuIPL s) then .next (deviceReset .trapConflict s)
  else if cpuIPL s = trapLevel s.dev t then .fault (.hardTrapInOwnHandler t)
  else .next { s with intcon1 := setBit s.intcon1 (trapFlagBit t) true }

/-- The soft trap events of an instruction set their flags (R148, R152). -/
def raiseSoft (e : Events) (s : State) : State :=
  { s with intcon1 := s.intcon1 ||| e.math ||| (if e.stack then 0x0004#16 else 0#16) }

/-- The latest address error event is of cause 4 or 5, or of another cause (R150, D24; log 18). -/
def markFetch (bad : Bool) (s : State) : State := { s with badFetch := bad }

/-- The events an instruction raised are applied after its effect (R110, R160). -/
def finish (e : Events) (s : State) : Res :=
  if e.addr then raiseHard .addressError (markFetch e.fetch (raiseSoft e s)) else .next (raiseSoft e s)

/-- The end of an operation that may have been refused. -/
def finishAccess (r : Except Refusal (State × Events)) (after : State → State) (e : Events) : Res :=
  match r with
  | .error x => .refused x
  | .ok (s, f) => finish (joinEvents e f) (after s)

/-- Transfer of control to a literal address (R106, R111): an unimplemented target raises the address error with pc at the
target (R150 item 4). -/
def jump (a : ProgAddr) (s : State) : Res :=
  finish (jumpEvent (!progImplemented s.dev (pcOf s.dev a))) (setPc s a)

/-- How many program words an operation of R91's alphabet occupies: one, and for `OTHER(i)` what its parameter says. -/
def absLength : AbsOp → Nat
  | .sfrRead _ => 1
  | .sfrWrite _ _ => 1
  | .sfrWriteByte _ _ _ => 1
  | .sfrBset _ _ => 1
  | .sfrBclr _ _ => 1
  | .field _ _ _ _ => 1
  | .pushSr => 1
  | .popSr => 1
  | .other k => 1 + Config.otherExtraWords k

/-- The state after an operation of `n` program words. -/
def advanceBy (n : Nat) (s : State) : State := { s with pc := pcOf s.dev (s.pc + BitVec.ofNat 23 (2 * n)) }

/-! The REPEAT loops of the divide (41_named_instructions.md R115): which loops are in progress is the model's book-keeping
of "the first iteration of the REPEAT loop", DESIGN CHOICE, log 24. -/

/-- The loop in progress at a divide's address: the latest one at the present W15, or the latest at any W15 where software
has changed W15 since. -/
def findLoop (ls : List LoopMark) (w : Word) (p : ProgAddr) : Option LoopMark :=
  (ls.find? (fun m => m.pc == p && m.stack == w)).or (ls.find? (fun m => m.pc == p))

/-- The loops without that one. -/
def endLoop (ls : List LoopMark) (w : Word) (p : ProgAddr) : List LoopMark :=
  match findLoop ls w p with
  | some m => ls.erase m
  | none => ls

/-- A divide stands at a program address. -/
def divideAt (s : State) (a : ProgAddr) : Bool :=
  match progAt s a with
  | some (.instr (.repeatDivide _ _ _ _)) => true
  | _ => false

/-- An instruction of the surrounding instruction set right before a divide is its REPEAT and begins a loop; `s` is the state
with pc past its words. -/
def beginLoop (s : State) : State :=
  if divideAt s s.pc then { s with divideLoops := ⟨sp s, s.pc, false⟩ :: s.divideLoops } else s

/-- An exception: interrupt `n`, or a trap (R133). -/
inductive Exception where
  | irq (n : Nat)
  | trap (t : Trap)
deriving DecidableEq, Repr

/-- The level latched into ILR: the assigned priority or the trap's level (R140, R142, R170). -/
def exceptionLevel (s : State) : Exception → Nat
  | .irq n => irqPriority s n
  | .trap t => trapLevel s.dev t

/-- The vector number (R131, R134). -/
def exceptionVector (s : State) : Exception → Nat
  | .irq n => n + 8
  | .trap t => trapVector s.dev t

/-- VECNUM: vector number - 8 for an interrupt, free for a trap (R170). -/
def exceptionVecnum (s : State) : Exception → BitVec 7
  | .irq n => BitVec.ofNat 7 n
  | .trap _ => Config.trapVecnum s.draws

/-- IPL<2:0> in the handler (R140, R142, R143): the assigned priority at the start of the entry, 7 with NSTDIS set after
the pushes, or the trap's level less 8. -/
def exceptionIpl (s s2 : State) : Exception → BitVec 3
  | .irq n => if nstdis s2 then 7#3 else BitVec.ofNat 3 (irqPriority s n)
  | .trap t => BitVec.ofNat 3 (trapLevel s.dev t - 8)

/-- IPL3 in the handler: set by a trap, unchanged by an interrupt (R177). -/
def exceptionIpl3 (s : State) : Exception → Bool
  | .irq _ => ipl3 s
  | .trap _ => true

/-- The return address: the next instruction not yet executed (R140, R142); for an address error of cause 4 or 5, pc or
pc + 2 (R150, D24, log 18). -/
def returnAddress (s : State) : Exception → ProgAddr
  | .trap .addressError => if s.badFetch && Config.badFetchPastPc s.draws then nextPc s else s.pc
  | _ => s.pc

/-- The entry of the address error trap uses up the mark of its cause (log 18). -/
def badFetchAfter (s : State) : Exception → Bool
  | .trap .addressError => false
  | _ => s.badFetch

/-- The low byte of SR (R14). -/
def srl (s : State) : BitVec 8 := s.sr.extractLsb' 0 8

/-- The first stacked word, by FRAME_LAYOUT from the state in which it is pushed (R140). -/
def frameFirst (s : State) (ret : ProgAddr) : Word := frameWord s.dev.frame.first ret (srl s) (ipl3 s)

/-- The second stacked word, by FRAME_LAYOUT from the state in which it is pushed (R140). -/
def frameSecond (s : State) (ret : ProgAddr) : Word := frameWord s.dev.frame.second ret (srl s) (ipl3 s)

/-- SR with IPL<2:0> replaced. -/
def withIpl (sr : Word) (k : BitVec 3) : Word := sr.extractLsb' 8 8 ++ k ++ sr.extractLsb' 0 5

/-- SR with its low byte replaced (R102). -/
def withSrl (sr : Word) (b : BitVec 8) : Word := sr.extractLsb' 8 8 ++ b

/-- `vector_address(v)`; ALTIVT is read now (20_memory.md R73). -/
def vectorAddress (s : State) (v : Nat) : ProgAddr :=
  pcOf s.dev (BitVec.ofNat 23 ((if altivt s then s.dev.aivtBase else s.dev.ivtBase) + 2 * v))

/-- A vector word is the address of a handler: bit 23 and bit 0 are clear (D13), and the address has no more than PC_BITS
bits. -/
def usableVector (d : Device) (w : ProgWord) : Bool :=
  !w.getLsbD 23 && pcOf d (w.extractLsb' 0 23) == w.extractLsb' 0 23

/-- The handler's address, read from the vector (R72): a vector that is no such address, or that is no program word, is
refused (D13). Whether the table location lies in IMPLEMENTED_PROG is not tested: DESIGN CHOICE, log 7. -/
def vectorTarget (s : State) (v : Nat) : Except (Fault ⊕ Refusal) ProgAddr :=
  match progAt s (vectorAddress s v) with
  | none => .error (.inl (.vectorAbsent (vectorAddress s v)))
  | some (.word w) =>
    if usableVector s.dev w then .ok (w.extractLsb' 0 23) else .error (.inr .badVector)
  | some _ => .error (.inr .badVector)

/-- The state in which the handler begins, given the state `s2` after the two pushes (R140, R142). The entry is no
instruction that writes DISICNT, so its ticks are counted whatever its pushes wrote (R126, R101, R107,
70_reset_and_hazards.md R210). -/
def handlerState (s s2 : State) (x : Exception) (target : ProgAddr) : State :=
  { s2 with
    pc := target
    sr := withIpl s2.sr (exceptionIpl s s2 x)
    corcon := setBit s2.corcon 3 (exceptionIpl3 s2 x)
    inttreg := 0#4 ++ BitVec.ofNat 4 (exceptionLevel s x) ++ 0#1 ++ exceptionVecnum s x
    inttregFresh := true
    power := .run
    disiLoaded := false
    badFetch := badFetchAfter s2 x
    bufPc := returnAddress s x
    bufSrl := srl s }

/-- The two pushes of an exception entry (R140): each word holds SRL and IPL3 as they are when it is pushed. DESIGN
CHOICE, log 39, because no rule says what a push does that lands on a register or outside implemented data space: a
push that lands on a register (SR, CORCON or another) is a software write of that word, with the register's write
masks, the NSTDIS lock of IPL<2:0> and the gate of DISICNT, and is refused on INTCON1 and IPCx where an instruction's
write would be; a push to unimplemented data space is dropped, and reported where `unimplementedWriteTraps` says so
(U14), each push by itself: the other word stays written. -/
def pushFrame (s : State) (ret : ProgAddr) : Except Refusal (State × Events) :=
  match push16 s (frameFirst s ret) false with
  | .error r => .error r
  | .ok (s1, e1) =>
    match push16 s1 (frameSecond s1 ret) false with
    | .error r => .error r
    | .ok (s2, e2) => .ok (s2, joinEvents e1 e2)

/-- TAKING AN EXCEPTION: `enter_interrupt(n)` (R140) and `enter_trap(t)` (R142). The pushes are subject to the stack
checks, whose events are applied at the end of the entry (R148, R159). DESIGN CHOICE, log 39: an address error of a
push (U14) is judged by R146 after the entry, against the CPU priority level of the handler, so that the entry of an
address error trap whose push is reported stops the model (D15). -/
def enterException (x : Exception) (s : State) : Res :=
  match pushFrame s (returnAddress s x) with
  | .error r => .refused r
  | .ok (s2, e) =>
    match vectorTarget s2 (exceptionVector s x) with
    | .error (.inl f) => .fault f
    | .error (.inr r) => .refused r
    | .ok target => finish e (handlerState s s2 x target)

/-- The pc that RETURN takes from its two words: `hi[6:0] ## lo[15:1] ## 0` (R112). -/
def framePc (hi lo : Word) : ProgAddr := hi.extractLsb' 0 7 ++ lo.extractLsb' 1 15 ++ 0#1

/-- RETURNING FROM AN EXCEPTION (R102, R144): pops the frame and restores pc, SRL and IPL3, by FRAME_LAYOUT; it clears no
flag. INTTREG becomes one of the windows of D10. -/
def returnFromException (s : State) : Res :=
  let hi := popValue s
  let s1 := popState s
  let lo := popValue s1
  let s2 := popState s1
  finish (joinEvents (popEvents s) (popEvents s1))
    { s2 with
      pc := pcOf s.dev (framePcOf s.dev.frame lo hi)
      sr := withSrl s2.sr (frameSrlOf s.dev.frame lo hi)
      corcon := setBit s2.corcon 3 (frameIpl3Of s.dev.frame lo hi)
      inttregFresh := false }

/-- The counter after `n` ticks, by R101's rule for one tick. -/
def countdown : Nat → DisiCount → Bool → DisiCount × Bool
  | 0, c, active => (c, active)
  | n + 1, c, active => if active then countdown n (c - 1#14) (c - 1#14 != 0#14) else (c, active)

/-- One tick (R101). -/
def tick (s : State) : State :=
  if s.disiActive then { s with disicnt := s.disicnt - 1#14, disiActive := s.disicnt - 1#14 != 0#14 } else s

/-- `n` ticks at the end of an operation (R107); the ticks of the operation that loaded DISICNT do not count (R100,
R126). -/
def elapse (n : Nat) (s : State) : State :=
  if s.disiLoaded then { s with disiLoaded := false }
  else if s.disiActive then
    { s with disicnt := (countdown n s.disicnt true).1, disiActive := (countdown n s.disicnt true).2 }
  else s

end Sys2Proof.Machine
end

