-- ==== Sys2Proof/Machine/SfrAccess.lean ====
section
/-! DEFINITION. The instructions through which software reaches the registers (42_sfr_access.md) and the rest of the data
space: MOV, BSET, BCLR, and PUSH and POP of 41_named_instructions.md R113. -/

namespace Sys2Proof.Machine

/-- MOV #lit16,Wnd (R110; W15 by R125). That no flag is written is DESIGN CHOICE, log 41 (N18). -/
def execMovLit (k : Word) (d : WReg) (s : State) : Res :=
  let s1 := putW s d k
  finish (putWEvents s1 d) (advance s1)

/-- MOV Wns,f (R121): SFR_WRITE where `f` is a register's address, else a word store, which writes no flag: DESIGN CHOICE,
log 41 (N18). -/
def execMovToF (r : WReg) (f : DataAddr) (s : State) : Res :=
  finishAccess (writeWord s f s.w[r]) advance quiet

/-- MOV f,Wnd (R120): SFR_READ where `f` is a register's address, else a word load, which writes no flag: DESIGN CHOICE,
log 41 (N18). -/
def execMovFromF (f : DataAddr) (d : WReg) (s : State) : Res :=
  let s1 := putW s d (readWord s f)
  finish (joinEvents (addrEvent (wordReadFaults s f)) (putWEvents s1 d)) (advance s1)

/-- BSET f,#bit4 (R122). Its effect at RAM, with no flag written, is DESIGN CHOICE, log 28. -/
def execBsetF (f : DataAddr) (b : BitVec 4) (s : State) : Res := finishAccess (modifyBit s f b true) advance quiet

/-- BCLR f,#bit4 (R122). Its effect at RAM, with no flag written, is DESIGN CHOICE, log 28. -/
def execBclrF (f : DataAddr) (b : BitVec 4) (s : State) : Res := finishAccess (modifyBit s f b false) advance quiet

/-- PUSH f (R113): the word at `f` goes on the stack; an address error of the read inhibits the write (R151). That no flag is
written, where `f` is RAM, is DESIGN CHOICE, log 41 (N18). -/
def execPushF (f : DataAddr) (s : State) : Res :=
  finishAccess (push16 s (readWord s f) (wordReadFaults s f)) advance (addrEvent (wordReadFaults s f))

/-- POP f (R113): the popped word is written at `f` by the rules of R121 to R129; an address error of the pop inhibits the
write (R151). That no flag is written, where `f` is RAM, is DESIGN CHOICE, log 41 (N18). -/
def execPopF (f : DataAddr) (s : State) : Res :=
  if (popEvents s).addr then finish (popEvents s) (advance (popState s))
  else finishAccess (writeWord (popState s) f (popValue s)) advance (popEvents s)

end Sys2Proof.Machine
end

