-- ==== Sys2Proof/Machine/Alphabet.lean ====
section
/-! DEFINITION. The operations of 30_encoding.md R91 that are no rows of the opcode table: register access by name
(42_sfr_access.md R120 to R122), PUSH_SR and POP_SR (R113), and OTHER(i) (41_named_instructions.md R110). -/

namespace Sys2Proof.Machine

/-- The mask of the field `<hi:lo>` (00_scope.md R7). -/
def fieldMask (hi lo : BitVec 4) : Word := maskOf (fun b => lo.toNat ≤ b && b ≤ hi.toNat)

/-- The value a field assignment writes: `(old & ~fieldmask) | (x << lo)` (R122). -/
def fieldValue (old : Word) (hi lo : BitVec 4) (x : Word) : Word := (old &&& ~~~fieldMask hi lo) ||| (x <<< lo.toNat)

/-- An action's access raises the address error (R110 item 3). -/
def actionFaults (s : State) : Action → Bool
  | .setW _ _ => false
  | .setFlags _ => false
  | .readWord a _ => wordReadFaults s a
  | .readByte a _ => byteReadFaults s a
  | .writeWord a _ _ => wordWriteFaults s a
  | .writeByte a _ _ => byteWriteFaults s a
  | .bitIndirect a b _ _ => a.getLsbD 0 || byteReadFaults s (bitByte a b)
  | .writeAcc _ _ _ _ => false
  | .divideByZero => false
  | .badShift => false
  | .jump a => !progImplemented s.dev (pcOf s.dev a)

/-- The checks of R79 on an access whose address was formed from W15 (R110 item 2): overflow, and a computation that
wrapped. -/
def throughStack (s : State) (a : DataAddr) : EaBase → Events
  | .other => quiet
  | .stack wrapped => stackEvent (aboveLimit s a || wrapped)

/-- The events of an access, joined to those of its write. -/
def withEvents (e : Events) (r : Except Refusal (State × Events)) : Except Refusal (State × Events) :=
  match r with
  | .error x => .error x
  | .ok (s, f) => .ok (s, joinEvents e f)

/-- One action of an instruction (R110): every access goes through the shared operations; `inhibit` says that the
instruction raises an address error, which inhibits its data-space writes (R151). -/
def runAction (inhibit : Bool) (s : State) : Action → Except Refusal (State × Events)
  | .setW i v => .ok (putW s i v, putWEvents (putW s i v) i)
  | .setFlags v => .ok (withFlags s v surroundingFlags, quiet)
  | .readWord a base => .ok (s, throughStack s a base)
  | .readByte a base => .ok (s, throughStack s a base)
  | .writeWord a v base => withEvents (throughStack s a base) (if inhibit then .ok (s, quiet) else writeWord s a v)
  | .writeByte a v base => withEvents (throughStack s a base) (if inhibit then .ok (s, quiet) else writeByte s a v)
  | .bitIndirect a b v base =>
    withEvents (throughStack s a base) (if inhibit then .ok (s, quiet) else modifyBit s a b v)
  | .writeAcc acc v c31 c39 => .ok (putAcc s acc v c31, mathEvent (accumulatorErrors s acc c31 c39))
  | .divideByZero => .ok (s, mathEvent divideErrorBits)
  | .badShift => .ok (s, mathEvent shiftErrorBits)
  | .jump a => .ok (setPc s a, quiet)

/-- An action is a transfer of control to an unimplemented address (R150 cause 4). -/
def jumpFaults (s : State) : Action → Bool
  | .jump a => !progImplemented s.dev (pcOf s.dev a)
  | _ => false

/-- The actions of an instruction, in order. -/
def runActions (inhibit : Bool) : List Action → State → Events → Except Refusal (State × Events)
  | [], s, e => .ok (s, e)
  | a :: as, s, e =>
    match runAction inhibit s a with
    | .error r => .error r
    | .ok (s1, f) => runActions inhibit as s1 (joinEvents e f)

/-- `OTHER(i)` (R110): the surrounding instruction's actions are a free list at every execution; its length comes with the
parameter (R91). Right before a divide it is the divide's REPEAT (log 24). -/
def execOther (k : Nat) (s : State) : Res :=
  let acts := Config.otherActions k s.draws
  let faults := acts.any (actionFaults s)
  finishAccess (runActions faults acts (beginLoop (advanceBy (absLength (.other k)) s)) quiet) id
    (joinEvents (addrEvent faults) (jumpEvent (acts.any (jumpFaults s))))

/-- The operations of R91's alphabet that are no rows of the opcode table. SFR_READ, whose value R120 sends nowhere,
discards it: DESIGN CHOICE, log 40. -/
def execAbs (o : AbsOp) (s : State) : Res :=
  match o with
  | .sfrRead _ => .next (advance s)
  | .sfrWrite r v => finishAccess (sfrWrite s r v 0xFFFF#16) advance quiet
  | .sfrWriteByte r h v => finishAccess (sfrWriteByte s r h v) advance quiet
  | .sfrBset r b => finishAccess (sfrWrite s r (setBit (sfrRead s r) b.toNat true) 0xFFFF#16) advance quiet
  | .sfrBclr r b => finishAccess (sfrWrite s r (setBit (sfrRead s r) b.toNat false) 0xFFFF#16) advance quiet
  | .field r hi lo x => finishAccess (sfrWrite s r (fieldValue (sfrRead s r) hi lo x) 0xFFFF#16) advance quiet
  | .pushSr => finishAccess (push16 s (sfrRead s .sr) false) advance quiet
  | .popSr =>
    if (popEvents s).addr then finish (popEvents s) (advance (popState s))
    else finishAccess (sfrWrite (popState s) .sr (popValue s) 0xFFFF#16) advance (popEvents s)
  | .other k => execOther k s

end Sys2Proof.Machine
end

