-- ==== Sys2Proof/Machine/Named.lean ====
section
/-! DEFINITION. The other instructions the spec names (41_named_instructions.md): BRA, RETURN, SFTAC, the divide under
REPEAT, the MAC class, MOV.D, BTSC, BTSS and indirect bit manipulation. Their results and flags that the spec does not
give are free values (log 23). -/

namespace Sys2Proof.Machine

/-- BRA (R111): target `pc + 2 + 2*n` (30_encoding.md R92). -/
def execBra (n : BitVec 16) (s : State) : Res := jump (s.pc + 2#23 + branchOffset n) s

/-- RETURN (R112): pops a return address; SR and IPL3 are not restored. -/
def execRet (s : State) : Res :=
  let s1 := popState s
  let s2 := popState s1
  finish (joinEvents (popEvents s) (popEvents s1)) { s2 with pc := pcOf s.dev (framePc (popValue s) (popValue s1)) }

/-- The signed shift count of SFTAC (R114). -/
def shiftCount (s : State) : ShiftCount → Int
  | .literal k => k
  | .register i => (s.w[i]).toInt

/-- The count exceeds ±16 (R114, R156). -/
def badShiftCount (k : Int) : Bool := 16 < k || k < -16

/-- An accumulator-writing instruction whose result is outside the spec (R116): the value and the carries are free, OA
or OB follows, and the overflow events are raised. -/
def writeAccumulator (acc : Acc) (e : Events) (s : State) : Res :=
  let t := s.draws
  finish (joinEvents e (mathEvent (accumulatorErrors s acc (Config.carry31 t) (Config.carry39 t))))
    (advance (putAcc (freeFlags s) acc (Config.resultAcc t) (Config.carry31 t)))

/-- SFTAC (R114): a count beyond ±16 raises the math error and leaves the accumulator unchanged. -/
def execSftac (acc : Acc) (c : ShiftCount) (s : State) : Res :=
  if badShiftCount (shiftCount s c) then finish (mathEvent shiftErrorBits) (advance (freeFlags s))
  else writeAccumulator acc quiet s

/-- This execution of the divide is the first iteration of its REPEAT loop (R115): SR.RA says that no loop is active, or
the loop in progress here has not yet executed one (log 24). -/
def firstIteration (s : State) : Bool :=
  !repeatActive s || !(findLoop s.divideLoops (sp s) s.pc).any (fun m => m.started)

/-- One iteration of the divide under REPEAT (R115): the first checks the divisor W`n`; quotient, remainder and flags are
free; SR.RA says whether the loop goes on, and pc stays until the last iteration (log 24). -/
def execRepeatDivide (_m n q r : WReg) (s : State) : Res :=
  let t := s.draws
  let zero := firstIteration s && s.w[n] == 0#16
  let s1 := putW (putW s q (Config.resultWord t 0)) r (Config.resultWord t 1)
  let s2 := setRepeatActive (freeFlags s1) (!Config.lastIteration t)
  finish (joinEvents (joinEvents (putWEvents s1 q) (putWEvents s1 r)) (mathEvent (if zero then divideErrorBits else 0#16)))
    { s2 with
      pc := if Config.lastIteration t then nextPc s else s.pc
      divideLoops :=
        if Config.lastIteration t then endLoop s.divideLoops (sp s) s.pc
        else ⟨sp s1, s.pc, true⟩ :: endLoop s.divideLoops (sp s) s.pc }

/-- An X-space or Y-space operand fetch through W`p` (R116): the address error of any word read, and of a fetch from the
other space. -/
def fetchEvents (s : State) (p : WReg) (fromY : Bool) : Events :=
  let ea := s.w[p]
  joinEvents (baseEvents s p ea)
    (addrEvent (wordReadFaults s ea || inYSpace s.dev ea != fromY))

/-- The events of an optional fetch. -/
def optionalFetch (s : State) (p : Option WReg) (fromY : Bool) : Events :=
  match p with
  | some i => fetchEvents s i fromY
  | none => quiet

/-- The MAC class (R116). That it writes no W register (neither a fetched operand nor its pointers) and no data memory is
DESIGN CHOICE, log 23: R116 does not say (N18). -/
def execMacClass (acc : Acc) (x y : Option WReg) (s : State) : Res :=
  writeAccumulator acc (joinEvents (optionalFetch s x false) (optionalFetch s y true)) s

/-- The stack checks of a double-word access through W`p` (R79). -/
def doubleBaseEvents (s : State) (p : WReg) : Events :=
  joinEvents (baseEvents s p s.w[p])
    (joinEvents (baseEvents s p (s.w[p] + 2#16)) (stackEvent (p = 15 && lastWord s.dev ≤ eaOf s.dev s.w[p])))

/-- The register after W`d` (the second of a MOV.D pair). -/
def pairNext (d : WReg) : WReg := d + 1

/-- The address errors of a double-word read (R150, R110 item 3): an odd address; and one in unimplemented data space,
unless the access goes through the PSV window, which maps program memory (20_memory.md R83; log 25). -/
def doubleReadFaults (s : State) (ea : DataAddr) (psv : Bool) : Bool :=
  if psv then ea.getLsbD 0 else wordReadFaults s ea || wordReadFaults s (ea + 2#16)

/-- MOV.D that loads a register pair (R117): two word reads, of data space or through the PSV window. -/
def loadDouble (p d : WReg) (psv : Bool) (s : State) : Res :=
  let ea := s.w[p]
  let e := joinEvents (doubleBaseEvents s p) (addrEvent (doubleReadFaults s ea psv))
  let s1 := putW (putW s d (Config.resultWord s.draws 0)) (pairNext d) (Config.resultWord s.draws 1)
  finish (joinEvents e (joinEvents (putWEvents s1 d) (putWEvents s1 (pairNext d)))) (advance (freeFlags s1))

/-- Two word writes, the second after the first. -/
def writeDouble (s : State) (ea : DataAddr) (u v : Word) : Except Refusal (State × Events) :=
  match writeWord s ea u with
  | .error r => .error r
  | .ok (s1, e1) =>
    match writeWord s1 (ea + 2#16) v with
    | .error r => .error r
    | .ok (s2, e2) => .ok (s2, joinEvents e1 e2)

/-- MOV.D that stores a register pair (R117); an address error of either word inhibits both writes (R151). -/
def storeDouble (p : WReg) (s : State) : Res :=
  let ea := s.w[p]
  let t := s.draws
  let e := doubleBaseEvents s p
  if wordWriteFaults s ea || wordWriteFaults s (ea + 2#16) then
    finish (joinEvents e (addrEvent true)) (advance (freeFlags s))
  else finishAccess (writeDouble (freeFlags s) ea (Config.resultWord t 0) (Config.resultWord t 1)) advance e

/-- MOV.D (R117). -/
def execMovD (form : DoubleForm) (s : State) : Res :=
  match form with
  | .load p d psv => loadDouble p d psv s
  | .store _ p => storeDouble p s

/-- The events of reading the word of a bit test (R117, R119, R150); through the PSV window no data address is
unimplemented (R83; log 25). -/
def bitSourceEvents (s : State) : BitSource → Events
  | .file f => addrEvent (wordReadFaults s f)
  | .indirect p => joinEvents (baseEvents s p s.w[p]) (addrEvent (wordReadFaults s s.w[p]))
  | .psv p => joinEvents (baseEvents s p s.w[p]) (addrEvent ((s.w[p]).getLsbD 0))

/-- How many program words the operation at an address occupies (30_encoding.md R91, R92): two where a GOTO stands; what
the parameter says for `OTHER(i)` and for a word of no row; one where nothing is loaded (log 26). -/
def wordsAt (s : State) (a : ProgAddr) : Nat :=
  match progAt s a with
  | some (.word w) =>
    match decode w (some 0#24) with
    | .ok i => i.length
    | .error _ => 1 + Config.wordExtraWords w
  | some (.instr i) => i.length
  | some (.abs o) => absLength o
  | none => 1

/-- A bit test and skip (R117): whether it skips is free; a skip passes over the next operation (log 26). -/
def bitTestSkip (src : BitSource) (s : State) : Res :=
  let next := nextPc s
  let target := if Config.skips s.draws then pcOf s.dev (next + BitVec.ofNat 23 (2 * wordsAt s next)) else next
  finish (bitSourceEvents s src) { freeFlags s with pc := target }

/-- BTSC (R117). -/
def execBtsc (src : BitSource) (_b : BitVec 4) (s : State) : Res := bitTestSkip src s

/-- BTSS (R117). -/
def execBtss (src : BitSource) (_b : BitVec 4) (s : State) : Res := bitTestSkip src s

/-- The value a bit manipulation gives its bit (R119, R122). -/
def bitOpValue (s : State) : BitOp → Bool
  | .set => true
  | .clear => false
  | .other => Config.resultBit s.draws

/-- The flags after a bit manipulation: set and clear write none (DESIGN CHOICE, log 28), another operation's are free (R119). -/
def bitOpFlags (s : State) : BitOp → State
  | .set => s
  | .clear => s
  | .other => freeFlags s

/-- Bit manipulation with indirect addressing (R119): an odd effective address raises the address error and inhibits the
write; an even one modifies the bit as R122 does at a direct address (DESIGN CHOICE, log 28). That the pointer and every other W
register are unchanged (but for a W register whose own bit it modifies) is DESIGN CHOICE, log 23: R119 does not say (N18). -/
def execBitIndirect (op : BitOp) (p : WReg) (b : BitVec 4) (s : State) : Res :=
  let ea := s.w[p]
  let e := baseEvents s p ea
  if ea.getLsbD 0 then finish (joinEvents e (addrEvent true)) (advance (bitOpFlags s op))
  else finishAccess (modifyBit (bitOpFlags s op) ea b (bitOpValue s op)) advance e

end Sys2Proof.Machine
end

