-- ==== Sys2Proof/Machine/System.lean ====
section
/-! DEFINITION. The system instructions of 40_system_instructions.md: NOP, RETFIE, DISI, PWRSAV, RESET, GOTO. -/

namespace Sys2Proof.Machine

/-- NOP (R105). -/
def execNop (s : State) : Res := .next (advance s)

/-- RETFIE (R102). -/
def execRetfie (s : State) : Res := returnFromException s

/-- DISI k (R100): the count, the latch, and its own ticks not counted. -/
def execDisi (k : DisiCount) (s : State) : Res :=
  .next (advance (loadDisicnt s k))

/-- PWRSAV m (R103): execution continues at the next instruction after a wake-up (R165). -/
def execPwrsav (m : SleepMode) (s : State) : Res := .next (advance { s with power := .asleep m })

/-- RESET (R104): `reset(Software)`. -/
def execReset (s : State) : Res := .next (deviceReset .software s)

/-- GOTO a (R106). -/
def execGoto (a : ProgAddr) (s : State) : Res := jump a s

end Sys2Proof.Machine
end

