-- ==== Sys2Proof/Machine/Dispatch.lean ====
section
/-! DEFINITION. One arm per instruction. -/

namespace Sys2Proof.Machine

def exec (i : Instr) (s : State) : Host.Outcome State Fault Refusal :=
  match i with
  | .nop => Sys2Proof.Machine.execNop s
  | .retfie => Sys2Proof.Machine.execRetfie s
  | .ret => Sys2Proof.Machine.execRet s
  | .disi k => Sys2Proof.Machine.execDisi k s
  | .pwrsav m => Sys2Proof.Machine.execPwrsav m s
  | .reset => Sys2Proof.Machine.execReset s
  | .goto a => Sys2Proof.Machine.execGoto a s
  | .bra n => Sys2Proof.Machine.execBra n s
  | .pushF f => Sys2Proof.Machine.execPushF f s
  | .popF f => Sys2Proof.Machine.execPopF f s
  | .movLit k d => Sys2Proof.Machine.execMovLit k d s
  | .movToF r f => Sys2Proof.Machine.execMovToF r f s
  | .movFromF f d => Sys2Proof.Machine.execMovFromF f d s
  | .bsetF f b => Sys2Proof.Machine.execBsetF f b s
  | .bclrF f b => Sys2Proof.Machine.execBclrF f b s
  | .sftac acc c => Sys2Proof.Machine.execSftac acc c s
  | .repeatDivide m n q r => Sys2Proof.Machine.execRepeatDivide m n q r s
  | .macClass acc x y => Sys2Proof.Machine.execMacClass acc x y s
  | .movD form => Sys2Proof.Machine.execMovD form s
  | .btsc src b => Sys2Proof.Machine.execBtsc src b s
  | .btss src b => Sys2Proof.Machine.execBtss src b s
  | .bitIndirect op p b => Sys2Proof.Machine.execBitIndirect op p b s

end Sys2Proof.Machine
end

