-- ==== Sys2Proof/Machine/Environment.lean ====
section
/-! DEFINITION. The environment's steps (60_exceptions.md R130, R132, R149, R168), the boundary check (R139) and the
wake-up (R165). -/

namespace Sys2Proof.Machine

/-- `IF[n] <- 1`; nothing where IRQ `n` has no source (R33, R132). -/
def raiseIrq (s : State) (n : Nat) : State :=
  if h : n / 16 < 8 then
    if implemented s.dev n then { s with ifs := s.ifs.set (n / 16) (setBit (s.ifs[n / 16]) (n % 16) true) } else s
  else s

/-- The IRQ number of an external interrupt pin: IFS0<0>, IFS1<4>, IFS1<13> (R168). -/
def pinIrq (x : Fin 3) : Nat :=
  match x with
  | 0 => 0
  | 1 => 20
  | 2 => 29

/-- A peripheral sets its flag; INT0, INT1 and INT2 are pins, not peripherals (R130, R132). -/
def peripheralEvent (n : Nat) (s : State) : State := if n = 0 || n = 20 || n = 29 then s else raiseIrq s n

/-- A change of pin level, with the edge that INTCON2.INTxEP selects (R168). -/
def pinEvent (x : Fin 3) (level : Bool) (s : State) : State :=
  let old := s.pins[x]
  let s1 := { s with pins := s.pins.set x level }
  let negative := s.intcon2.getLsbD x.val
  if (!negative && !old && level) || (negative && old && !level) then raiseIrq s1 (pinIrq x) else s1

/-- An oscillator failure: a hard trap event that also makes OSCCON.CF read 1 (R54, R149); refused while the device sleeps
(D17). -/
def oscillatorEvent (s : State) : Res :=
  if s.power = .run then raiseHard .oscFail { s with cfSet := true } else .refused .oscFailWhileAsleep

/-- A step of the environment (R130). -/
def envStep (e : EnvEvent) (s : State) : Res :=
  match e with
  | .peripheral n => .next (peripheralEvent n s)
  | .pin x level => .next (pinEvent x level s)
  | .oscillatorFailure => oscillatorEvent s
  | .externalReset => .next (deviceReset .external s)

/-- A deferrable exception at a boundary: taken, or deferred while the skid is below its bound (R139, D8). -/
def deferOrTake (x : Exception) (limit : Nat) (s : State) : Option Exception × State :=
  if s.skid < limit && Config.defer s.draws then (none, { s with skid := s.skid + 1 })
  else (some x, { s with skid := 0 })

/-- The boundary check (R139): the presentable trap of the greatest level, else the presentable interrupt; hard traps are
never deferred. -/
def boundaryCheck (s : State) : Option Exception × State :=
  match topTrap s with
  | some t =>
    if hardTrap t then (some (.trap t), { s with skid := 0 }) else deferOrTake (.trap t) s.dev.skidMaxSoft s
  | none =>
    match presentableIrq s with
    | some n => deferOrTake (.irq n) s.dev.skidMaxIrq s
    | none => (none, { s with skid := 0 })

/-- A turn of the CPU while the device sleeps (R165): it wakes if the condition holds, else nothing happens (R55, log 31). -/
def asleepTurn (s : State) : State :=
  if wakes s then elapse (Config.sleepTicks s.draws) { s with power := .run } else s

end Sys2Proof.Machine
end

