-- ==== Sys2Proof/Machine/Cpu.lean ====
section
/-! DEFINITION. Fetching, and the turns of 60_exceptions.md R130. -/

namespace Sys2Proof.Machine

/-- What a fetch at the program counter finds (30_encoding.md R91 to R93). -/
inductive Fetched where
  | instr (i : Instr)
  | abs (o : AbsOp)
  | undecodable (e : DecodeError)
  | illFormed
  | absent
deriving DecidableEq, Repr

/-- The operation at a program address: a word is decoded with the word after it; an abstract operation must admit its
operands. Whether a GOTO's second word lies in IMPLEMENTED_PROG is not tested: DESIGN CHOICE, log 32. -/
def fetchAt (s : State) (a : ProgAddr) : Fetched :=
  match progAt s a with
  | none => .absent
  | some (.word w) =>
    match decode w (progWordAt s (pcOf s.dev (a + 2#23))) with
    | .ok i => .instr i
    | .error e => .undecodable e
  | some (.instr i) => if i.wellFormed then .instr i else .illFormed
  | some (.abs o) => if o.wellFormed then .abs o else .illFormed

/-- The operation at the program counter. -/
def fetch (s : State) : Fetched := fetchAt s s.pc

/-- `cycles(i)` (40_system_instructions.md R107, D7): RETFIE takes three (70_reset_and_hazards.md R212); another
instruction at least one, and one more with a PSV access (R117, R211). -/
def cycles (t : Nat) (i : Instr) : Nat :=
  match i with
  | .retfie => 3
  | .movD (.load _ _ true) => 2 + Config.extraCycles t
  | .btsc (.psv _) _ => 2 + Config.extraCycles t
  | .btss (.psv _) _ => 2 + Config.extraCycles t
  | _ => 1 + Config.extraCycles t

/-- The ticks of an exception entry: four or five (D7, R210, R211). -/
def entryCycles (t : Nat) : Nat := if Config.fifthCycle t then 5 else 4

/-- Apply the ticks of an operation after its effect (R107). -/
def afterTicks (n : Nat) (r : Res) : Res :=
  match r with
  | .next s => .next (elapse n s)
  | .fault f => .fault f
  | .refused x => .refused x

/-- Execute the operation at the program counter; at an unimplemented program address no operation is executed and the
address error is raised (R150 item 5). -/
def runAt (s : State) : Res :=
  if progImplemented s.dev s.pc then
    match fetch s with
    | .instr i => afterTicks (cycles s.draws i) (exec i s)
    | .abs o => afterTicks (1 + Config.extraCycles s.draws) (execAbs o s)
    | .undecodable e => .refused (.undecodable e)
    | .illFormed => .refused .illFormedOperation
    | .absent => .fault (.programWordAbsent s.pc)
  else afterTicks (1 + Config.extraCycles s.draws) (raiseHard .addressError (markFetch true s))

/-- The CPU's turn while the device runs: the boundary check, then an entry or an operation (R130, R139). -/
def runningTurn (s : State) : Res :=
  match boundaryCheck s with
  | (some x, s1) => afterTicks (entryCycles s.draws) (enterException x s1)
  | (none, s1) => runAt s1

/-- The CPU's turn (R130). -/
def cpuTurn (s : State) : Res :=
  match s.power with
  | .run => runningTurn s
  | .asleep _ => .next (asleepTurn s)

/-- The free values of the next step are new ones (log 3). -/
def nextDraw (r : Res) : Res :=
  match r with
  | .next s => .next { s with draws := s.draws + 1 }
  | .fault f => .fault f
  | .refused x => .refused x

/-- One step of the system (R130): the turn at the head of the agenda, or the CPU's where the agenda is empty. -/
def systemStep (s : State) : Res :=
  match s.agenda with
  | .env e :: rest => nextDraw (envStep e { s with agenda := rest })
  | .cpu :: rest => nextDraw (cpuTurn { s with agenda := rest })
  | [] => nextDraw (cpuTurn s)

/-- Load a program word. -/
def loadWord (s : State) (a : ProgAddr) (w : ProgWord) : State :=
  { s with prog := assocPut s.prog a.toNat (.word w) }

end Sys2Proof.Machine
end

