-- ==== Sys2Proof/Machine/Step.lean ====
section
/-! DEFINITION. The machine's step, and the placing of one instruction where it is fetched. -/

namespace Sys2Proof.Machine

/-- One step of the machine (60_exceptions.md R130). -/
def step (s : State) : Host.Outcome State Fault Refusal := systemStep s

/-- The words of the instruction whose bits are `w` at the program counter and after it (log 36). -/
def State.withFetchWord (s : State) (nbits w : Nat) : State :=
  loadWord (loadWord s s.pc (tableWords nbits w).1) (nextPc s) (tableWords nbits w).2

end Sys2Proof.Machine
end

