-- ==== Sys2Proof/Safety.lean ====
section
/-! DEFINITION. What a well-formed state is, and what a step that does not stop is: the terms in which claims speak. -/

namespace Sys2Proof.Machine

/-- Every unimplemented bit of the registers is 0 (00_scope.md R7, 42_sfr_access.md R120, R121). -/
def reservedBitsClear (s : State) : Bool :=
  s.corcon &&& 0xE000#16 == 0#16 && s.intcon1 &&& 0x0021#16 == 0#16 && s.intcon2 &&& 0x7FF8#16 == 0#16 &&
  s.inttreg &&& 0xF080#16 == 0#16

/-- Every bit of IFSx, IECx and IPCx without a source is 0 (10_state.md R33, R174). -/
def sourceBitsClear (s : State) : Bool :=
  (List.finRange 8).all (fun x => s.ifs[x] &&& ~~~flagMask s.dev x.val == 0#16) &&
  (List.finRange 8).all (fun x => s.iec[x] &&& ~~~flagMask s.dev x.val == 0#16) &&
  (List.finRange 30).all (fun x => s.ipc[x] &&& ~~~priorityMask s.dev x.val == 0#16)

/-- `disi_active == (DISICNT != 0)` (R126, D9), and DISICNT has DISICNT_BITS bits (R6). -/
def disiConsistent (s : State) : Bool :=
  s.disiActive == (s.disicnt != 0#14) && s.disicnt.toNat < 2 ^ s.dev.disicntBits

/-- The program counter is even and has PC_BITS bits, and the stack pointer is even (D19, R6, R11). -/
def pointersEven (s : State) : Bool := pcOf s.dev s.pc == s.pc && (sp s).getLsbD 0 == false

/-- The skid count stays within the bounds of R139. -/
def skidBounded (s : State) : Bool := s.skid ≤ max s.dev.skidMaxIrq s.dev.skidMaxSoft

/-- What holds of every state, within an instruction too. -/
def wellFormedCore (s : State) : Bool :=
  memoryWf s.mem && pointersEven s && disiConsistent s && reservedBitsClear s && sourceBitsClear s && skidBounded s

/-- The well-formed states between steps: no instruction is under way that has loaded DISICNT (log 14). -/
def wellFormedState (s : State) : Bool := wellFormedCore s && !s.disiLoaded

/-- The word at an address is RAM of a data space of R74's 16 address bits: the address is even, no register is there, and
both bytes are RAM (20_memory.md R74, R75). -/
def ramWordAt (s : State) (a : DataAddr) : Bool :=
  16 ≤ s.dev.dataAddrBits && a.getLsbD 0 == false && (sfrAt s.dev a).isNone && isRam s.dev a && isRam s.dev (a + 1#16)

/-- The word that RAM holds at an even address (R75). -/
def ramWord (s : State) (a : DataAddr) : Word := wordOfBytes (ramRead s a) (ramRead s (a + 1#16))

/-- The checks of R79, for R74's 16 address bits, on a push with W15 = `a`: the address above SPLIM, a wrap past
0xFFFF, W15 below STACK_BASE after it (20_memory.md R79). -/
def pushStackError (s : State) (a : DataAddr) : Bool :=
  (s.splimWritten && s.splim < a) || a == 0xFFFE#16 || a + 2#16 < s.dev.stackBase

/-- The checks of R79, for R74's 16 address bits, on a pop with W15 = `a`: the address above SPLIM, W15 below
STACK_BASE after it, and a wrap below 0, which is the model's choice (log 22). -/
def popStackError (s : State) (a : DataAddr) : Bool :=
  (s.splimWritten && s.splim < a - 2#16) || a == 0#16 || a - 2#16 < s.dev.stackBase

/-- A hard trap event is a conflict (60_exceptions.md R146): a trap of a greater level is pending, or the CPU priority
is above the level. -/
def conflicts (s : State) (t : Trap) : Prop :=
  (∃ u, trapLevel s.dev t < trapLevel s.dev u ∧ trapPending s u = true) ∨ trapLevel s.dev t < cpuIPL s

/-- A hard trap event meets the trap's own handler (R146, 92_eei_decisions.md D15). -/
def meetsOwnHandler (s : State) (t : Trap) : Prop :=
  (∀ u, trapLevel s.dev t < trapLevel s.dev u → trapPending s u = false) ∧ cpuIPL s = trapLevel s.dev t

/-- A hard trap event sets its flag (R146). -/
def admitsTrap (s : State) (t : Trap) : Prop :=
  (∀ u, trapLevel s.dev t < trapLevel s.dev u → trapPending s u = false) ∧ cpuIPL s < trapLevel s.dev t

/-- The STKERR bit of INTCON1, where a condition of R79 holds (10_state.md R19). -/
def stkerrIf (c : Bool) : Word := if c then 0x0004#16 else 0#16

/-- `r` is how an operation of one word ends whose effect is the register write `w`, from the state `s`
(42_sfr_access.md R121): the write's refusal, or its state with pc + 2 and with STKERR set where the write or `stack` says so
(20_memory.md R79). -/
def endsInWrite (r : Res) (s : State) (w : Except Refusal (State × Events)) (stack : Bool) : Prop :=
  match w with
  | .error x => r = .refused x
  | .ok (t, e) => r = .next { t with pc := nextPc s, intcon1 := t.intcon1 ||| stkerrIf (e.stack || stack) }

/-- `t` is how PUSH of the word `v` ends from `s` (41_named_instructions.md R113, 20_memory.md R78, R79): the two bytes of `v`
at W15, little-endian, W15 + 2, pc + 2, STKERR by the checks, and nothing else. -/
def pushes (s t : State) (v : Word) : Prop :=
  t = { s with
    pc := nextPc s
    w := s.w.set 15 (sp s + 2#16)
    mem := t.mem
    intcon1 := s.intcon1 ||| stkerrIf (pushStackError s (sp s)) } ∧
  ∀ a, ramRead t a = if a = sp s then lowByte v else if a = sp s + 1#16 then highByte v else ramRead s a

/-- The bits of SR that a free flag never reaches: IPL<2:0>, RA, OA and OB (10_state.md R14, 41_named_instructions.md R114
to R116). -/
def keptFlags (s t : State) : Prop :=
  ipl t = ipl s ∧ t.sr.getLsbD 4 = s.sr.getLsbD 4 ∧ t.sr.getLsbD 15 = s.sr.getLsbD 15 ∧
  t.sr.getLsbD 14 = s.sr.getLsbD 14 ∧ t.sr.getLsbD 9 = s.sr.getLsbD 9

/-- An instruction raises the address error (60_exceptions.md R150, R146): where the trap is admitted the next state has
ADDRERR set, keeps the bits of INTCON1 that no trap event sets, and meets `effect`; a conflict resets the device; in the
trap's own handler the model stops. -/
def raisesAddressError (i : Instr) (s : State) (effect : State → Prop) : Prop :=
  (admitsTrap s .addressError →
    ∃ t, exec i s = .next t ∧ t.intcon1.getLsbD 3 = true ∧ t.intcon1 &&& 0x8721#16 = s.intcon1 &&& 0x8721#16 ∧
      effect t) ∧
  (conflicts s .addressError → ∃ t, exec i s = .next t ∧ t.traprSet = true ∧ t.pc = resetPc s.dev) ∧
  (meetsOwnHandler s .addressError → exec i s = .fault (.hardTrapInOwnHandler .addressError))

/-- An outcome that is a next state. -/
def isNext (r : Res) : Bool :=
  match r with
  | .next _ => true
  | .fault _ => false
  | .refused _ => false

/-- A run of `k` steps from `s` that meets no fault and no refusal. -/
def safeFor (k : Nat) (s : State) : Bool := isNext (Host.Core.run Sys2Proof.core k s)

end Sys2Proof.Machine
end

