-- ==== Sys2Proof/Certificates/Slice0/Obligations.lean ====
section
/-! DEFINITION. The statements about the machine that are to be proved; each docstring says which rule of spec/ it
formalises. -/

open Sys2Proof Sys2Proof.Machine

/-! Encoding and decoding (30_encoding.md R92, R93; log 1). -/

/-- R92: decoding the words of a well-formed encoded instruction gives the instruction back, whatever program word
follows it, and it has as many words as it occupies. -/
def Obligations.DecodeEncode : Prop :=
  ∀ (i : Instr) (next : Option ProgWord), i.wellFormed = true → i.encoded = true →
    (encode i).length = i.length ∧
    decode ((encode i).headD 0#24) (((encode i)[1]?).or next) = .ok i

/-- R92: a word that decodes is a word of that instruction (NOP ignores bits 15:0), and what it decodes to is well
formed. -/
def Obligations.EncodeDecode : Prop :=
  ∀ (w : ProgWord) (next : Option ProgWord) (i : Instr), decode w next = .ok i →
    i.wellFormed = true ∧ i.encoded = true ∧ (i ≠ .nop → (encode i)[0]? = some w) ∧
    (i = .nop → w.extractLsb' 16 8 = 0#8) ∧ (i.length = 2 → (encode i)[1]? = next)

/-- R92, R93(d), D31: no word matches two rows of the table of encodings; a word is refused at decode exactly when it
matches no row, or is a GOTO without its second word. -/
def Obligations.EncodingRowsPartitionWords : Prop :=
  ∀ (w : ProgWord) (next : Option ProgWord),
    (∀ p ∈ rowPatterns, ∀ q ∈ rowPatterns, w &&& p.1 = p.2 → w &&& q.1 = q.2 → p = q) ∧
    (decode w next = .error .noRow ↔ ∀ p ∈ rowPatterns, w &&& p.1 ≠ p.2) ∧
    (decode w next = .error .gotoSecondWord ↔
      w &&& 0xFF0001#24 = 0x040000#24 ∧ ∀ v, next = some v → v &&& 0xFFFF80#24 ≠ 0#24)

/-- Words of 95_test_vectors.md section 2.13 decode to what it says. -/
def Obligations.SpecWordsDecode : Prop :=
  decode 0x064000#24 none = .ok .retfie ∧ decode 0xFC3FFF#24 none = .ok (.disi 16383#14) ∧
  decode 0xFE4001#24 none = .ok (.pwrsav .idle) ∧ decode 0x042344#24 (some 0x000001#24) = .ok (.goto 0x012344#23) ∧
  decode 0x37FFFF#24 none = .ok (.bra 0xFFFF#16) ∧ decode 0xF80042#24 none = .ok (.pushF 0x0042#16) ∧
  decode 0x224440#24 none = .ok (.movLit 0x2444#16 0) ∧ decode 0x880520#24 none = .ok (.movToF 0 0x00A4#16) ∧
  decode 0x800701#24 none = .ok (.movFromF 0x00E0#16 1) ∧ decode 0xA90085#24 none = .ok (.bclrF 0x0084#16 8#4) ∧
  decode 0xA8E081#24 none = .ok (.bsetF 0x0080#16 15#4)

/-! The step (60_exceptions.md R130, R139). -/

/-- R130, R139, R107: where the boundary check enters no exception, a step of the running CPU is the meaning of the
instruction or operation at the program counter, then at least one tick, and the next free values; at an unimplemented
address no operation is executed and the address error is raised (R150 cause 5); where the check enters an exception,
the step is its entry and four or five ticks, which are counted whatever the entry pushed where (R101, R126, R210,
R211, D7). -/
def Obligations.StepRunsTheFetchedInstruction : Prop :=
  ∀ (s : State) (rest : List Turn), (s.agenda = [] ∧ rest = [] ∨ s.agenda = .cpu :: rest) → s.power = .run →
    (∀ i, (boundaryCheck { s with agenda := rest }).1 = none → progImplemented s.dev s.pc = true →
      ((∃ w, progAt s s.pc = some (.word w) ∧ decode w (progWordAt s (nextPc s)) = .ok i) ∨
        (progAt s s.pc = some (.instr i) ∧ i.wellFormed = true)) →
      1 ≤ cycles s.draws i ∧
      step s =
        (match exec i { s with agenda := rest, skid := (boundaryCheck { s with agenda := rest }).2.skid } with
        | .next t => .next { elapse (cycles s.draws i) t with draws := (elapse (cycles s.draws i) t).draws + 1 }
        | .fault f => .fault f
        | .refused r => .refused r)) ∧
    (∀ o, (boundaryCheck { s with agenda := rest }).1 = none → progImplemented s.dev s.pc = true →
      progAt s s.pc = some (.abs o) → o.wellFormed = true →
      ∃ n, 1 ≤ n ∧ step s =
        (match execAbs o { s with agenda := rest, skid := (boundaryCheck { s with agenda := rest }).2.skid } with
        | .next t => .next { elapse n t with draws := (elapse n t).draws + 1 }
        | .fault f => .fault f
        | .refused r => .refused r)) ∧
    ((boundaryCheck { s with agenda := rest }).1 = none → progImplemented s.dev s.pc = false →
      ∃ n, 1 ≤ n ∧ step s =
        (match raiseHard .addressError
            { s with
              agenda := rest
              skid := (boundaryCheck { s with agenda := rest }).2.skid
              badFetch := true } with
        | .next t => .next { elapse n t with draws := (elapse n t).draws + 1 }
        | .fault f => .fault f
        | .refused r => .refused r)) ∧
    (∀ x, (boundaryCheck { s with agenda := rest }).1 = some x →
      ∃ n, (n = 4 ∨ n = 5) ∧ step s =
        (match enterException x { s with agenda := rest, skid := 0 } with
        | .next t => .next { elapse n t with draws := (elapse n t).draws + 1 }
        | .fault f => .fault f
        | .refused r => .refused r) ∧
      ∀ t, enterException x { s with agenda := rest, skid := 0 } = .next t → t.disiLoaded = false)

/-! The system instructions (40_system_instructions.md). -/

/-- R105, R107: NOP advances pc by 2, writes nothing else and takes at least one tick. That pc wraps modulo 2^PC_BITS
(R6 gives the width alone; R10 and N14: wrap-around is not in the source), a PC_BITS above 23 counting as 23, is the
model's choice (log 2, log 10). -/
def Obligations.NopAdvances : Prop :=
  ∀ (s : State) (t : Nat), exec .nop s = .next { s with pc := nextPc s } ∧
    (s.pc.getLsbD 0 = false → (nextPc s).toNat = (s.pc.toNat + 2) % 2 ^ min 23 s.dev.pcBits) ∧ 1 ≤ cycles t .nop

/-- R100: DISI loads DISICNT and its latch and advances pc; a step that runs it leaves the count at k whatever its
cycles, and level 7 and traps are not masked by it. A DISICNT of fewer than k's 14 bits takes its low bits (R6; the
model's choice, log 14). -/
def Obligations.DisiLoadsTheCount : Prop :=
  ∀ (s : State) (k : BitVec 14) (n : Nat),
    let c := narrow s.dev.disicntBits k
    (14 ≤ s.dev.disicntBits → c = k) ∧
    exec (.disi k) s =
      .next { s with pc := nextPc s, disicnt := c, disiActive := decide (c ≠ 0#14), disiLoaded := true } ∧
    (∀ t, exec (.disi k) s = .next t →
      (elapse n t).disicnt = c ∧ (elapse n t).disiActive = decide (c ≠ 0#14) ∧
      (∀ l, passesMask t l = true ↔ cpuIPL s < l ∧ (c = 0#14 ∨ l = 7)) ∧
      (∀ x, trapPresentable t x = trapPresentable s x))

/-- R104, R200: RESET gives every register its reset value; the program, the device and the environment stay. -/
def Obligations.ResetInstructionResets : Prop :=
  ∀ s : State, ∃ t, exec .reset s = .next t ∧
    t.pc = resetPc s.dev ∧ sp t = resetSp s.dev ∧ t.splimWritten = false ∧ t.sr = 0#16 ∧ t.corcon = 0x0020#16 ∧ t.disicnt = 0#14 ∧
    t.disiActive = false ∧ t.intcon1 = 0#16 ∧ t.intcon2 = 0#16 ∧ (∀ x : Fin 8, t.ifs[x] = 0#16 ∧ t.iec[x] = 0#16) ∧
    (∀ n, implemented s.dev n = true → irqPriority t n = 4) ∧ t.inttreg = 0#16 ∧ t.power = .run ∧ t.skid = 0 ∧
    t.prog = s.prog ∧ t.dev = s.dev ∧ t.agenda = s.agenda ∧
    resetPc defaultDevice = 0x000000#23 ∧ resetSp defaultDevice = 0x0800#16

/-- R106, R111, R92: GOTO to an implemented address loads pc; BRA adds two for itself and twice its signed word offset
to pc. A pc of 23 bits holds every even address as it is (R6). That a pc of PC_BITS < 23 takes the low bits of an
address, and that BRA wraps modulo the width of pc, is the model's choice (log 2, log 10): R10 says that wrap-around
is not in the source. That no flag is written is the model's reading of "none stated" (log 41). -/
def Obligations.JumpsLoadPc : Prop :=
  ∀ s : State,
    (∀ a : ProgAddr, progImplemented s.dev (pcOf s.dev a) = true →
      exec (.goto a) s = .next { s with pc := pcOf s.dev a }) ∧
    (∀ n : BitVec 16,
      progImplemented s.dev (pcOf s.dev (BitVec.ofInt 23 (s.pc.toNat + 2 + 2 * n.toInt))) = true →
      exec (.bra n) s = .next { s with pc := pcOf s.dev (BitVec.ofInt 23 (s.pc.toNat + 2 + 2 * n.toInt)) }) ∧
    (∀ a : ProgAddr, a.getLsbD 0 = false →
      (pcOf s.dev a).toNat = a.toNat % 2 ^ s.dev.pcBits ∧ (23 ≤ s.dev.pcBits → pcOf s.dev a = a))

/-- R106, R111, R150 cause 4, R146: GOTO and BRA to an unimplemented address load pc and raise the address error: its
flag is set and the cause is marked (log 18), unless a trap of a greater level is pending or in progress (a reset) or
an address error handler runs (a fault). That no flag is written is the model's reading of "none stated" (log 41). -/
def Obligations.JumpToUnimplementedTraps : Prop :=
  ∀ (s : State) (i : Instr) (a : ProgAddr),
    ((∃ v, i = .goto v ∧ a = pcOf s.dev v) ∨
      ∃ n, i = .bra n ∧ a = pcOf s.dev (BitVec.ofInt 23 (s.pc.toNat + 2 + 2 * n.toInt))) →
    progImplemented s.dev a = false →
    (admitsTrap s .addressError →
      exec i s = .next { s with pc := a, badFetch := true, intcon1 := s.intcon1 ||| 0x0008#16 }) ∧
    (conflicts s .addressError → exec i s = .next (deviceReset .trapConflict { s with pc := a })) ∧
    (meetsOwnHandler s .addressError → exec i s = .fault (.hardTrapInOwnHandler .addressError))

/-- R102: RETFIE pops the second and the first word of the frame and restores SRL, IPL3 and pc from them by the
device's FRAME_LAYOUT (with the layout of D3 they are R102's slices; that a pc of fewer than 23 bits takes their low
PC_BITS is the model's choice, log 2); W15 ends 4 lower; nothing else changes but STKERR by R79's checks and the
INTTREG window of R170. That a pop with W15 = 0 counts as a wrap is the model's choice (log 22). -/
def Obligations.RetfieRestores : Prop :=
  ∀ s : State, ramWordAt s (sp s - 2#16) = true → ramWordAt s (sp s - 4#16) = true →
    ∃ t, exec .retfie s = .next t ∧
      t = { s with
        pc := t.pc
        w := s.w.set 15 (sp s - 4#16)
        sr := t.sr
        corcon := t.corcon
        intcon1 := s.intcon1 ||| stkerrIf (popStackError s (sp s) || popStackError s (sp s - 2#16))
        inttregFresh := false } ∧
      t.pc = pcOf s.dev (framePcOf s.dev.frame (ramWord s (sp s - 4#16)) (ramWord s (sp s - 2#16))) ∧
      srl t = frameSrlOf s.dev.frame (ramWord s (sp s - 4#16)) (ramWord s (sp s - 2#16)) ∧
      ipl3 t = frameIpl3Of s.dev.frame (ramWord s (sp s - 4#16)) (ramWord s (sp s - 2#16)) ∧
      (s.dev.frame = defaultFrame →
        t.pc = pcOf s.dev
          ((ramWord s (sp s - 2#16)).extractLsb' 0 7 ++ (ramWord s (sp s - 4#16)).extractLsb' 1 15 ++ 0#1) ∧
        srl t = (ramWord s (sp s - 2#16)).extractLsb' 8 8 ∧ ipl3 t = (ramWord s (sp s - 2#16)).getLsbD 7) ∧
      t.sr.extractLsb' 8 8 = s.sr.extractLsb' 8 8 ∧
      (∀ b, b ≠ 3 → t.corcon.getLsbD b = s.corcon.getLsbD b)

/-! The other named instructions (41_named_instructions.md). -/

/-- R112, R79, R148: RETURN pops a two-word return address (that a pc of fewer than 23 bits takes its low PC_BITS is
the model's choice, log 2); SR and IPL3 are not restored. A RETURN or RETFIE that takes W15 below STACK_BASE sets
STKERR, unless the same instruction ends in the reset of a trap conflict. That a pop with W15 = 0 counts as a wrap is
the model's choice (log 22). -/
def Obligations.ReturnPopsPc : Prop :=
  ∀ s : State,
    (ramWordAt s (sp s - 2#16) = true → ramWordAt s (sp s - 4#16) = true →
      exec .ret s = .next { s with
        pc := pcOf s.dev
          ((ramWord s (sp s - 2#16)).extractLsb' 0 7 ++ (ramWord s (sp s - 4#16)).extractLsb' 1 15 ++ 0#1)
        w := s.w.set 15 (sp s - 4#16)
        intcon1 := s.intcon1 ||| stkerrIf (popStackError s (sp s) || popStackError s (sp s - 2#16)) }) ∧
    (∀ (t : State) (i : Instr), i = .ret ∨ i = .retfie → (sp s).getLsbD 0 = false →
      sp s - 2#16 < s.dev.stackBase ∨ sp s - 4#16 < s.dev.stackBase → exec i s = .next t →
      trapPending t .stackError = true ∨ (t.traprSet = true ∧ t.pc = resetPc s.dev))

/-- R113, R78, R79, R75: PUSH f writes the word at `f`, and PUSH_SR the word of SR, at W15, little-endian, and adds 2
to W15; the access that overflows completes and sets STKERR. PUSH_SR writes no flag (R113); that PUSH f writes none is
the model's choice (log 41). -/
def Obligations.PushStoresAtW15 : Prop :=
  ∀ s : State, ramWordAt s (sp s) = true →
    (∀ f, wordReadFaults s f = false → ∃ t, exec (.pushF f) s = .next t ∧ pushes s t (readWord s f)) ∧
    ∃ t, execAbs .pushSr s = .next t ∧ pushes s t s.sr

/-- R113, R78, R79: POP f to RAM subtracts 2 from W15 and stores the word there at `f`. That a pop with W15 = 0 counts
as a wrap (log 22), and that no flag is written (log 41), is the model's choice. -/
def Obligations.PopStoresAtF : Prop :=
  ∀ (s : State) (f : DataAddr), ramWordAt s f = true → ramWordAt s (sp s - 2#16) = true →
    ∃ t, exec (.popF f) s = .next t ∧
      t = { s with
        pc := nextPc s
        w := s.w.set 15 (sp s - 2#16)
        mem := t.mem
        intcon1 := s.intcon1 ||| stkerrIf (popStackError s (sp s)) } ∧
      ∀ a, ramRead t a = if a = f then ramRead s (sp s - 2#16)
        else if a = f + 1#16 then ramRead s (sp s - 1#16) else ramRead s a

/-- R113, R123: POP_SR, and POP of SR's address as well, gives every writable bit of SR the popped value (IPL<2:0>
only with NSTDIS = 0), clears a clear-only bit popped as 0, and keeps the others. That a pop with W15 = 0 counts as a
wrap is the model's choice (log 22). -/
def Obligations.PopSrRestoresWritableBits : Prop :=
  ∀ s : State, ramWordAt s (sp s - 2#16) = true →
    ∃ t, execAbs .popSr s = .next t ∧
      (∀ f, f.getLsbD 0 = false → sfrAt s.dev f = some .sr → exec (.popF f) s = .next t) ∧
      t = { s with
        pc := nextPc s
        w := s.w.set 15 (sp s - 2#16)
        sr := t.sr
        intcon1 := s.intcon1 ||| stkerrIf (popStackError s (sp s)) } ∧
      ∀ b, t.sr.getLsbD b =
        if b ∈ [0, 1, 2, 3] ∨ (b ∈ [5, 6, 7] ∧ nstdis s = false) then (ramWord s (sp s - 2#16)).getLsbD b
        else if b ∈ [10, 12, 13] then s.sr.getLsbD b && (ramWord s (sp s - 2#16)).getLsbD b
        else s.sr.getLsbD b

/-- R114, R116, R153, R154, R156: an SFTAC whose count exceeds ±16 leaves both accumulators and sets SFTACERR and
MATHERR; one within ±16 writes its accumulator with some value and carries, sets OA or OB by the carry-out of bit 31,
and raises the math error of each enabled overflow; the other accumulator stays. That no W register changes, and that
IPL<2:0>, RA, DA and (but for the result's OA or OB) OA and OB are kept, is the model's choice (log 23): R114 gives no
flags. -/
def Obligations.SftacShiftsOrTraps : Prop :=
  ∀ (s : State) (acc : Acc) (c : ShiftCount),
    (16 < shiftCount s c ∨ shiftCount s c < -16 →
      ∃ t, exec (.sftac acc c) s = .next t ∧
        t = { s with pc := nextPc s, sr := t.sr, intcon1 := s.intcon1 ||| 0x0090#16 } ∧ keptFlags s t) ∧
    (-16 ≤ shiftCount s c → shiftCount s c ≤ 16 →
      ∃ t c31 c39, exec (.sftac acc c) s = .next t ∧
        t = { s with
          pc := nextPc s
          sr := t.sr
          accA := if acc = .a then t.accA else s.accA
          accB := if acc = .b then t.accB else s.accB
          intcon1 := s.intcon1 ||| accumulatorErrors s acc c31 c39 } ∧
        ipl t = ipl s ∧ t.sr.getLsbD 4 = s.sr.getLsbD 4 ∧ t.sr.getLsbD 9 = s.sr.getLsbD 9 ∧
        t.sr.getLsbD 15 = (if acc = .a then c31 else s.sr.getLsbD 15) ∧
        t.sr.getLsbD 14 = (if acc = .b then c31 else s.sr.getLsbD 14))

/-- R153, R154: the math error bits of an accumulator operation: OVAERR or OVBERR needs the carry of bit 31, OVATE or
OVBTE and no 31-bit saturation; COVAERR or COVBERR the carry of bit 39, COVTE and no saturation, 31-bit or 39-bit;
MATHERR goes with any; no other bit of INTCON1 is set, and none with 31-bit saturation. -/
def Obligations.AccumulatorErrorBits : Prop :=
  ∀ (s : State) (acc : Acc) (c31 c39 : Bool),
    let e := accumulatorErrors s acc c31 c39
    let plain := c31 && s.intcon1.getLsbD (if acc = .a then 10 else 9) && !Config.sat31 acc s.corcon
    let cata := c39 && s.intcon1.getLsbD 8 && !(Config.sat31 acc s.corcon || Config.sat39 acc s.corcon)
    e.getLsbD 14 = (plain && acc == .a) ∧ e.getLsbD 13 = (plain && acc == .b) ∧
    e.getLsbD 12 = (cata && acc == .a) ∧ e.getLsbD 11 = (cata && acc == .b) ∧
    e.getLsbD 4 = (plain || cata) ∧ e &&& 0x87EF#16 = 0#16 ∧
    (Config.sat31 acc s.corcon = true → e = 0#16)

/-- R116: a MAC-class instruction whose fetches raise no address error writes its accumulator as SFTAC does. Its
operand form, and that it writes no W register and no memory, are the model's choice (log 23): R116 does not say. -/
def Obligations.MacClassWritesItsAccumulator : Prop :=
  ∀ (s : State) (acc : Acc) (x y : Option WReg),
    (∀ p, x = some p → wordReadFaults s s.w[p] = false ∧ inYSpace s.dev s.w[p] = false) →
    (∀ p, y = some p → wordReadFaults s s.w[p] = false ∧ inYSpace s.dev s.w[p] = true) →
    ∃ t c31 c39, exec (.macClass acc x y) s = .next t ∧
      t = { s with
        pc := nextPc s
        sr := t.sr
        accA := if acc = .a then t.accA else s.accA
        accB := if acc = .b then t.accB else s.accB
        intcon1 := s.intcon1 ||| accumulatorErrors s acc c31 c39 |||
          stkerrIf ((x == some 15 || y == some 15) && s.splimWritten && s.splim < eaOf s.dev (sp s)) } ∧
      ipl t = ipl s ∧ t.sr.getLsbD 4 = s.sr.getLsbD 4 ∧ t.sr.getLsbD 9 = s.sr.getLsbD 9 ∧
      t.sr.getLsbD 15 = (if acc = .a then c31 else s.sr.getLsbD 15) ∧
      t.sr.getLsbD 14 = (if acc = .b then c31 else s.sr.getLsbD 14)

/-- R115, R155: a zero divisor in the first iteration of a loop sets DIV0ERR and MATHERR, in a later one nothing. That
an iteration writes only its quotient and remainder registers, flags, pc and the mark of its loop, that pc stays while
RA says that the loop goes on, and how an iteration is known to be the first (RA = 0, or the loop in progress at this
pc has not begun) are the model's choice (log 24). After an iteration that is not the last the next one is not the
first, and a loop of a divide at another pc stays in progress whatever this one does. -/
def Obligations.DivideIteration : Prop :=
  ∀ (s : State) (m n q r : WReg), ∃ t, exec (.repeatDivide m n q r) s = .next t ∧
    let first := !s.sr.getLsbD 4 || !(findLoop s.divideLoops (sp s) s.pc).any (fun m => m.started)
    t = { s with
      pc := if t.sr.getLsbD 4 then s.pc else nextPc s
      w := t.w
      sr := t.sr
      intcon1 := s.intcon1 ||| (if first && s.w[n] == 0#16 then 0x0050#16 else 0#16) |||
        stkerrIf ((q == 15 || r == 15) && sp t < s.dev.stackBase)
      divideLoops :=
        if t.sr.getLsbD 4 then ⟨sp t, s.pc, true⟩ :: endLoop s.divideLoops (sp s) s.pc
        else endLoop s.divideLoops (sp s) s.pc } ∧
    (t.sr.getLsbD 4 = true → firstIteration t = false) ∧
    (∀ a p, p ≠ s.pc → findLoop t.divideLoops a p = findLoop s.divideLoops a p) ∧
    (∀ j, j ≠ q → j ≠ r → t.w[j] = s.w[j]) ∧
    ipl t = ipl s ∧ t.sr.getLsbD 15 = s.sr.getLsbD 15 ∧ t.sr.getLsbD 14 = s.sr.getLsbD 14

/-- R117, R110, R79: a MOV.D load from readable words, or through PSV at an even address, completes, with R79's checks
on an address from W15. The operand form, and that nothing but the register pair and flags is written, are the model's
choice (log 23); so are the wrap of the pair's second address (log 22) and that a load through PSV at every even
address raises no address error (log 25: R83 does not say it). -/
def Obligations.MovDLoadWritesItsPair : Prop :=
  ∀ (s : State) (p d : WReg) (psv : Bool), d.val < 15 →
    (psv = false → wordReadFaults s s.w[p] = false ∧ wordReadFaults s (s.w[p] + 2#16) = false) →
    (psv = true → (s.w[p]).getLsbD 0 = false) →
    ∃ t, exec (.movD (.load p d psv)) s = .next t ∧
      t = { s with
        pc := nextPc s
        w := t.w
        sr := t.sr
        intcon1 := s.intcon1 |||
          stkerrIf ((p == 15 && ((s.splimWritten &&
            (s.splim < eaOf s.dev (sp s) || s.splim < eaOf s.dev (sp s + 2#16))) ||
            lastWord s.dev ≤ eaOf s.dev (sp s))) || (d == 14 && sp t < s.dev.stackBase)) } ∧
      (∀ j : WReg, j.val ≠ d.val → j.val ≠ d.val + 1 → t.w[j] = s.w[j]) ∧ keptFlags s t

/-- R117, R110, R79: a MOV.D store to two words of RAM completes. The operand form, that it stores at the address in
its pointer register, and that nothing but those four bytes and flags changes, are the model's choice (log 23). -/
def Obligations.MovDStoreWritesFourBytes : Prop :=
  ∀ (s : State) (src p : WReg), src.val < 15 → ramWordAt s s.w[p] = true → ramWordAt s (s.w[p] + 2#16) = true →
    ∃ t, exec (.movD (.store src p)) s = .next t ∧
      t = { s with
        pc := nextPc s
        sr := t.sr
        mem := t.mem
        intcon1 := s.intcon1 ||| stkerrIf (p == 15 && s.splimWritten && s.splim < sp s + 2#16) } ∧
      keptFlags s t ∧
      ∀ a, a ≠ s.w[p] → a ≠ s.w[p] + 1#16 → a ≠ s.w[p] + 2#16 → a ≠ s.w[p] + 3#16 → ramRead t a = ramRead s a

/-- R117: a bit test and skip goes to the next operation or past it (past both words of a GOTO). Its operand forms,
and that it writes nothing but flags, are the model's choice (log 23, log 26); so is that a test through PSV at every
even address raises no address error (log 25). -/
def Obligations.BitTestSkips : Prop :=
  ∀ (s : State) (i : Instr) (src : BitSource) (b : BitVec 4), i = .btsc src b ∨ i = .btss src b →
    (∀ f, src = .file f → wordReadFaults s f = false) →
    (∀ p, src = .indirect p → wordReadFaults s s.w[p] = false) →
    (∀ p, src = .psv p → (s.w[p]).getLsbD 0 = false) →
    ∃ t, exec i s = .next t ∧
      t = { s with
        pc := t.pc
        sr := t.sr
        intcon1 := s.intcon1 ||| stkerrIf ((src == .indirect 15 || src == .psv 15) && s.splimWritten &&
          s.splim < eaOf s.dev (sp s)) } ∧
      keptFlags s t ∧
      (t.pc = nextPc s ∨ t.pc = pcOf s.dev (nextPc s + BitVec.ofNat 23 (2 * wordsAt s (nextPc s)))) ∧
      (∀ j, progAt s (nextPc s) = some (.instr j) → wordsAt s (nextPc s) = j.length) ∧
      (∀ w, progAt s (nextPc s) = some (.word w) → w &&& 0xFF0001#24 = 0x040000#24 → wordsAt s (nextPc s) = 2)

/-- R119, R151: indirect bit manipulation at an odd effective address raises the address error and writes no data
space (trap levels in the order of R134). That no W register changes (log 23), that set and clear write no flag (log
28) and which flags another manipulation leaves free, before the error too (log 21, log 23), are the model's choice.
-/
def Obligations.IndirectBitAtOddAddressTraps : Prop :=
  ∀ (s : State) (op : BitOp) (p : WReg) (b : BitVec 4), (s.w[p]).getLsbD 0 = true →
    trapLevelsOrdered s.dev = true →
    (admitsTrap s .addressError →
      ∃ t, exec (.bitIndirect op p b) s = .next t ∧
        t = { s with
          pc := nextPc s
          sr := t.sr
          badFetch := false
          intcon1 := s.intcon1 ||| 0x0008#16 |||
            stkerrIf (p == 15 && s.splimWritten && s.splim < eaOf s.dev (sp s)) } ∧
        keptFlags s t ∧ (op ≠ .other → t.sr = s.sr)) ∧
    (conflicts s .addressError →
      ∃ t, exec (.bitIndirect op p b) s = .next t ∧ t.traprSet = true ∧ t.pc = resetPc s.dev) ∧
    (meetsOwnHandler s .addressError →
      exec (.bitIndirect op p b) s = .fault (.hardTrapInOwnHandler .addressError))

/-- R119 gives an indirect bit manipulation at an even address no effect of its own. That set and clear have there the
effect that R122 gives at a register, so that at a RAM word they change that bit alone and write no flag, is the
model's choice (log 28); that any other manipulation changes at most that bit and flags, and that no W register
changes, the pointer neither, is the model's choice (log 23). A pointer to a register's address is in
`RegisterInstructionsWriteTheSfr`. -/
def Obligations.IndirectBitInRam : Prop :=
  ∀ (s : State) (op : BitOp) (p : WReg) (b : BitVec 4), ramWordAt s s.w[p] = true →
    ∃ t v, exec (.bitIndirect op p b) s = .next t ∧
      (op = .set → v = true ∧ t.sr = s.sr) ∧ (op = .clear → v = false ∧ t.sr = s.sr) ∧
      t = { s with
        pc := nextPc s
        sr := t.sr
        mem := t.mem
        intcon1 := s.intcon1 ||| stkerrIf (p == 15 && s.splimWritten && s.splim < sp s) } ∧
      keptFlags s t ∧
      ∀ (a : DataAddr) (k : Nat), (ramRead t a).getLsbD k =
        if a = s.w[p] + BitVec.ofNat 16 (b.toNat / 8) ∧ k = b.toNat % 8 then v else (ramRead s a).getLsbD k

/-! Access to registers and data space (42_sfr_access.md, 20_memory.md). -/

/-- R110, R125, R11: MOV #lit16 writes its register; W15 keeps bit 0 clear and is checked against STACK_BASE. That no
flag is written is the model's choice (log 41). -/
def Obligations.MovLiteralWritesItsRegister : Prop :=
  ∀ (s : State) (k : Word) (d : WReg),
    (d ≠ 15 → exec (.movLit k d) s = .next { s with pc := nextPc s, w := s.w.set d k }) ∧
    (∃ t, exec (.movLit k 15) s = .next t ∧
      t = { s with
        pc := nextPc s
        w := s.w.set 15 (sp t)
        intcon1 := s.intcon1 ||| stkerrIf (decide (sp t < s.dev.stackBase)) } ∧
      ∀ b, (sp t).getLsbD b = (decide (b ≠ 0) && k.getLsbD b))

/-- R120, R75, R150 item 3: MOV f,Wnd reads the register at `f`, or the two bytes of RAM there, into Wnd (W15 keeps
bit 0 clear); from an unimplemented address it writes Wnd with some value (the model's choice, log 21) and sets
ADDRERR, where R146 admits the trap. That no flag is written, where no register is read, is the model's choice (log
41). -/
def Obligations.MovFromDataReads : Prop :=
  ∀ (s : State) (f : DataAddr) (d : WReg),
    (wordReadFaults s f = false →
      (d ≠ 15 → exec (.movFromF f d) s = .next { s with pc := nextPc s, w := s.w.set d (readWord s f) }) ∧
      (exec (.movFromF f 15) s = .next { s with
        pc := nextPc s
        w := s.w.set 15 (readWord s f &&& 0xFFFE#16)
        intcon1 := s.intcon1 ||| stkerrIf (decide (readWord s f &&& 0xFFFE#16 < s.dev.stackBase)) })) ∧
    (∀ r, f.getLsbD 0 = false → sfrAt s.dev f = some r → wordReadFaults s f = false ∧ readWord s f = sfrRead s r) ∧
    (ramWordAt s f = true → wordReadFaults s f = false ∧ readWord s f = ramWord s f) ∧
    (d ≠ 15 → dataImplemented s.dev f = false → admitsTrap s .addressError →
      ∃ v, exec (.movFromF f d) s =
        .next { s with pc := nextPc s, w := s.w.set d v, badFetch := false, intcon1 := s.intcon1 ||| 0x0008#16 })

/-- R75, U14: MOV Wns,f to RAM stores the low byte at `f` and the high byte at the next address; to an unimplemented
even address it has no effect on any state, or sets ADDRERR on a device that reports such writes (U14). That it has no
effect at an implemented address where no register and no RAM is, is the model's choice (log 11), and so is that it
writes no flag (log 41). -/
def Obligations.MovToDataStores : Prop :=
  ∀ (s : State) (i : WReg) (f : DataAddr),
    (ramWordAt s f = true →
      ∃ t, exec (.movToF i f) s = .next t ∧ t = { s with pc := nextPc s, mem := t.mem } ∧
        ∀ a, ramRead t a = if a = f then (s.w[i]).extractLsb' 0 8
          else if a = f + 1#16 then (s.w[i]).extractLsb' 8 8 else ramRead s a) ∧
    (f.getLsbD 0 = false → sfrAt s.dev f = none → isRam s.dev f = false → isRam s.dev (f + 1#16) = false →
      (dataImplemented s.dev f = true ∨ s.dev.unimplementedWriteTraps = false →
        exec (.movToF i f) s = .next { s with pc := nextPc s }) ∧
      (dataImplemented s.dev f = false → s.dev.unimplementedWriteTraps = true →
        admitsTrap s .addressError →
        exec (.movToF i f) s = .next { s with pc := nextPc s, badFetch := false, intcon1 := s.intcon1 ||| 0x0008#16 }))

/-- BSET and BCLR of a RAM word change that bit alone and write no flag. That is the model's choice (log 28): R92
gives the words of BSET f and BCLR f and R122 their effect at a register, and no rule their effect at RAM. -/
def Obligations.BitWriteInRam : Prop :=
  ∀ (s : State) (i : Instr) (f : DataAddr) (b : BitVec 4) (v : Bool),
    (i = .bsetF f b ∧ v = true ∨ i = .bclrF f b ∧ v = false) → ramWordAt s f = true →
    ∃ t, exec i s = .next t ∧ t = { s with pc := nextPc s, mem := t.mem } ∧
      ∀ (a : DataAddr) (k : Nat), (ramRead t a).getLsbD k =
        if a = f + BitVec.ofNat 16 (b.toNat / 8) ∧ k = b.toNat % 8 then v else (ramRead s a).getLsbD k

/-- R120, R121, R170, R53, R54: what a read of each register returns: unimplemented bits read 0, INTCON2<14> is the
DISI latch, flags, enables and priorities read as R33 assigns them, INTTREG is its latched fields outside the windows
of D10 (log 13), and TRAPR and CF read 1 once hardware has set them (log 12). SPLIM before a word write, INTTREG
inside the windows and the other bits of RCON and OSCCON are free values. -/
def Obligations.RegisterReads : Prop :=
  ∀ s : State,
    (∀ b, (sfrRead s .corcon).getLsbD b = (decide (b < 13) && s.corcon.getLsbD b)) ∧
    (∀ b, (sfrRead s .intcon1).getLsbD b = (decide (b ≠ 0 ∧ b ≠ 5) && s.intcon1.getLsbD b)) ∧
    (∀ b, (sfrRead s .intcon2).getLsbD b =
      if b = 14 then s.disiActive else decide (b ∈ [15, 2, 1, 0]) && s.intcon2.getLsbD b) ∧
    (∀ b, (sfrRead s .disicnt).getLsbD b = s.disicnt.getLsbD b) ∧
    (s.splimWritten = true → sfrRead s .splim = s.splim) ∧ sfrRead s .sr = s.sr ∧
    (∀ i, sfrRead s (.w i) = s.w[i]) ∧
    (∀ (x : Fin 8) (b : Nat), b < 16 → (sfrRead s (.ifs x)).getLsbD b = irqFlag s (16 * x.val + b) ∧
      (sfrRead s (.iec x)).getLsbD b = irqEnable s (16 * x.val + b)) ∧
    (∀ (x : Fin 30) (j : Nat), j < 4 →
      ((sfrRead s (.ipc x)).extractLsb' (4 * j) 4).toNat = irqPriority s (4 * x.val + j)) ∧
    (∀ b, b ∈ [15, 14, 13, 12, 7] → (sfrRead s .inttreg).getLsbD b = false) ∧
    (s.inttregFresh = true → presentableIrq s = none →
      ∀ b, b ∉ [15, 14, 13, 12, 7] → (sfrRead s .inttreg).getLsbD b = s.inttreg.getLsbD b) ∧
    (s.traprSet = true → (sfrRead s .rcon).getLsbD 15 = true) ∧
    (s.cfSet = true → (sfrRead s .osccon).getLsbD 3 = true)

/-- R121, R129: a word or byte write of IFSx or IECx gives every implemented bit that it covers the value written, and
changes nothing else. -/
def Obligations.FlagAndEnableWrites : Prop :=
  ∀ (s : State) (x : Fin 8) (v sel : Word),
    (∃ t, sfrWrite s (.ifs x) v sel = .ok (t, quiet) ∧ t = { s with ifs := t.ifs } ∧
      (∀ y, y ≠ x → t.ifs[y] = s.ifs[y]) ∧
      ∀ b, t.ifs[x].getLsbD b =
        if implemented s.dev (16 * x.val + b) && sel.getLsbD b then v.getLsbD b else s.ifs[x].getLsbD b) ∧
    (∃ t, sfrWrite s (.iec x) v sel = .ok (t, quiet) ∧ t = { s with iec := t.iec } ∧
      (∀ y, y ≠ x → t.iec[y] = s.iec[y]) ∧
      ∀ b, t.iec[x].getLsbD b =
        if implemented s.dev (16 * x.val + b) && sel.getLsbD b then v.getLsbD b else s.iec[x].getLsbD b)

/-- R129(c), R204, R121: a word or byte write of IPCx is refused exactly when it changes the priority of a source
whose request is live before or after it; else it sets the priorities that it covers, and changes nothing else. -/
def Obligations.PriorityWrites : Prop :=
  ∀ (s : State) (x : Fin 30) (v sel : Word),
    let u := (v &&& sel) ||| (s.ipc[x] &&& ~~~sel)
    ((∃ j, j < 4 ∧ implemented s.dev (4 * x.val + j) = true ∧
        irqPriority s (4 * x.val + j) ≠ (u.extractLsb' (4 * j) 3).toNat ∧
        requests s (4 * x.val + j) = true ∧
        (passesMask s (irqPriority s (4 * x.val + j)) = true ∨ passesMask s (u.extractLsb' (4 * j) 3).toNat = true)) →
      sfrWrite s (.ipc x) v sel = .error .priorityChangedWhileLive) ∧
    ((∀ j, j < 4 → implemented s.dev (4 * x.val + j) = true →
        irqPriority s (4 * x.val + j) ≠ (u.extractLsb' (4 * j) 3).toNat →
        requests s (4 * x.val + j) = true →
        passesMask s (irqPriority s (4 * x.val + j)) = false ∧ passesMask s (u.extractLsb' (4 * j) 3).toNat = false) →
      ∃ t, sfrWrite s (.ipc x) v sel = .ok (t, quiet) ∧ t = { s with ipc := t.ipc } ∧
        ∀ n, irqPriority t n =
          if n / 4 = x.val ∧ implemented s.dev n = true then (u.extractLsb' (4 * (n % 4)) 3).toNat else irqPriority s n)

/-- R123: a write of SR, bit by bit: IPL<2:0> only with NSTDIS = 0, N, OV, Z and C always, SA, SB and SAB can only be
cleared, the other bits are read-only. -/
def Obligations.SrWrites : Prop :=
  ∀ (s : State) (v sel : Word),
    ∃ t, sfrWrite s .sr v sel = .ok (t, quiet) ∧ t = { s with sr := t.sr } ∧
      ∀ b, t.sr.getLsbD b =
        if sel.getLsbD b = false then s.sr.getLsbD b
        else if b ∈ [0, 1, 2, 3] ∨ (b ∈ [5, 6, 7] ∧ nstdis s = false) then v.getLsbD b
        else if b ∈ [10, 12, 13] then s.sr.getLsbD b && v.getLsbD b
        else s.sr.getLsbD b

/-- R124, R128: a write of CORCON, bit by bit: IPL3 can be cleared, but not set; DL and bits 15:13 are not written. A
write of INTCON2 reaches ALTIVT and INTxEP only, and a write of INTTREG nothing. -/
def Obligations.ControlRegisterWrites : Prop :=
  ∀ (s : State) (v sel : Word),
    (∃ t, sfrWrite s .corcon v sel = .ok (t, quiet) ∧ t = { s with corcon := t.corcon } ∧
      ∀ b, t.corcon.getLsbD b =
        if sel.getLsbD b = false then s.corcon.getLsbD b
        else if b ∈ [0, 1, 2, 4, 5, 6, 7, 11, 12] then v.getLsbD b
        else if b = 3 then s.corcon.getLsbD 3 && v.getLsbD 3
        else s.corcon.getLsbD b) ∧
    (∃ t, sfrWrite s .intcon2 v sel = .ok (t, quiet) ∧ t = { s with intcon2 := t.intcon2 } ∧
      ∀ b, t.intcon2.getLsbD b = if b ∈ [15, 2, 1, 0] ∧ sel.getLsbD b = true then v.getLsbD b else s.intcon2.getLsbD b) ∧
    sfrWrite s .inttreg v sel = .ok (s, quiet)

/-- R125: a word write of SPLIM enables the overflow check, a byte write stores its byte only; a write of W15 below
STACK_BASE reports the stack error. -/
def Obligations.StackRegisterWrites : Prop :=
  ∀ (s : State) (v : Word) (h : Half) (c : Byte),
    sfrWrite s .splim v 0xFFFF#16 = .ok ({ s with splim := v, splimWritten := true }, quiet) ∧
    (∃ t, sfrWriteByte s .splim h c = .ok (t, quiet) ∧ t = { s with splim := t.splim } ∧
      (h = .lo → lowByte t.splim = c ∧ highByte t.splim = highByte s.splim) ∧
      (h = .hi → highByte t.splim = c ∧ lowByte t.splim = lowByte s.splim)) ∧
    sfrWrite s (.w 15) v 0xFFFF#16 =
      .ok ({ s with w := s.w.set 15 (v &&& 0xFFFE#16) }, stackEvent (decide (v &&& 0xFFFE#16 < s.dev.stackBase)))

/-- R126, R121: a word or byte write of DISICNT replaces the bits of the 14-bit count that it covers while DISI is
active, a count of 0 ends DISI, the ticks of the writing instruction are not counted, and the write is dropped while
DISI is not active. A DISICNT of fewer bits takes the low bits of the count (R6; the model's choice, log 14). -/
def Obligations.DisicntWrites : Prop :=
  ∀ (s : State) (v sel : Word) (n : Nat),
    let u := (v &&& sel) ||| (s.disicnt.setWidth 16 &&& ~~~sel)
    let c := narrow s.dev.disicntBits (u.extractLsb' 0 14)
    (14 ≤ s.dev.disicntBits → c = u.extractLsb' 0 14) ∧
    (s.disiActive = true → ∃ t, sfrWrite s .disicnt v sel = .ok (t, quiet) ∧
      t = { s with
        disicnt := c
        disiActive := decide (c ≠ 0#14)
        disiLoaded := true } ∧
      (elapse n t).disicnt = c) ∧
    (s.disiActive = false → sfrWrite s .disicnt v sel = .ok (s, quiet))

/-- R127, R121, D14: a word or byte write of INTCON1 that would change MATHERR, ADDRERR, STKERR or OSCFAIL from 0 to 1
is refused; any other gives those of bits 15:6 and 4:1 that it covers the value written, and changes nothing else. -/
def Obligations.Intcon1Writes : Prop :=
  ∀ (s : State) (v sel : Word),
    ((∃ b ∈ [1, 2, 3, 4], sel.getLsbD b = true ∧ v.getLsbD b = true ∧ s.intcon1.getLsbD b = false) →
      sfrWrite s .intcon1 v sel = .error .softwareSetTrapFlag) ∧
    ((∀ b ∈ [1, 2, 3, 4], sel.getLsbD b = true → v.getLsbD b = true → s.intcon1.getLsbD b = true) →
      ∃ t, sfrWrite s .intcon1 v sel = .ok (t, quiet) ∧ t = { s with intcon1 := t.intcon1 } ∧
        ∀ b, t.intcon1.getLsbD b = if b = 0 ∨ b = 5 ∨ sel.getLsbD b = false then s.intcon1.getLsbD b else v.getLsbD b)

/-- R121, R122, R113: at a register's address MOV Wns,f, BSET and BCLR are SFR_WRITE of the word, of the read with the
bit set, and of the read with the bit cleared, and then pc + 2; POP f there is SFR_WRITE of the popped word, after W15
- 2 (that a pop with W15 = 0 counts as a wrap is the model's choice, log 22). SFR_WRITE, SFR_WRITE_BYTE (of the low or
the high byte alone), SFR_BSET, SFR_BCLR and the assignment of a field `<hi:lo>` (`x << lo` is not cut to the field)
are the register write of R121, and then pc + 2. The model's choice: an indirect set or clear at a register's address
is BSET or BCLR there (R119 gives no effect; log 28) and leaves its pointer (log 23), and SFR_READ leaves everything
but pc (R120 names no destination; log 40). -/
def Obligations.RegisterInstructionsWriteTheSfr : Prop :=
  ∀ (s : State) (r : Sfr),
    let write := fun v => sfrWrite s r v 0xFFFF#16
    let bset := fun b : BitVec 4 => write (sfrRead s r ||| (1#16 <<< b.toNat))
    let bclr := fun b : BitVec 4 => write (sfrRead s r &&& ~~~(1#16 <<< b.toNat))
    (∀ f, f.getLsbD 0 = false → sfrAt s.dev f = some r →
      (∀ k, endsInWrite (exec (.movToF k f) s) s (write s.w[k]) false) ∧
      (∀ b, endsInWrite (exec (.bsetF f b) s) s (bset b) false) ∧
      (∀ b, endsInWrite (exec (.bclrF f b) s) s (bclr b) false) ∧
      (ramWordAt s (sp s - 2#16) = true →
        endsInWrite (exec (.popF f) s) s
          (sfrWrite { s with w := s.w.set 15 (sp s - 2#16) } r (ramWord s (sp s - 2#16)) 0xFFFF#16)
          (popStackError s (sp s))) ∧
      (∀ p b, s.w[p] = f →
        let above := p == 15 && s.splimWritten && s.splim < eaOf s.dev (sp s)
        endsInWrite (exec (.bitIndirect .set p b) s) s (bset b) above ∧
        endsInWrite (exec (.bitIndirect .clear p b) s) s (bclr b) above)) ∧
    execAbs (.sfrRead r) s = .next { s with pc := nextPc s } ∧
    (∀ v, endsInWrite (execAbs (.sfrWrite r v) s) s (write v) false) ∧
    (∀ c : Byte,
      endsInWrite (execAbs (.sfrWriteByte r .lo c) s) s (sfrWrite s r (c.setWidth 16) 0x00FF#16) false ∧
      endsInWrite (execAbs (.sfrWriteByte r .hi c) s) s (sfrWrite s r (c.setWidth 16 <<< 8) 0xFF00#16) false) ∧
    (∀ b, endsInWrite (execAbs (.sfrBset r b) s) s (bset b) false ∧
      endsInWrite (execAbs (.sfrBclr r b) s) s (bclr b) false) ∧
    (∀ (hi lo : BitVec 4) (x : Word),
      endsInWrite (execAbs (.field r hi lo x) s) s
        (write ((sfrRead s r &&& ~~~fieldMask hi lo) ||| (x <<< lo.toNat))) false ∧
      ∀ b, b < 16 → (fieldMask hi lo).getLsbD b = (decide (lo.toNat ≤ b) && decide (b ≤ hi.toNat)))

/-! Arbitration (60_exceptions.md R135 to R139, R73; 10_state.md R33). -/

/-- R33: flag, enable and priority of IRQ n are IFS(n div 16)<n mod 16>, IEC(n div 16)<n mod 16> and the three low
bits of nibble n mod 4 of IPC(n div 4); they read 0 for a number without a source, which never requests. -/
def Obligations.SourceBitPositions : Prop :=
  ∀ (s : State) (n : Nat),
    (∀ h : n < 118, implemented s.dev n = true →
      irqFlag s n = (s.ifs[n / 16]'(by omega)).getLsbD (n % 16) ∧
      irqEnable s n = (s.iec[n / 16]'(by omega)).getLsbD (n % 16) ∧
      irqPriority s n = (s.ipc[n / 4]'(by omega)).toNat / 2 ^ (4 * (n % 4)) % 8 ∧
      exceptionVector s (.irq n) = n + 8) ∧
    (implemented s.dev n = true → n < 118) ∧
    (implemented s.dev n = false →
      irqFlag s n = false ∧ irqEnable s n = false ∧ irqPriority s n = 0 ∧ requests s n = false)

/-- R136, R137: the winner is the requesting source of the greatest assigned priority, and among equals the one with
the smallest number; there is none exactly when nothing requests. -/
def Obligations.WinnerIsGreatestThenFirst : Prop :=
  ∀ s : State,
    (∀ n, winner s = some n ↔ requests s n = true ∧
      ∀ m, requests s m = true → m ≠ n →
        irqPriority s m < irqPriority s n ∨ (irqPriority s m = irqPriority s n ∧ n < m)) ∧
    (winner s = none ↔ ∀ m, requests s m = false)

/-- R135, R138: an interrupt is presented exactly when it is the winner and its priority exceeds cpuIPL and, while
DISI is active, is 7; a trap exactly when its flag is 1 and its level exceeds cpuIPL. So an interrupt is presented
whenever any requester passes; none at IPL<2:0> = 7 or with IPL3 set; and IPL<2:0> and DISI never mask a trap (R173;
trap levels as in R134). -/
def Obligations.PresentationTest : Prop :=
  ∀ s : State,
    cpuIPL s = 8 * (s.corcon.getLsbD 3).toNat + s.sr.toNat / 32 % 8 ∧ cpuIPL s ≤ 15 ∧
    (∀ n, presentableIrq s = some n ↔ winner s = some n ∧ cpuIPL s < irqPriority s n ∧
      (s.disiActive = false ∨ irqPriority s n = 7)) ∧
    (∀ t, trapPresentable s t = true ↔ s.intcon1.getLsbD (trapFlagBit t) = true ∧ cpuIPL s < trapLevel s.dev t) ∧
    ((∃ n, requests s n = true ∧ cpuIPL s < irqPriority s n ∧ (s.disiActive = false ∨ irqPriority s n = 7)) →
      (presentableIrq s).isSome = true) ∧
    (ipl s = 7#3 ∨ ipl3 s = true → presentableIrq s = none) ∧
    (trapLevelsOrdered s.dev = true →
      ∀ t, s.intcon1.getLsbD (trapFlagBit t) = true → ipl3 s = false → trapPresentable s t = true)

/-- R139: the boundary check takes a presentable hard trap at once, the greatest trap before any interrupt; it defers
a soft trap or an interrupt only while the count is below its bound, counting; and changes nothing but the count. -/
def Obligations.BoundaryCheckChooses : Prop :=
  ∀ (s u : State) (x : Option Exception), boundaryCheck s = (x, u) →
    u = { s with skid := u.skid } ∧
    (∀ t, trapPresentable s t = true →
      (∀ v, trapPresentable s v = true → v ≠ t → trapLevel s.dev v < trapLevel s.dev t) →
      (x = some (.trap t) ∧ u.skid = 0) ∨
      (x = none ∧ hardTrap t = false ∧ s.skid < s.dev.skidMaxSoft ∧ u.skid = s.skid + 1)) ∧
    ((∀ t, trapPresentable s t = false) → ∀ n, presentableIrq s = some n →
      (x = some (.irq n) ∧ u.skid = 0) ∨ (x = none ∧ s.skid < s.dev.skidMaxIrq ∧ u.skid = s.skid + 1)) ∧
    ((∀ t, trapPresentable s t = false) → presentableIrq s = none → x = none ∧ u.skid = 0)

/-- R134, R147, R23 to R29, R31, R32, R35 to R51: the levels, classes and flag bits of the four traps, no two of which
share a level; and the implemented bits of IFSx and IECx, and of IPCx, with every source present. -/
def Obligations.TrapAndMaskTables : Prop :=
  (trapLevel defaultDevice .oscFail = 14 ∧ trapLevel defaultDevice .addressError = 13 ∧
    trapLevel defaultDevice .stackError = 12 ∧ trapLevel defaultDevice .mathError = 11) ∧
  trapLevelsOrdered defaultDevice = true ∧
  (trapFlagBit .oscFail = 1 ∧ trapFlagBit .addressError = 3 ∧ trapFlagBit .stackError = 2 ∧
    trapFlagBit .mathError = 4) ∧
  (∀ t, hardTrap t = decide (13 ≤ trapLevel defaultDevice t)) ∧
  (∀ d t u, trapLevelsOrdered d = true → trapLevel d t = trapLevel d u → t = u) ∧
  [0, 1, 3, 4, 5, 6, 7].map (flagMask defaultDevice) =
    [0x3FEF#16, 0x201F#16, 0x0200#16, 0x0002#16, 0xC001#16, 0xC383#16, 0x001F#16] ∧
  [0, 1, 2, 3, 4, 5, 7, 14, 16, 20, 23, 24, 25, 26, 27, 28, 29].map (priorityMask defaultDevice) =
    [0x7777#16, 0x7770#16, 0x7777#16, 0x0077#16, 0x7777#16, 0x0007#16, 0x0070#16, 0x0070#16, 0x0070#16, 0x0007#16,
      0x7700#16, 0x0077#16, 0x7000#16, 0x0077#16, 0x7700#16, 0x7777#16, 0x0007#16]

/-- R73: the address of vector v of the table that ALTIVT selects, with the table bases of R6 and a pc that can hold
it. -/
def Obligations.VectorAddressFormula : Prop :=
  ∀ (s : State) (v : Nat), v ≤ 125 → 9 ≤ s.dev.pcBits → s.dev.ivtBase = 0x000004 → s.dev.aivtBase = 0x000104 →
    (vectorAddress s v).toNat = (if s.intcon2.getLsbD 15 = true then 0x000104 else 0x000004) + 2 * v

/-! Taking an exception and returning (60_exceptions.md R140 to R146, R170, R177). -/

/-- R140, R143, R170: the entry of a presentable interrupt whose vector word is usable (bit 23 and bit 0 clear, D13,
and, the model's choice of log 2, no more than PC_BITS bits) and whose frame lies in RAM: the four bytes of the frame
by the device's FRAME_LAYOUT (with the layout of D3 they are R140's words), IPL<2:0> (7 with NSTDIS), INTTREG, W15 +
4, pc from the vector; no flag is cleared, and the entry's own ticks will be counted (R101). -/
def Obligations.InterruptEntry : Prop :=
  ∀ (s : State) (n : Nat) (v : ProgWord), presentableIrq s = some n → s.pc.getLsbD 0 = false →
    ramWordAt s (sp s) = true → ramWordAt s (sp s + 2#16) = true →
    progAt s (vectorAddress s (n + 8)) = some (.word v) → v.getLsbD 23 = false → v.getLsbD 0 = false →
    narrow s.dev.pcBits (v.extractLsb' 0 23) = v.extractLsb' 0 23 →
    ∃ t, enterException (.irq n) s = .next t ∧
      t = { s with
        pc := v.extractLsb' 0 23
        w := s.w.set 15 (sp s + 4#16)
        sr := t.sr
        inttreg := BitVec.ofNat 16 (256 * irqPriority s n + n)
        inttregFresh := true
        disiLoaded := false
        power := .run
        bufPc := s.pc
        bufSrl := srl s
        mem := t.mem
        intcon1 := s.intcon1 ||| stkerrIf (pushStackError s (sp s) || pushStackError s (sp s + 2#16)) } ∧
      ipl t = (if nstdis s then 7#3 else BitVec.ofNat 3 (irqPriority s n)) ∧
      (∀ b, b < 5 ∨ 7 < b → t.sr.getLsbD b = s.sr.getLsbD b) ∧
      (∀ a, ramRead t a =
        if a = sp s then lowByte (frameFirst s s.pc)
        else if a = sp s + 1#16 then highByte (frameFirst s s.pc)
        else if a = sp s + 2#16 then lowByte (frameSecond s s.pc)
        else if a = sp s + 3#16 then highByte (frameSecond s s.pc)
        else ramRead s a) ∧
      (s.dev.frame = defaultFrame →
        frameFirst s s.pc = s.pc.extractLsb' 0 16 ∧
        frameSecond s s.pc = s.sr.extractLsb' 0 8 ++ BitVec.ofBool (s.corcon.getLsbD 3) ++ s.pc.extractLsb' 16 7)

/-- R142, R150 (log 18): the entry of a trap whose vector word is usable (as above) and whose frame lies in RAM: the
same frame with the old IPL3 and the return address pc (for an address error of cause 4 or 5, pc or pc + 2), cpuIPL
becomes the trap's level whatever NSTDIS is, ILR the level (trap levels as in R134), the status flag stays. -/
def Obligations.TrapEntry : Prop :=
  ∀ (s : State) (x : Trap) (v : ProgWord), trapPresentable s x = true → s.pc.getLsbD 0 = false →
    ramWordAt s (sp s) = true → ramWordAt s (sp s + 2#16) = true →
    progAt s (vectorAddress s (trapVector s.dev x)) = some (.word v) → v.getLsbD 23 = false → v.getLsbD 0 = false →
    narrow s.dev.pcBits (v.extractLsb' 0 23) = v.extractLsb' 0 23 →
    ∃ t ret, enterException (.trap x) s = .next t ∧
      (ret = s.pc ∨ (x = .addressError ∧ s.badFetch = true ∧ ret = nextPc s)) ∧
      t = { s with
        pc := v.extractLsb' 0 23
        w := s.w.set 15 (sp s + 4#16)
        sr := t.sr
        corcon := s.corcon ||| 0x0008#16
        inttreg := t.inttreg
        inttregFresh := true
        disiLoaded := false
        power := .run
        badFetch := s.badFetch && x != .addressError
        bufPc := ret
        bufSrl := srl s
        mem := t.mem
        intcon1 := s.intcon1 ||| stkerrIf (pushStackError s (sp s) || pushStackError s (sp s + 2#16)) } ∧
      (trapLevelsOrdered s.dev = true →
        cpuIPL t = trapLevel s.dev x ∧ (t.inttreg.extractLsb' 8 4).toNat = trapLevel s.dev x) ∧
      (∀ b, b < 5 ∨ 7 < b → t.sr.getLsbD b = s.sr.getLsbD b) ∧
      (∀ a, ramRead t a =
        if a = sp s then lowByte (frameFirst s ret)
        else if a = sp s + 1#16 then highByte (frameFirst s ret)
        else if a = sp s + 2#16 then lowByte (frameSecond s ret)
        else if a = sp s + 3#16 then highByte (frameSecond s ret)
        else ramRead s a) ∧
      (s.dev.frame = defaultFrame →
        frameFirst s ret = ret.extractLsb' 0 16 ∧
        frameSecond s ret = s.sr.extractLsb' 0 8 ++ BitVec.ofBool (s.corcon.getLsbD 3) ++ ret.extractLsb' 16 7)

/-- R102, R144, R177: with any FRAME_LAYOUT that has a place for all that is saved, whatever a handler does, a RETFIE
with W15 and the frame's four bytes as the entry left them restores pc, SRL, IPL3 and so cpuIPL, and W15, and keeps
the rest of the handler's state. -/
def Obligations.RetfieUndoesEntry : Prop :=
  ∀ (x : Exception) (s u h : State), pcOf s.dev s.pc = s.pc → frameComplete s.dev.frame = true →
    ramWordAt s (sp s) = true → ramWordAt s (sp s + 2#16) = true → enterException x s = .next u →
    sp h = sp u → h.dev = u.dev →
    (∀ k : BitVec 16, k < 4#16 → ramRead h (sp s + k) = ramRead u (sp s + k)) →
    ∃ t, exec .retfie h = .next t ∧ t.pc = returnAddress s x ∧ srl t = srl s ∧ ipl3 t = ipl3 s ∧
      cpuIPL t = cpuIPL s ∧ sp t = sp s ∧
      t = { h with
        pc := t.pc
        w := h.w.set 15 (sp s)
        sr := t.sr
        corcon := t.corcon
        intcon1 := t.intcon1
        inttregFresh := false } ∧
      t.sr.extractLsb' 8 8 = h.sr.extractLsb' 8 8 ∧ (∀ b, b ≠ 3 → t.corcon.getLsbD b = h.corcon.getLsbD b) ∧
      (∀ b, b ≠ 2 → t.intcon1.getLsbD b = h.intcon1.getLsbD b)

/-- R143, R145: after an entry whose frame lies in RAM, an interrupt handler admits only interrupts of a greater
assigned priority (none with NSTDIS = 1) and every pending trap; a trap handler admits no interrupt and only traps of
a greater level (trap levels as in R134). -/
def Obligations.HandlersNestByLevel : Prop :=
  ∀ (s u : State) (x : Exception), ramWordAt s (sp s) = true → ramWordAt s (sp s + 2#16) = true →
    trapLevelsOrdered s.dev = true → enterException x s = .next u →
    (∀ n, x = .irq n → presentableIrq s = some n →
      (∀ m, presentableIrq u = some m → nstdis s = false ∧ irqPriority s n < irqPriority s m) ∧
      ∀ v, trapPending s v = true → trapPresentable u v = true) ∧
    (∀ t, x = .trap t → presentableIrq u = none ∧ ∀ v, trapPresentable u v = true → trapLevel s.dev t < trapLevel s.dev v)

/-- R146, D15: a hard trap event resets the device when a higher trap is pending or in progress, stops the model at
its own level, and else sets its flag alone. -/
def Obligations.HardTrapEvent : Prop :=
  ∀ (s : State) (t : Trap), hardTrap t = true →
    (conflicts s t →
      ∃ r, raiseHard t s = .next r ∧ r.traprSet = true ∧ (sfrRead r .rcon).getLsbD 15 = true ∧
        r.pc = resetPc s.dev ∧ r.intcon1 = 0#16 ∧ cpuIPL r = 0 ∧ r.prog = s.prog) ∧
    (meetsOwnHandler s t → raiseHard t s = .fault (.hardTrapInOwnHandler t)) ∧
    (admitsTrap s t →
      raiseHard t s = .next { s with intcon1 := s.intcon1 ||| (1#16 <<< trapFlagBit t) })

/-! Reset, ticks, the environment and sleep (70_reset_and_hazards.md, 40_system_instructions.md R101, 60_exceptions.md). -/

/-- R58: the reset values of the registers; R135: cpuIPL is 0. -/
def Obligations.ResetValues : Prop :=
  State.reset.pc = 0x000000#23 ∧ sp State.reset = 0x0800#16 ∧ State.reset.splimWritten = false ∧
  State.reset.sr = 0x0000#16 ∧ State.reset.corcon = 0x0020#16 ∧ State.reset.disicnt = 0#14 ∧
  State.reset.disiActive = false ∧ State.reset.intcon1 = 0x0000#16 ∧ State.reset.intcon2 = 0x0000#16 ∧
  (∀ x : Fin 8, State.reset.ifs[x] = 0x0000#16 ∧ State.reset.iec[x] = 0x0000#16) ∧
  ([0, 1, 2, 3, 4, 5, 7, 14, 16, 20, 23, 24, 25, 26, 27, 28, 29] : List (Fin 30)).map (fun x => State.reset.ipc[x]) =
    [0x4444#16, 0x4440#16, 0x4444#16, 0x0044#16, 0x4444#16, 0x0004#16, 0x0040#16, 0x0040#16, 0x0040#16, 0x0004#16,
      0x4400#16, 0x0044#16, 0x4000#16, 0x0044#16, 0x4400#16, 0x4444#16, 0x0004#16] ∧
  State.reset.inttreg = 0x0000#16 ∧ State.reset.power = .run ∧ State.reset.skid = 0 ∧ cpuIPL State.reset = 0

/-- R101, R107: n ticks take n from DISICNT while DISI is active, which ends when the count reaches 0; the ticks of
the instruction that loaded the counter are excluded; nothing else changes. -/
def Obligations.TicksCountDown : Prop :=
  ∀ (n : Nat) (s : State),
    (s.disiLoaded = false → s.disiActive = decide (s.disicnt ≠ 0#14) →
      elapse n s = { s with
        disicnt := BitVec.ofNat 14 (s.disicnt.toNat - n)
        disiActive := decide (n < s.disicnt.toNat) }) ∧
    (s.disiLoaded = true → elapse n s = { s with disiLoaded := false })

/-- R132, R168: a peripheral's event sets its own flag, enabled or not, whatever its priority, and nothing else (INT0,
INT1, INT2 and numbers without a source have no such event). A pin takes its new level, and the edge that
INTCON2.INTxEP selects sets the flag of that pin's source (IFS0<0>, IFS1<4>, IFS1<13>), and nothing else. -/
def Obligations.EnvironmentSetsFlags : Prop :=
  ∀ s : State,
    (∀ n, ∃ t, envStep (.peripheral n) s = .next t ∧ t = { s with ifs := t.ifs } ∧
      ∀ m, irqFlag t m = (irqFlag s m || (decide (m = n) && implemented s.dev n && decide (n ∉ [0, 20, 29])))) ∧
    (∀ (x : Fin 3) (level : Bool),
      ∃ t, envStep (.pin x level) s = .next t ∧ t = { s with ifs := t.ifs, pins := s.pins.set x level } ∧
        ∀ m, irqFlag t m = (irqFlag s m || (decide (m = [0, 20, 29][x]) && implemented s.dev m &&
          (if s.intcon2.getLsbD x.val then s.pins[x] && !level else !s.pins[x] && level))))

/-- R149, R146, D17: an oscillator failure sets OSCFAIL and makes OSCCON.CF read 1; inside its own handler it stops
the model, on a conflict (CPU level 15) it resets the device, and while the device sleeps the model refuses it. -/
def Obligations.OscillatorFailure : Prop :=
  ∀ s : State,
    (s.power = .run → admitsTrap s .oscFail → ∃ t, envStep .oscillatorFailure s = .next t ∧
      t = { s with cfSet := true, intcon1 := s.intcon1 ||| 0x0002#16 } ∧ (sfrRead t .osccon).getLsbD 3 = true) ∧
    (s.power = .run → meetsOwnHandler s .oscFail → envStep .oscillatorFailure s = .fault (.hardTrapInOwnHandler .oscFail)) ∧
    (s.power = .run → conflicts s .oscFail →
      ∃ t, envStep .oscillatorFailure s = .next t ∧ t.traprSet = true ∧ t.pc = resetPc s.dev) ∧
    (s.power ≠ .run → envStep .oscillatorFailure s = .refused .oscFailWhileAsleep)

/-- R103, R165, R55: PWRSAV enters its mode with pc at the next instruction. A sleeping device wakes exactly when some
enabled source of priority at least 1 has its flag set, whatever cpuIPL and DISI are; no instruction is executed in
that turn. That a turn of a device that does not wake changes nothing, DISICNT included, is the model's choice (log
31; N13), and that PWRSAV writes no flag its reading of "none stated" (log 41). -/
def Obligations.SleepAndWake : Prop :=
  ∀ (s : State) (m : SleepMode),
    exec (.pwrsav m) s = .next { s with pc := nextPc s, power := .asleep m } ∧
    (s.power = .asleep m →
      ((∃ n, irqFlag s n = true ∧ irqEnable s n = true ∧ 1 ≤ irqPriority s n) →
        ∃ k, cpuTurn s = .next (elapse k { s with power := .run })) ∧
      ((∀ n, irqFlag s n = true → irqEnable s n = true → irqPriority s n = 0) → cpuTurn s = .next s))

/-! Promises about every instruction and every step. -/

/-- R110 item 5, R124, R128, R171: no operation but RETFIE sets IPL3, none but DISI makes DISI active, and none writes
INTTREG unless it resets the device. -/
def Obligations.ReadOnlyStatus : Prop :=
  ∀ s t : State,
    (∀ i, exec i s = .next t →
      (i ≠ .retfie → ipl3 t = true → ipl3 s = true) ∧
      ((∀ k, i ≠ .disi k) → t.disiActive = true → s.disiActive = true) ∧
      (t.inttreg = s.inttreg ∨ (t.inttreg = 0#16 ∧ t.pc = resetPc s.dev))) ∧
    (∀ o, execAbs o s = .next t →
      (ipl3 t = true → ipl3 s = true) ∧ (t.disiActive = true → s.disiActive = true) ∧
      (t.inttreg = s.inttreg ∨ (t.inttreg = 0#16 ∧ t.pc = resetPc s.dev)))

/-- R123, R15: with NSTDIS = 1 no instruction but RETFIE changes IPL<2:0>, unless it resets the device (a MOV.D is
left out: its two words may be INTCON1 and then SR). -/
def Obligations.IplIsLockedWithoutNesting : Prop :=
  ∀ (s t : State) (i : Instr), nstdis s = true → i ≠ .retfie → (∀ form, i ≠ .movD form) → exec i s = .next t →
    ipl t = ipl s ∨ (t.sr = 0#16 ∧ t.pc = resetPc s.dev)

/-- R151, D32: an operation that sets ADDRERR has written no data space: RAM, the flag, enable and priority registers,
INTCON2, SPLIM, DISICNT, INTTREG and the bits of RCON and OSCCON are as before, and the bits of INTCON1 that no trap
event sets; but for RETFIE, which restores SRL and IPL3, CORCON and IPL<2:0> are as before too, and of the
instructions that R92 encodes the whole of SR. -/
def Obligations.AddressErrorInhibitsWrites : Prop :=
  ∀ (s t : State), s.intcon1.getLsbD 3 = false → t.intcon1.getLsbD 3 = true →
    ((∃ i, exec i s = .next t) ∨ (∃ o, execAbs o s = .next t)) →
    t.mem = s.mem ∧ t.ifs = s.ifs ∧ t.iec = s.iec ∧ t.ipc = s.ipc ∧ t.intcon2 = s.intcon2 ∧ t.splim = s.splim ∧
    t.splimWritten = s.splimWritten ∧ t.disicnt = s.disicnt ∧ t.disiActive = s.disiActive ∧
    t.inttreg = s.inttreg ∧ t.traprSet = s.traprSet ∧ t.cfSet = s.cfSet ∧
    t.intcon1 &&& 0x8721#16 = s.intcon1 &&& 0x8721#16 ∧
    (exec .retfie s ≠ .next t → t.corcon = s.corcon ∧ ipl t = ipl s) ∧
    (∀ i, i.encoded = true → i ≠ .retfie → exec i s = .next t → t.sr = s.sr)

/-- R150 causes 1 and 3, R116, R110 item 3, R146, R151 (trap levels as in R134): a MOV.D at an odd address, a
MAC-class fetch at an odd address or from the other space, and an indirect or PSV bit test at an odd address raise the
address error. Where R146 admits the trap it sets ADDRERR and no data space is written; the results in registers and
the operand forms are the model's choice (log 21, log 23). -/
def Obligations.OperandAddressErrors : Prop :=
  ∀ s : State, trapLevelsOrdered s.dev = true →
    (∀ (p d : WReg) (psv : Bool), (s.w[p]).getLsbD 0 = true →
      raisesAddressError (.movD (.load p d psv)) s (fun t =>
        t = { s with pc := nextPc s, w := t.w, sr := t.sr, intcon1 := t.intcon1, badFetch := false } ∧
        (∀ j, j ≠ d → j ≠ pairNext d → t.w[j] = s.w[j]) ∧ keptFlags s t)) ∧
    (∀ src p : WReg, (s.w[p]).getLsbD 0 = true →
      raisesAddressError (.movD (.store src p)) s (fun t =>
        t = { s with pc := nextPc s, sr := t.sr, intcon1 := t.intcon1, badFetch := false } ∧ keptFlags s t)) ∧
    (∀ (acc : Acc) (x y : Option WReg),
      (∃ p, x = some p ∧ ((s.w[p]).getLsbD 0 = true ∨ inYSpace s.dev s.w[p] = true)) ∨
        (∃ p, y = some p ∧ ((s.w[p]).getLsbD 0 = true ∨ inYSpace s.dev s.w[p] = false)) →
      raisesAddressError (.macClass acc x y) s (fun t =>
        t = { s with
          pc := nextPc s
          sr := t.sr
          accA := if acc = .a then t.accA else s.accA
          accB := if acc = .b then t.accB else s.accB
          intcon1 := t.intcon1
          badFetch := false } ∧ ipl t = ipl s)) ∧
    (∀ (i : Instr) (src : BitSource) (p : WReg) (b : BitVec 4), i = .btsc src b ∨ i = .btss src b →
      src = .indirect p ∨ src = .psv p → (s.w[p]).getLsbD 0 = true →
      raisesAddressError i s (fun t =>
        t = { s with pc := t.pc, sr := t.sr, intcon1 := t.intcon1, badFetch := false } ∧ keptFlags s t))

/-- R84, D12 (log 34): no step changes program memory or the device. -/
def Obligations.ProgramMemoryIsConstant : Prop :=
  ∀ s t : State, step s = .next t → t.prog = s.prog ∧ t.dev = s.dev

/-- The reset state is well formed. -/
def Obligations.ResetIsWellFormed : Prop := wellFormedState State.reset = true

/-- Every step keeps the well-formedness of the state: the canonical form of memory, even pc and W15 (D19, R11), pc
and DISICNT within PC_BITS and DISICNT_BITS (R6), disi_active == (DISICNT != 0) (R126), unimplemented bits 0 (R7, R33,
R174), the skid within its bounds (R139). -/
def Obligations.StepKeepsWellFormed : Prop :=
  ∀ s t : State, wellFormedState s = true → step s = .next t → wellFormedState t = true
end

