-- ==== Sys2Proof/Laws/State.lean ====
section
/-! SUPPORT. For each named update of the state, what it does to each field. -/

namespace Sys2Proof.Machine

@[simp] theorem advance_pc (s : State) : (advance s).pc = nextPc s := rfl
@[simp] theorem advance_w (s : State) : (advance s).w = s.w := rfl
@[simp] theorem advance_splim (s : State) : (advance s).splim = s.splim := rfl
@[simp] theorem advance_splimWritten (s : State) : (advance s).splimWritten = s.splimWritten := rfl
@[simp] theorem advance_sr (s : State) : (advance s).sr = s.sr := rfl
@[simp] theorem advance_corcon (s : State) : (advance s).corcon = s.corcon := rfl
@[simp] theorem advance_disicnt (s : State) : (advance s).disicnt = s.disicnt := rfl
@[simp] theorem advance_disiActive (s : State) : (advance s).disiActive = s.disiActive := rfl
@[simp] theorem advance_intcon1 (s : State) : (advance s).intcon1 = s.intcon1 := rfl
@[simp] theorem advance_intcon2 (s : State) : (advance s).intcon2 = s.intcon2 := rfl
@[simp] theorem advance_ifs (s : State) : (advance s).ifs = s.ifs := rfl
@[simp] theorem advance_iec (s : State) : (advance s).iec = s.iec := rfl
@[simp] theorem advance_ipc (s : State) : (advance s).ipc = s.ipc := rfl
@[simp] theorem advance_inttreg (s : State) : (advance s).inttreg = s.inttreg := rfl
@[simp] theorem advance_traprSet (s : State) : (advance s).traprSet = s.traprSet := rfl
@[simp] theorem advance_cfSet (s : State) : (advance s).cfSet = s.cfSet := rfl
@[simp] theorem advance_power (s : State) : (advance s).power = s.power := rfl
@[simp] theorem advance_accA (s : State) : (advance s).accA = s.accA := rfl
@[simp] theorem advance_accB (s : State) : (advance s).accB = s.accB := rfl
@[simp] theorem advance_pins (s : State) : (advance s).pins = s.pins := rfl
@[simp] theorem advance_bufPc (s : State) : (advance s).bufPc = s.bufPc := rfl
@[simp] theorem advance_bufSrl (s : State) : (advance s).bufSrl = s.bufSrl := rfl
@[simp] theorem advance_skid (s : State) : (advance s).skid = s.skid := rfl
@[simp] theorem advance_mem (s : State) : (advance s).mem = s.mem := rfl
@[simp] theorem advance_prog (s : State) : (advance s).prog = s.prog := rfl
@[simp] theorem advance_inttregFresh (s : State) : (advance s).inttregFresh = s.inttregFresh := rfl
@[simp] theorem advance_disiLoaded (s : State) : (advance s).disiLoaded = s.disiLoaded := rfl
@[simp] theorem advance_badFetch (s : State) : (advance s).badFetch = s.badFetch := rfl
@[simp] theorem advance_divideLoops (s : State) : (advance s).divideLoops = s.divideLoops := rfl
@[simp] theorem advance_ramEpoch (s : State) : (advance s).ramEpoch = s.ramEpoch := rfl
@[simp] theorem advance_draws (s : State) : (advance s).draws = s.draws := rfl
@[simp] theorem advance_agenda (s : State) : (advance s).agenda = s.agenda := rfl
@[simp] theorem advance_dev (s : State) : (advance s).dev = s.dev := rfl

@[simp] theorem setPc_pc (s : State) (a : ProgAddr) : (setPc s a).pc = pcOf s.dev a := rfl
@[simp] theorem setPc_w (s : State) (a : ProgAddr) : (setPc s a).w = s.w := rfl
@[simp] theorem setPc_splim (s : State) (a : ProgAddr) : (setPc s a).splim = s.splim := rfl
@[simp] theorem setPc_splimWritten (s : State) (a : ProgAddr) : (setPc s a).splimWritten = s.splimWritten := rfl
@[simp] theorem setPc_sr (s : State) (a : ProgAddr) : (setPc s a).sr = s.sr := rfl
@[simp] theorem setPc_corcon (s : State) (a : ProgAddr) : (setPc s a).corcon = s.corcon := rfl
@[simp] theorem setPc_disicnt (s : State) (a : ProgAddr) : (setPc s a).disicnt = s.disicnt := rfl
@[simp] theorem setPc_disiActive (s : State) (a : ProgAddr) : (setPc s a).disiActive = s.disiActive := rfl
@[simp] theorem setPc_intcon1 (s : State) (a : ProgAddr) : (setPc s a).intcon1 = s.intcon1 := rfl
@[simp] theorem setPc_intcon2 (s : State) (a : ProgAddr) : (setPc s a).intcon2 = s.intcon2 := rfl
@[simp] theorem setPc_ifs (s : State) (a : ProgAddr) : (setPc s a).ifs = s.ifs := rfl
@[simp] theorem setPc_iec (s : State) (a : ProgAddr) : (setPc s a).iec = s.iec := rfl
@[simp] theorem setPc_ipc (s : State) (a : ProgAddr) : (setPc s a).ipc = s.ipc := rfl
@[simp] theorem setPc_inttreg (s : State) (a : ProgAddr) : (setPc s a).inttreg = s.inttreg := rfl
@[simp] theorem setPc_traprSet (s : State) (a : ProgAddr) : (setPc s a).traprSet = s.traprSet := rfl
@[simp] theorem setPc_cfSet (s : State) (a : ProgAddr) : (setPc s a).cfSet = s.cfSet := rfl
@[simp] theorem setPc_power (s : State) (a : ProgAddr) : (setPc s a).power = s.power := rfl
@[simp] theorem setPc_accA (s : State) (a : ProgAddr) : (setPc s a).accA = s.accA := rfl
@[simp] theorem setPc_accB (s : State) (a : ProgAddr) : (setPc s a).accB = s.accB := rfl
@[simp] theorem setPc_pins (s : State) (a : ProgAddr) : (setPc s a).pins = s.pins := rfl
@[simp] theorem setPc_bufPc (s : State) (a : ProgAddr) : (setPc s a).bufPc = s.bufPc := rfl
@[simp] theorem setPc_bufSrl (s : State) (a : ProgAddr) : (setPc s a).bufSrl = s.bufSrl := rfl
@[simp] theorem setPc_skid (s : State) (a : ProgAddr) : (setPc s a).skid = s.skid := rfl
@[simp] theorem setPc_mem (s : State) (a : ProgAddr) : (setPc s a).mem = s.mem := rfl
@[simp] theorem setPc_prog (s : State) (a : ProgAddr) : (setPc s a).prog = s.prog := rfl
@[simp] theorem setPc_inttregFresh (s : State) (a : ProgAddr) : (setPc s a).inttregFresh = s.inttregFresh := rfl
@[simp] theorem setPc_disiLoaded (s : State) (a : ProgAddr) : (setPc s a).disiLoaded = s.disiLoaded := rfl
@[simp] theorem setPc_badFetch (s : State) (a : ProgAddr) : (setPc s a).badFetch = s.badFetch := rfl
@[simp] theorem setPc_divideLoops (s : State) (a : ProgAddr) : (setPc s a).divideLoops = s.divideLoops := rfl
@[simp] theorem setPc_ramEpoch (s : State) (a : ProgAddr) : (setPc s a).ramEpoch = s.ramEpoch := rfl
@[simp] theorem setPc_draws (s : State) (a : ProgAddr) : (setPc s a).draws = s.draws := rfl
@[simp] theorem setPc_agenda (s : State) (a : ProgAddr) : (setPc s a).agenda = s.agenda := rfl
@[simp] theorem setPc_dev (s : State) (a : ProgAddr) : (setPc s a).dev = s.dev := rfl

@[simp] theorem putW_pc (s : State) (i : WReg) (v : Word) : (putW s i v).pc = s.pc := rfl
@[simp] theorem putW_w (s : State) (i : WReg) (v : Word) : (putW s i v).w = s.w.set i (if i = 15 then evenPart v else v) := rfl
@[simp] theorem putW_splim (s : State) (i : WReg) (v : Word) : (putW s i v).splim = s.splim := rfl
@[simp] theorem putW_splimWritten (s : State) (i : WReg) (v : Word) : (putW s i v).splimWritten = s.splimWritten := rfl
@[simp] theorem putW_sr (s : State) (i : WReg) (v : Word) : (putW s i v).sr = s.sr := rfl
@[simp] theorem putW_corcon (s : State) (i : WReg) (v : Word) : (putW s i v).corcon = s.corcon := rfl
@[simp] theorem putW_disicnt (s : State) (i : WReg) (v : Word) : (putW s i v).disicnt = s.disicnt := rfl
@[simp] theorem putW_disiActive (s : State) (i : WReg) (v : Word) : (putW s i v).disiActive = s.disiActive := rfl
@[simp] theorem putW_intcon1 (s : State) (i : WReg) (v : Word) : (putW s i v).intcon1 = s.intcon1 := rfl
@[simp] theorem putW_intcon2 (s : State) (i : WReg) (v : Word) : (putW s i v).intcon2 = s.intcon2 := rfl
@[simp] theorem putW_ifs (s : State) (i : WReg) (v : Word) : (putW s i v).ifs = s.ifs := rfl
@[simp] theorem putW_iec (s : State) (i : WReg) (v : Word) : (putW s i v).iec = s.iec := rfl
@[simp] theorem putW_ipc (s : State) (i : WReg) (v : Word) : (putW s i v).ipc = s.ipc := rfl
@[simp] theorem putW_inttreg (s : State) (i : WReg) (v : Word) : (putW s i v).inttreg = s.inttreg := rfl
@[simp] theorem putW_traprSet (s : State) (i : WReg) (v : Word) : (putW s i v).traprSet = s.traprSet := rfl
@[simp] theorem putW_cfSet (s : State) (i : WReg) (v : Word) : (putW s i v).cfSet = s.cfSet := rfl
@[simp] theorem putW_power (s : State) (i : WReg) (v : Word) : (putW s i v).power = s.power := rfl
@[simp] theorem putW_accA (s : State) (i : WReg) (v : Word) : (putW s i v).accA = s.accA := rfl
@[simp] theorem putW_accB (s : State) (i : WReg) (v : Word) : (putW s i v).accB = s.accB := rfl
@[simp] theorem putW_pins (s : State) (i : WReg) (v : Word) : (putW s i v).pins = s.pins := rfl
@[simp] theorem putW_bufPc (s : State) (i : WReg) (v : Word) : (putW s i v).bufPc = s.bufPc := rfl
@[simp] theorem putW_bufSrl (s : State) (i : WReg) (v : Word) : (putW s i v).bufSrl = s.bufSrl := rfl
@[simp] theorem putW_skid (s : State) (i : WReg) (v : Word) : (putW s i v).skid = s.skid := rfl
@[simp] theorem putW_mem (s : State) (i : WReg) (v : Word) : (putW s i v).mem = s.mem := rfl
@[simp] theorem putW_prog (s : State) (i : WReg) (v : Word) : (putW s i v).prog = s.prog := rfl
@[simp] theorem putW_inttregFresh (s : State) (i : WReg) (v : Word) : (putW s i v).inttregFresh = s.inttregFresh := rfl
@[simp] theorem putW_disiLoaded (s : State) (i : WReg) (v : Word) : (putW s i v).disiLoaded = s.disiLoaded := rfl
@[simp] theorem putW_badFetch (s : State) (i : WReg) (v : Word) : (putW s i v).badFetch = s.badFetch := rfl
@[simp] theorem putW_divideLoops (s : State) (i : WReg) (v : Word) : (putW s i v).divideLoops = s.divideLoops := rfl
@[simp] theorem putW_ramEpoch (s : State) (i : WReg) (v : Word) : (putW s i v).ramEpoch = s.ramEpoch := rfl
@[simp] theorem putW_draws (s : State) (i : WReg) (v : Word) : (putW s i v).draws = s.draws := rfl
@[simp] theorem putW_agenda (s : State) (i : WReg) (v : Word) : (putW s i v).agenda = s.agenda := rfl
@[simp] theorem putW_dev (s : State) (i : WReg) (v : Word) : (putW s i v).dev = s.dev := rfl

@[simp] theorem popState_pc (s : State) : (popState s).pc = s.pc := rfl
@[simp] theorem popState_w (s : State) : (popState s).w = s.w.set (15 : Fin 16) (evenPart (sp s - 2#16)) := rfl
@[simp] theorem popState_splim (s : State) : (popState s).splim = s.splim := rfl
@[simp] theorem popState_splimWritten (s : State) : (popState s).splimWritten = s.splimWritten := rfl
@[simp] theorem popState_sr (s : State) : (popState s).sr = s.sr := rfl
@[simp] theorem popState_corcon (s : State) : (popState s).corcon = s.corcon := rfl
@[simp] theorem popState_disicnt (s : State) : (popState s).disicnt = s.disicnt := rfl
@[simp] theorem popState_disiActive (s : State) : (popState s).disiActive = s.disiActive := rfl
@[simp] theorem popState_intcon1 (s : State) : (popState s).intcon1 = s.intcon1 := rfl
@[simp] theorem popState_intcon2 (s : State) : (popState s).intcon2 = s.intcon2 := rfl
@[simp] theorem popState_ifs (s : State) : (popState s).ifs = s.ifs := rfl
@[simp] theorem popState_iec (s : State) : (popState s).iec = s.iec := rfl
@[simp] theorem popState_ipc (s : State) : (popState s).ipc = s.ipc := rfl
@[simp] theorem popState_inttreg (s : State) : (popState s).inttreg = s.inttreg := rfl
@[simp] theorem popState_traprSet (s : State) : (popState s).traprSet = s.traprSet := rfl
@[simp] theorem popState_cfSet (s : State) : (popState s).cfSet = s.cfSet := rfl
@[simp] theorem popState_power (s : State) : (popState s).power = s.power := rfl
@[simp] theorem popState_accA (s : State) : (popState s).accA = s.accA := rfl
@[simp] theorem popState_accB (s : State) : (popState s).accB = s.accB := rfl
@[simp] theorem popState_pins (s : State) : (popState s).pins = s.pins := rfl
@[simp] theorem popState_bufPc (s : State) : (popState s).bufPc = s.bufPc := rfl
@[simp] theorem popState_bufSrl (s : State) : (popState s).bufSrl = s.bufSrl := rfl
@[simp] theorem popState_skid (s : State) : (popState s).skid = s.skid := rfl
@[simp] theorem popState_mem (s : State) : (popState s).mem = s.mem := rfl
@[simp] theorem popState_prog (s : State) : (popState s).prog = s.prog := rfl
@[simp] theorem popState_inttregFresh (s : State) : (popState s).inttregFresh = s.inttregFresh := rfl
@[simp] theorem popState_disiLoaded (s : State) : (popState s).disiLoaded = s.disiLoaded := rfl
@[simp] theorem popState_badFetch (s : State) : (popState s).badFetch = s.badFetch := rfl
@[simp] theorem popState_divideLoops (s : State) : (popState s).divideLoops = s.divideLoops := rfl
@[simp] theorem popState_ramEpoch (s : State) : (popState s).ramEpoch = s.ramEpoch := rfl
@[simp] theorem popState_draws (s : State) : (popState s).draws = s.draws := rfl
@[simp] theorem popState_agenda (s : State) : (popState s).agenda = s.agenda := rfl
@[simp] theorem popState_dev (s : State) : (popState s).dev = s.dev := rfl

@[simp] theorem withFlags_pc (s : State) (v m : Word) : (withFlags s v m).pc = s.pc := rfl
@[simp] theorem withFlags_w (s : State) (v m : Word) : (withFlags s v m).w = s.w := rfl
@[simp] theorem withFlags_splim (s : State) (v m : Word) : (withFlags s v m).splim = s.splim := rfl
@[simp] theorem withFlags_splimWritten (s : State) (v m : Word) : (withFlags s v m).splimWritten = s.splimWritten := rfl
@[simp] theorem withFlags_sr (s : State) (v m : Word) : (withFlags s v m).sr = (s.sr &&& ~~~m) ||| (v &&& m) := rfl
@[simp] theorem withFlags_corcon (s : State) (v m : Word) : (withFlags s v m).corcon = s.corcon := rfl
@[simp] theorem withFlags_disicnt (s : State) (v m : Word) : (withFlags s v m).disicnt = s.disicnt := rfl
@[simp] theorem withFlags_disiActive (s : State) (v m : Word) : (withFlags s v m).disiActive = s.disiActive := rfl
@[simp] theorem withFlags_intcon1 (s : State) (v m : Word) : (withFlags s v m).intcon1 = s.intcon1 := rfl
@[simp] theorem withFlags_intcon2 (s : State) (v m : Word) : (withFlags s v m).intcon2 = s.intcon2 := rfl
@[simp] theorem withFlags_ifs (s : State) (v m : Word) : (withFlags s v m).ifs = s.ifs := rfl
@[simp] theorem withFlags_iec (s : State) (v m : Word) : (withFlags s v m).iec = s.iec := rfl
@[simp] theorem withFlags_ipc (s : State) (v m : Word) : (withFlags s v m).ipc = s.ipc := rfl
@[simp] theorem withFlags_inttreg (s : State) (v m : Word) : (withFlags s v m).inttreg = s.inttreg := rfl
@[simp] theorem withFlags_traprSet (s : State) (v m : Word) : (withFlags s v m).traprSet = s.traprSet := rfl
@[simp] theorem withFlags_cfSet (s : State) (v m : Word) : (withFlags s v m).cfSet = s.cfSet := rfl
@[simp] theorem withFlags_power (s : State) (v m : Word) : (withFlags s v m).power = s.power := rfl
@[simp] theorem withFlags_accA (s : State) (v m : Word) : (withFlags s v m).accA = s.accA := rfl
@[simp] theorem withFlags_accB (s : State) (v m : Word) : (withFlags s v m).accB = s.accB := rfl
@[simp] theorem withFlags_pins (s : State) (v m : Word) : (withFlags s v m).pins = s.pins := rfl
@[simp] theorem withFlags_bufPc (s : State) (v m : Word) : (withFlags s v m).bufPc = s.bufPc := rfl
@[simp] theorem withFlags_bufSrl (s : State) (v m : Word) : (withFlags s v m).bufSrl = s.bufSrl := rfl
@[simp] theorem withFlags_skid (s : State) (v m : Word) : (withFlags s v m).skid = s.skid := rfl
@[simp] theorem withFlags_mem (s : State) (v m : Word) : (withFlags s v m).mem = s.mem := rfl
@[simp] theorem withFlags_prog (s : State) (v m : Word) : (withFlags s v m).prog = s.prog := rfl
@[simp] theorem withFlags_inttregFresh (s : State) (v m : Word) : (withFlags s v m).inttregFresh = s.inttregFresh := rfl
@[simp] theorem withFlags_disiLoaded (s : State) (v m : Word) : (withFlags s v m).disiLoaded = s.disiLoaded := rfl
@[simp] theorem withFlags_badFetch (s : State) (v m : Word) : (withFlags s v m).badFetch = s.badFetch := rfl
@[simp] theorem withFlags_divideLoops (s : State) (v m : Word) : (withFlags s v m).divideLoops = s.divideLoops := rfl
@[simp] theorem withFlags_ramEpoch (s : State) (v m : Word) : (withFlags s v m).ramEpoch = s.ramEpoch := rfl
@[simp] theorem withFlags_draws (s : State) (v m : Word) : (withFlags s v m).draws = s.draws := rfl
@[simp] theorem withFlags_agenda (s : State) (v m : Word) : (withFlags s v m).agenda = s.agenda := rfl
@[simp] theorem withFlags_dev (s : State) (v m : Word) : (withFlags s v m).dev = s.dev := rfl

@[simp] theorem freeFlags_pc (s : State) : (freeFlags s).pc = s.pc := rfl
@[simp] theorem freeFlags_w (s : State) : (freeFlags s).w = s.w := rfl
@[simp] theorem freeFlags_splim (s : State) : (freeFlags s).splim = s.splim := rfl
@[simp] theorem freeFlags_splimWritten (s : State) : (freeFlags s).splimWritten = s.splimWritten := rfl
@[simp] theorem freeFlags_sr (s : State) : (freeFlags s).sr = (s.sr &&& ~~~openFlags) ||| (Config.flags s.draws &&& openFlags) := rfl
@[simp] theorem freeFlags_corcon (s : State) : (freeFlags s).corcon = s.corcon := rfl
@[simp] theorem freeFlags_disicnt (s : State) : (freeFlags s).disicnt = s.disicnt := rfl
@[simp] theorem freeFlags_disiActive (s : State) : (freeFlags s).disiActive = s.disiActive := rfl
@[simp] theorem freeFlags_intcon1 (s : State) : (freeFlags s).intcon1 = s.intcon1 := rfl
@[simp] theorem freeFlags_intcon2 (s : State) : (freeFlags s).intcon2 = s.intcon2 := rfl
@[simp] theorem freeFlags_ifs (s : State) : (freeFlags s).ifs = s.ifs := rfl
@[simp] theorem freeFlags_iec (s : State) : (freeFlags s).iec = s.iec := rfl
@[simp] theorem freeFlags_ipc (s : State) : (freeFlags s).ipc = s.ipc := rfl
@[simp] theorem freeFlags_inttreg (s : State) : (freeFlags s).inttreg = s.inttreg := rfl
@[simp] theorem freeFlags_traprSet (s : State) : (freeFlags s).traprSet = s.traprSet := rfl
@[simp] theorem freeFlags_cfSet (s : State) : (freeFlags s).cfSet = s.cfSet := rfl
@[simp] theorem freeFlags_power (s : State) : (freeFlags s).power = s.power := rfl
@[simp] theorem freeFlags_accA (s : State) : (freeFlags s).accA = s.accA := rfl
@[simp] theorem freeFlags_accB (s : State) : (freeFlags s).accB = s.accB := rfl
@[simp] theorem freeFlags_pins (s : State) : (freeFlags s).pins = s.pins := rfl
@[simp] theorem freeFlags_bufPc (s : State) : (freeFlags s).bufPc = s.bufPc := rfl
@[simp] theorem freeFlags_bufSrl (s : State) : (freeFlags s).bufSrl = s.bufSrl := rfl
@[simp] theorem freeFlags_skid (s : State) : (freeFlags s).skid = s.skid := rfl
@[simp] theorem freeFlags_mem (s : State) : (freeFlags s).mem = s.mem := rfl
@[simp] theorem freeFlags_prog (s : State) : (freeFlags s).prog = s.prog := rfl
@[simp] theorem freeFlags_inttregFresh (s : State) : (freeFlags s).inttregFresh = s.inttregFresh := rfl
@[simp] theorem freeFlags_disiLoaded (s : State) : (freeFlags s).disiLoaded = s.disiLoaded := rfl
@[simp] theorem freeFlags_badFetch (s : State) : (freeFlags s).badFetch = s.badFetch := rfl
@[simp] theorem freeFlags_divideLoops (s : State) : (freeFlags s).divideLoops = s.divideLoops := rfl
@[simp] theorem freeFlags_ramEpoch (s : State) : (freeFlags s).ramEpoch = s.ramEpoch := rfl
@[simp] theorem freeFlags_draws (s : State) : (freeFlags s).draws = s.draws := rfl
@[simp] theorem freeFlags_agenda (s : State) : (freeFlags s).agenda = s.agenda := rfl
@[simp] theorem freeFlags_dev (s : State) : (freeFlags s).dev = s.dev := rfl

@[simp] theorem setRepeatActive_pc (s : State) (v : Bool) : (setRepeatActive s v).pc = s.pc := rfl
@[simp] theorem setRepeatActive_w (s : State) (v : Bool) : (setRepeatActive s v).w = s.w := rfl
@[simp] theorem setRepeatActive_splim (s : State) (v : Bool) : (setRepeatActive s v).splim = s.splim := rfl
@[simp] theorem setRepeatActive_splimWritten (s : State) (v : Bool) : (setRepeatActive s v).splimWritten = s.splimWritten := rfl
@[simp] theorem setRepeatActive_sr (s : State) (v : Bool) : (setRepeatActive s v).sr = setBit s.sr 4 v := rfl
@[simp] theorem setRepeatActive_corcon (s : State) (v : Bool) : (setRepeatActive s v).corcon = s.corcon := rfl
@[simp] theorem setRepeatActive_disicnt (s : State) (v : Bool) : (setRepeatActive s v).disicnt = s.disicnt := rfl
@[simp] theorem setRepeatActive_disiActive (s : State) (v : Bool) : (setRepeatActive s v).disiActive = s.disiActive := rfl
@[simp] theorem setRepeatActive_intcon1 (s : State) (v : Bool) : (setRepeatActive s v).intcon1 = s.intcon1 := rfl
@[simp] theorem setRepeatActive_intcon2 (s : State) (v : Bool) : (setRepeatActive s v).intcon2 = s.intcon2 := rfl
@[simp] theorem setRepeatActive_ifs (s : State) (v : Bool) : (setRepeatActive s v).ifs = s.ifs := rfl
@[simp] theorem setRepeatActive_iec (s : State) (v : Bool) : (setRepeatActive s v).iec = s.iec := rfl
@[simp] theorem setRepeatActive_ipc (s : State) (v : Bool) : (setRepeatActive s v).ipc = s.ipc := rfl
@[simp] theorem setRepeatActive_inttreg (s : State) (v : Bool) : (setRepeatActive s v).inttreg = s.inttreg := rfl
@[simp] theorem setRepeatActive_traprSet (s : State) (v : Bool) : (setRepeatActive s v).traprSet = s.traprSet := rfl
@[simp] theorem setRepeatActive_cfSet (s : State) (v : Bool) : (setRepeatActive s v).cfSet = s.cfSet := rfl
@[simp] theorem setRepeatActive_power (s : State) (v : Bool) : (setRepeatActive s v).power = s.power := rfl
@[simp] theorem setRepeatActive_accA (s : State) (v : Bool) : (setRepeatActive s v).accA = s.accA := rfl
@[simp] theorem setRepeatActive_accB (s : State) (v : Bool) : (setRepeatActive s v).accB = s.accB := rfl
@[simp] theorem setRepeatActive_pins (s : State) (v : Bool) : (setRepeatActive s v).pins = s.pins := rfl
@[simp] theorem setRepeatActive_bufPc (s : State) (v : Bool) : (setRepeatActive s v).bufPc = s.bufPc := rfl
@[simp] theorem setRepeatActive_bufSrl (s : State) (v : Bool) : (setRepeatActive s v).bufSrl = s.bufSrl := rfl
@[simp] theorem setRepeatActive_skid (s : State) (v : Bool) : (setRepeatActive s v).skid = s.skid := rfl
@[simp] theorem setRepeatActive_mem (s : State) (v : Bool) : (setRepeatActive s v).mem = s.mem := rfl
@[simp] theorem setRepeatActive_prog (s : State) (v : Bool) : (setRepeatActive s v).prog = s.prog := rfl
@[simp] theorem setRepeatActive_inttregFresh (s : State) (v : Bool) : (setRepeatActive s v).inttregFresh = s.inttregFresh := rfl
@[simp] theorem setRepeatActive_disiLoaded (s : State) (v : Bool) : (setRepeatActive s v).disiLoaded = s.disiLoaded := rfl
@[simp] theorem setRepeatActive_badFetch (s : State) (v : Bool) : (setRepeatActive s v).badFetch = s.badFetch := rfl
@[simp] theorem setRepeatActive_divideLoops (s : State) (v : Bool) : (setRepeatActive s v).divideLoops = s.divideLoops := rfl
@[simp] theorem setRepeatActive_ramEpoch (s : State) (v : Bool) : (setRepeatActive s v).ramEpoch = s.ramEpoch := rfl
@[simp] theorem setRepeatActive_draws (s : State) (v : Bool) : (setRepeatActive s v).draws = s.draws := rfl
@[simp] theorem setRepeatActive_agenda (s : State) (v : Bool) : (setRepeatActive s v).agenda = s.agenda := rfl
@[simp] theorem setRepeatActive_dev (s : State) (v : Bool) : (setRepeatActive s v).dev = s.dev := rfl

@[simp] theorem raiseSoft_pc (e : Events) (s : State) : (raiseSoft e s).pc = s.pc := rfl
@[simp] theorem raiseSoft_w (e : Events) (s : State) : (raiseSoft e s).w = s.w := rfl
@[simp] theorem raiseSoft_splim (e : Events) (s : State) : (raiseSoft e s).splim = s.splim := rfl
@[simp] theorem raiseSoft_splimWritten (e : Events) (s : State) : (raiseSoft e s).splimWritten = s.splimWritten := rfl
@[simp] theorem raiseSoft_sr (e : Events) (s : State) : (raiseSoft e s).sr = s.sr := rfl
@[simp] theorem raiseSoft_corcon (e : Events) (s : State) : (raiseSoft e s).corcon = s.corcon := rfl
@[simp] theorem raiseSoft_disicnt (e : Events) (s : State) : (raiseSoft e s).disicnt = s.disicnt := rfl
@[simp] theorem raiseSoft_disiActive (e : Events) (s : State) : (raiseSoft e s).disiActive = s.disiActive := rfl
@[simp] theorem raiseSoft_intcon1 (e : Events) (s : State) : (raiseSoft e s).intcon1 = s.intcon1 ||| e.math ||| (if e.stack then 0x0004#16 else 0#16) := rfl
@[simp] theorem raiseSoft_intcon2 (e : Events) (s : State) : (raiseSoft e s).intcon2 = s.intcon2 := rfl
@[simp] theorem raiseSoft_ifs (e : Events) (s : State) : (raiseSoft e s).ifs = s.ifs := rfl
@[simp] theorem raiseSoft_iec (e : Events) (s : State) : (raiseSoft e s).iec = s.iec := rfl
@[simp] theorem raiseSoft_ipc (e : Events) (s : State) : (raiseSoft e s).ipc = s.ipc := rfl
@[simp] theorem raiseSoft_inttreg (e : Events) (s : State) : (raiseSoft e s).inttreg = s.inttreg := rfl
@[simp] theorem raiseSoft_traprSet (e : Events) (s : State) : (raiseSoft e s).traprSet = s.traprSet := rfl
@[simp] theorem raiseSoft_cfSet (e : Events) (s : State) : (raiseSoft e s).cfSet = s.cfSet := rfl
@[simp] theorem raiseSoft_power (e : Events) (s : State) : (raiseSoft e s).power = s.power := rfl
@[simp] theorem raiseSoft_accA (e : Events) (s : State) : (raiseSoft e s).accA = s.accA := rfl
@[simp] theorem raiseSoft_accB (e : Events) (s : State) : (raiseSoft e s).accB = s.accB := rfl
@[simp] theorem raiseSoft_pins (e : Events) (s : State) : (raiseSoft e s).pins = s.pins := rfl
@[simp] theorem raiseSoft_bufPc (e : Events) (s : State) : (raiseSoft e s).bufPc = s.bufPc := rfl
@[simp] theorem raiseSoft_bufSrl (e : Events) (s : State) : (raiseSoft e s).bufSrl = s.bufSrl := rfl
@[simp] theorem raiseSoft_skid (e : Events) (s : State) : (raiseSoft e s).skid = s.skid := rfl
@[simp] theorem raiseSoft_mem (e : Events) (s : State) : (raiseSoft e s).mem = s.mem := rfl
@[simp] theorem raiseSoft_prog (e : Events) (s : State) : (raiseSoft e s).prog = s.prog := rfl
@[simp] theorem raiseSoft_inttregFresh (e : Events) (s : State) : (raiseSoft e s).inttregFresh = s.inttregFresh := rfl
@[simp] theorem raiseSoft_disiLoaded (e : Events) (s : State) : (raiseSoft e s).disiLoaded = s.disiLoaded := rfl
@[simp] theorem raiseSoft_badFetch (e : Events) (s : State) : (raiseSoft e s).badFetch = s.badFetch := rfl
@[simp] theorem raiseSoft_divideLoops (e : Events) (s : State) : (raiseSoft e s).divideLoops = s.divideLoops := rfl
@[simp] theorem raiseSoft_ramEpoch (e : Events) (s : State) : (raiseSoft e s).ramEpoch = s.ramEpoch := rfl
@[simp] theorem raiseSoft_draws (e : Events) (s : State) : (raiseSoft e s).draws = s.draws := rfl
@[simp] theorem raiseSoft_agenda (e : Events) (s : State) : (raiseSoft e s).agenda = s.agenda := rfl
@[simp] theorem raiseSoft_dev (e : Events) (s : State) : (raiseSoft e s).dev = s.dev := rfl

@[simp] theorem loadWord_pc (s : State) (a : ProgAddr) (v : ProgWord) : (loadWord s a v).pc = s.pc := rfl
@[simp] theorem loadWord_w (s : State) (a : ProgAddr) (v : ProgWord) : (loadWord s a v).w = s.w := rfl
@[simp] theorem loadWord_splim (s : State) (a : ProgAddr) (v : ProgWord) : (loadWord s a v).splim = s.splim := rfl
@[simp] theorem loadWord_splimWritten (s : State) (a : ProgAddr) (v : ProgWord) : (loadWord s a v).splimWritten = s.splimWritten := rfl
@[simp] theorem loadWord_sr (s : State) (a : ProgAddr) (v : ProgWord) : (loadWord s a v).sr = s.sr := rfl
@[simp] theorem loadWord_corcon (s : State) (a : ProgAddr) (v : ProgWord) : (loadWord s a v).corcon = s.corcon := rfl
@[simp] theorem loadWord_disicnt (s : State) (a : ProgAddr) (v : ProgWord) : (loadWord s a v).disicnt = s.disicnt := rfl
@[simp] theorem loadWord_disiActive (s : State) (a : ProgAddr) (v : ProgWord) : (loadWord s a v).disiActive = s.disiActive := rfl
@[simp] theorem loadWord_intcon1 (s : State) (a : ProgAddr) (v : ProgWord) : (loadWord s a v).intcon1 = s.intcon1 := rfl
@[simp] theorem loadWord_intcon2 (s : State) (a : ProgAddr) (v : ProgWord) : (loadWord s a v).intcon2 = s.intcon2 := rfl
@[simp] theorem loadWord_ifs (s : State) (a : ProgAddr) (v : ProgWord) : (loadWord s a v).ifs = s.ifs := rfl
@[simp] theorem loadWord_iec (s : State) (a : ProgAddr) (v : ProgWord) : (loadWord s a v).iec = s.iec := rfl
@[simp] theorem loadWord_ipc (s : State) (a : ProgAddr) (v : ProgWord) : (loadWord s a v).ipc = s.ipc := rfl
@[simp] theorem loadWord_inttreg (s : State) (a : ProgAddr) (v : ProgWord) : (loadWord s a v).inttreg = s.inttreg := rfl
@[simp] theorem loadWord_traprSet (s : State) (a : ProgAddr) (v : ProgWord) : (loadWord s a v).traprSet = s.traprSet := rfl
@[simp] theorem loadWord_cfSet (s : State) (a : ProgAddr) (v : ProgWord) : (loadWord s a v).cfSet = s.cfSet := rfl
@[simp] theorem loadWord_power (s : State) (a : ProgAddr) (v : ProgWord) : (loadWord s a v).power = s.power := rfl
@[simp] theorem loadWord_accA (s : State) (a : ProgAddr) (v : ProgWord) : (loadWord s a v).accA = s.accA := rfl
@[simp] theorem loadWord_accB (s : State) (a : ProgAddr) (v : ProgWord) : (loadWord s a v).accB = s.accB := rfl
@[simp] theorem loadWord_pins (s : State) (a : ProgAddr) (v : ProgWord) : (loadWord s a v).pins = s.pins := rfl
@[simp] theorem loadWord_bufPc (s : State) (a : ProgAddr) (v : ProgWord) : (loadWord s a v).bufPc = s.bufPc := rfl
@[simp] theorem loadWord_bufSrl (s : State) (a : ProgAddr) (v : ProgWord) : (loadWord s a v).bufSrl = s.bufSrl := rfl
@[simp] theorem loadWord_skid (s : State) (a : ProgAddr) (v : ProgWord) : (loadWord s a v).skid = s.skid := rfl
@[simp] theorem loadWord_mem (s : State) (a : ProgAddr) (v : ProgWord) : (loadWord s a v).mem = s.mem := rfl
@[simp] theorem loadWord_prog (s : State) (a : ProgAddr) (v : ProgWord) : (loadWord s a v).prog = assocPut s.prog a.toNat (.word v) := rfl
@[simp] theorem loadWord_inttregFresh (s : State) (a : ProgAddr) (v : ProgWord) : (loadWord s a v).inttregFresh = s.inttregFresh := rfl
@[simp] theorem loadWord_disiLoaded (s : State) (a : ProgAddr) (v : ProgWord) : (loadWord s a v).disiLoaded = s.disiLoaded := rfl
@[simp] theorem loadWord_badFetch (s : State) (a : ProgAddr) (v : ProgWord) : (loadWord s a v).badFetch = s.badFetch := rfl
@[simp] theorem loadWord_divideLoops (s : State) (a : ProgAddr) (v : ProgWord) : (loadWord s a v).divideLoops = s.divideLoops := rfl
@[simp] theorem loadWord_ramEpoch (s : State) (a : ProgAddr) (v : ProgWord) : (loadWord s a v).ramEpoch = s.ramEpoch := rfl
@[simp] theorem loadWord_draws (s : State) (a : ProgAddr) (v : ProgWord) : (loadWord s a v).draws = s.draws := rfl
@[simp] theorem loadWord_agenda (s : State) (a : ProgAddr) (v : ProgWord) : (loadWord s a v).agenda = s.agenda := rfl
@[simp] theorem loadWord_dev (s : State) (a : ProgAddr) (v : ProgWord) : (loadWord s a v).dev = s.dev := rfl

@[simp] theorem markFetch_pc (b : Bool) (s : State) : (markFetch b s).pc = s.pc := rfl
@[simp] theorem markFetch_w (b : Bool) (s : State) : (markFetch b s).w = s.w := rfl
@[simp] theorem markFetch_splim (b : Bool) (s : State) : (markFetch b s).splim = s.splim := rfl
@[simp] theorem markFetch_splimWritten (b : Bool) (s : State) : (markFetch b s).splimWritten = s.splimWritten := rfl
@[simp] theorem markFetch_sr (b : Bool) (s : State) : (markFetch b s).sr = s.sr := rfl
@[simp] theorem markFetch_corcon (b : Bool) (s : State) : (markFetch b s).corcon = s.corcon := rfl
@[simp] theorem markFetch_disicnt (b : Bool) (s : State) : (markFetch b s).disicnt = s.disicnt := rfl
@[simp] theorem markFetch_disiActive (b : Bool) (s : State) : (markFetch b s).disiActive = s.disiActive := rfl
@[simp] theorem markFetch_intcon1 (b : Bool) (s : State) : (markFetch b s).intcon1 = s.intcon1 := rfl
@[simp] theorem markFetch_intcon2 (b : Bool) (s : State) : (markFetch b s).intcon2 = s.intcon2 := rfl
@[simp] theorem markFetch_ifs (b : Bool) (s : State) : (markFetch b s).ifs = s.ifs := rfl
@[simp] theorem markFetch_iec (b : Bool) (s : State) : (markFetch b s).iec = s.iec := rfl
@[simp] theorem markFetch_ipc (b : Bool) (s : State) : (markFetch b s).ipc = s.ipc := rfl
@[simp] theorem markFetch_inttreg (b : Bool) (s : State) : (markFetch b s).inttreg = s.inttreg := rfl
@[simp] theorem markFetch_traprSet (b : Bool) (s : State) : (markFetch b s).traprSet = s.traprSet := rfl
@[simp] theorem markFetch_cfSet (b : Bool) (s : State) : (markFetch b s).cfSet = s.cfSet := rfl
@[simp] theorem markFetch_power (b : Bool) (s : State) : (markFetch b s).power = s.power := rfl
@[simp] theorem markFetch_accA (b : Bool) (s : State) : (markFetch b s).accA = s.accA := rfl
@[simp] theorem markFetch_accB (b : Bool) (s : State) : (markFetch b s).accB = s.accB := rfl
@[simp] theorem markFetch_pins (b : Bool) (s : State) : (markFetch b s).pins = s.pins := rfl
@[simp] theorem markFetch_bufPc (b : Bool) (s : State) : (markFetch b s).bufPc = s.bufPc := rfl
@[simp] theorem markFetch_bufSrl (b : Bool) (s : State) : (markFetch b s).bufSrl = s.bufSrl := rfl
@[simp] theorem markFetch_skid (b : Bool) (s : State) : (markFetch b s).skid = s.skid := rfl
@[simp] theorem markFetch_mem (b : Bool) (s : State) : (markFetch b s).mem = s.mem := rfl
@[simp] theorem markFetch_prog (b : Bool) (s : State) : (markFetch b s).prog = s.prog := rfl
@[simp] theorem markFetch_inttregFresh (b : Bool) (s : State) : (markFetch b s).inttregFresh = s.inttregFresh := rfl
@[simp] theorem markFetch_disiLoaded (b : Bool) (s : State) : (markFetch b s).disiLoaded = s.disiLoaded := rfl
@[simp] theorem markFetch_badFetch (b : Bool) (s : State) : (markFetch b s).badFetch = b := rfl
@[simp] theorem markFetch_divideLoops (b : Bool) (s : State) : (markFetch b s).divideLoops = s.divideLoops := rfl
@[simp] theorem markFetch_ramEpoch (b : Bool) (s : State) : (markFetch b s).ramEpoch = s.ramEpoch := rfl
@[simp] theorem markFetch_draws (b : Bool) (s : State) : (markFetch b s).draws = s.draws := rfl
@[simp] theorem markFetch_agenda (b : Bool) (s : State) : (markFetch b s).agenda = s.agenda := rfl
@[simp] theorem markFetch_dev (b : Bool) (s : State) : (markFetch b s).dev = s.dev := rfl

@[simp] theorem advanceBy_pc (n : Nat) (s : State) : (advanceBy n s).pc = pcOf s.dev (s.pc + BitVec.ofNat 23 (2 * n)) := rfl
@[simp] theorem advanceBy_w (n : Nat) (s : State) : (advanceBy n s).w = s.w := rfl
@[simp] theorem advanceBy_splim (n : Nat) (s : State) : (advanceBy n s).splim = s.splim := rfl
@[simp] theorem advanceBy_splimWritten (n : Nat) (s : State) : (advanceBy n s).splimWritten = s.splimWritten := rfl
@[simp] theorem advanceBy_sr (n : Nat) (s : State) : (advanceBy n s).sr = s.sr := rfl
@[simp] theorem advanceBy_corcon (n : Nat) (s : State) : (advanceBy n s).corcon = s.corcon := rfl
@[simp] theorem advanceBy_disicnt (n : Nat) (s : State) : (advanceBy n s).disicnt = s.disicnt := rfl
@[simp] theorem advanceBy_disiActive (n : Nat) (s : State) : (advanceBy n s).disiActive = s.disiActive := rfl
@[simp] theorem advanceBy_intcon1 (n : Nat) (s : State) : (advanceBy n s).intcon1 = s.intcon1 := rfl
@[simp] theorem advanceBy_intcon2 (n : Nat) (s : State) : (advanceBy n s).intcon2 = s.intcon2 := rfl
@[simp] theorem advanceBy_ifs (n : Nat) (s : State) : (advanceBy n s).ifs = s.ifs := rfl
@[simp] theorem advanceBy_iec (n : Nat) (s : State) : (advanceBy n s).iec = s.iec := rfl
@[simp] theorem advanceBy_ipc (n : Nat) (s : State) : (advanceBy n s).ipc = s.ipc := rfl
@[simp] theorem advanceBy_inttreg (n : Nat) (s : State) : (advanceBy n s).inttreg = s.inttreg := rfl
@[simp] theorem advanceBy_traprSet (n : Nat) (s : State) : (advanceBy n s).traprSet = s.traprSet := rfl
@[simp] theorem advanceBy_cfSet (n : Nat) (s : State) : (advanceBy n s).cfSet = s.cfSet := rfl
@[simp] theorem advanceBy_power (n : Nat) (s : State) : (advanceBy n s).power = s.power := rfl
@[simp] theorem advanceBy_accA (n : Nat) (s : State) : (advanceBy n s).accA = s.accA := rfl
@[simp] theorem advanceBy_accB (n : Nat) (s : State) : (advanceBy n s).accB = s.accB := rfl
@[simp] theorem advanceBy_pins (n : Nat) (s : State) : (advanceBy n s).pins = s.pins := rfl
@[simp] theorem advanceBy_bufPc (n : Nat) (s : State) : (advanceBy n s).bufPc = s.bufPc := rfl
@[simp] theorem advanceBy_bufSrl (n : Nat) (s : State) : (advanceBy n s).bufSrl = s.bufSrl := rfl
@[simp] theorem advanceBy_skid (n : Nat) (s : State) : (advanceBy n s).skid = s.skid := rfl
@[simp] theorem advanceBy_mem (n : Nat) (s : State) : (advanceBy n s).mem = s.mem := rfl
@[simp] theorem advanceBy_prog (n : Nat) (s : State) : (advanceBy n s).prog = s.prog := rfl
@[simp] theorem advanceBy_inttregFresh (n : Nat) (s : State) : (advanceBy n s).inttregFresh = s.inttregFresh := rfl
@[simp] theorem advanceBy_disiLoaded (n : Nat) (s : State) : (advanceBy n s).disiLoaded = s.disiLoaded := rfl
@[simp] theorem advanceBy_badFetch (n : Nat) (s : State) : (advanceBy n s).badFetch = s.badFetch := rfl
@[simp] theorem advanceBy_divideLoops (n : Nat) (s : State) : (advanceBy n s).divideLoops = s.divideLoops := rfl
@[simp] theorem advanceBy_ramEpoch (n : Nat) (s : State) : (advanceBy n s).ramEpoch = s.ramEpoch := rfl
@[simp] theorem advanceBy_draws (n : Nat) (s : State) : (advanceBy n s).draws = s.draws := rfl
@[simp] theorem advanceBy_agenda (n : Nat) (s : State) : (advanceBy n s).agenda = s.agenda := rfl
@[simp] theorem advanceBy_dev (n : Nat) (s : State) : (advanceBy n s).dev = s.dev := rfl

@[simp] theorem beginLoop_pc (s : State) : (beginLoop s).pc = s.pc := by unfold beginLoop; split <;> rfl
@[simp] theorem beginLoop_w (s : State) : (beginLoop s).w = s.w := by unfold beginLoop; split <;> rfl
@[simp] theorem beginLoop_splim (s : State) : (beginLoop s).splim = s.splim := by unfold beginLoop; split <;> rfl
@[simp] theorem beginLoop_splimWritten (s : State) : (beginLoop s).splimWritten = s.splimWritten := by unfold beginLoop; split <;> rfl
@[simp] theorem beginLoop_sr (s : State) : (beginLoop s).sr = s.sr := by unfold beginLoop; split <;> rfl
@[simp] theorem beginLoop_corcon (s : State) : (beginLoop s).corcon = s.corcon := by unfold beginLoop; split <;> rfl
@[simp] theorem beginLoop_disicnt (s : State) : (beginLoop s).disicnt = s.disicnt := by unfold beginLoop; split <;> rfl
@[simp] theorem beginLoop_disiActive (s : State) : (beginLoop s).disiActive = s.disiActive := by unfold beginLoop; split <;> rfl
@[simp] theorem beginLoop_intcon1 (s : State) : (beginLoop s).intcon1 = s.intcon1 := by unfold beginLoop; split <;> rfl
@[simp] theorem beginLoop_intcon2 (s : State) : (beginLoop s).intcon2 = s.intcon2 := by unfold beginLoop; split <;> rfl
@[simp] theorem beginLoop_ifs (s : State) : (beginLoop s).ifs = s.ifs := by unfold beginLoop; split <;> rfl
@[simp] theorem beginLoop_iec (s : State) : (beginLoop s).iec = s.iec := by unfold beginLoop; split <;> rfl
@[simp] theorem beginLoop_ipc (s : State) : (beginLoop s).ipc = s.ipc := by unfold beginLoop; split <;> rfl
@[simp] theorem beginLoop_inttreg (s : State) : (beginLoop s).inttreg = s.inttreg := by unfold beginLoop; split <;> rfl
@[simp] theorem beginLoop_traprSet (s : State) : (beginLoop s).traprSet = s.traprSet := by unfold beginLoop; split <;> rfl
@[simp] theorem beginLoop_cfSet (s : State) : (beginLoop s).cfSet = s.cfSet := by unfold beginLoop; split <;> rfl
@[simp] theorem beginLoop_power (s : State) : (beginLoop s).power = s.power := by unfold beginLoop; split <;> rfl
@[simp] theorem beginLoop_accA (s : State) : (beginLoop s).accA = s.accA := by unfold beginLoop; split <;> rfl
@[simp] theorem beginLoop_accB (s : State) : (beginLoop s).accB = s.accB := by unfold beginLoop; split <;> rfl
@[simp] theorem beginLoop_pins (s : State) : (beginLoop s).pins = s.pins := by unfold beginLoop; split <;> rfl
@[simp] theorem beginLoop_bufPc (s : State) : (beginLoop s).bufPc = s.bufPc := by unfold beginLoop; split <;> rfl
@[simp] theorem beginLoop_bufSrl (s : State) : (beginLoop s).bufSrl = s.bufSrl := by unfold beginLoop; split <;> rfl
@[simp] theorem beginLoop_skid (s : State) : (beginLoop s).skid = s.skid := by unfold beginLoop; split <;> rfl
@[simp] theorem beginLoop_mem (s : State) : (beginLoop s).mem = s.mem := by unfold beginLoop; split <;> rfl
@[simp] theorem beginLoop_prog (s : State) : (beginLoop s).prog = s.prog := by unfold beginLoop; split <;> rfl
@[simp] theorem beginLoop_inttregFresh (s : State) : (beginLoop s).inttregFresh = s.inttregFresh := by unfold beginLoop; split <;> rfl
@[simp] theorem beginLoop_disiLoaded (s : State) : (beginLoop s).disiLoaded = s.disiLoaded := by unfold beginLoop; split <;> rfl
@[simp] theorem beginLoop_badFetch (s : State) : (beginLoop s).badFetch = s.badFetch := by unfold beginLoop; split <;> rfl
@[simp] theorem beginLoop_ramEpoch (s : State) : (beginLoop s).ramEpoch = s.ramEpoch := by unfold beginLoop; split <;> rfl
@[simp] theorem beginLoop_draws (s : State) : (beginLoop s).draws = s.draws := by unfold beginLoop; split <;> rfl
@[simp] theorem beginLoop_agenda (s : State) : (beginLoop s).agenda = s.agenda := by unfold beginLoop; split <;> rfl
@[simp] theorem beginLoop_dev (s : State) : (beginLoop s).dev = s.dev := by unfold beginLoop; split <;> rfl

@[simp] theorem putAcc_pc (s : State) (acc : Acc) (v : BitVec 40) (c : Bool) : (putAcc s acc v c).pc = s.pc := by cases acc <;> rfl
@[simp] theorem putAcc_w (s : State) (acc : Acc) (v : BitVec 40) (c : Bool) : (putAcc s acc v c).w = s.w := by cases acc <;> rfl
@[simp] theorem putAcc_splim (s : State) (acc : Acc) (v : BitVec 40) (c : Bool) : (putAcc s acc v c).splim = s.splim := by cases acc <;> rfl
@[simp] theorem putAcc_splimWritten (s : State) (acc : Acc) (v : BitVec 40) (c : Bool) : (putAcc s acc v c).splimWritten = s.splimWritten := by cases acc <;> rfl
@[simp] theorem putAcc_sr (s : State) (acc : Acc) (v : BitVec 40) (c : Bool) : (putAcc s acc v c).sr = setBit s.sr (overflowStatusBit acc) c := by cases acc <;> rfl
@[simp] theorem putAcc_corcon (s : State) (acc : Acc) (v : BitVec 40) (c : Bool) : (putAcc s acc v c).corcon = s.corcon := by cases acc <;> rfl
@[simp] theorem putAcc_disicnt (s : State) (acc : Acc) (v : BitVec 40) (c : Bool) : (putAcc s acc v c).disicnt = s.disicnt := by cases acc <;> rfl
@[simp] theorem putAcc_disiActive (s : State) (acc : Acc) (v : BitVec 40) (c : Bool) : (putAcc s acc v c).disiActive = s.disiActive := by cases acc <;> rfl
@[simp] theorem putAcc_intcon1 (s : State) (acc : Acc) (v : BitVec 40) (c : Bool) : (putAcc s acc v c).intcon1 = s.intcon1 := by cases acc <;> rfl
@[simp] theorem putAcc_intcon2 (s : State) (acc : Acc) (v : BitVec 40) (c : Bool) : (putAcc s acc v c).intcon2 = s.intcon2 := by cases acc <;> rfl
@[simp] theorem putAcc_ifs (s : State) (acc : Acc) (v : BitVec 40) (c : Bool) : (putAcc s acc v c).ifs = s.ifs := by cases acc <;> rfl
@[simp] theorem putAcc_iec (s : State) (acc : Acc) (v : BitVec 40) (c : Bool) : (putAcc s acc v c).iec = s.iec := by cases acc <;> rfl
@[simp] theorem putAcc_ipc (s : State) (acc : Acc) (v : BitVec 40) (c : Bool) : (putAcc s acc v c).ipc = s.ipc := by cases acc <;> rfl
@[simp] theorem putAcc_inttreg (s : State) (acc : Acc) (v : BitVec 40) (c : Bool) : (putAcc s acc v c).inttreg = s.inttreg := by cases acc <;> rfl
@[simp] theorem putAcc_traprSet (s : State) (acc : Acc) (v : BitVec 40) (c : Bool) : (putAcc s acc v c).traprSet = s.traprSet := by cases acc <;> rfl
@[simp] theorem putAcc_cfSet (s : State) (acc : Acc) (v : BitVec 40) (c : Bool) : (putAcc s acc v c).cfSet = s.cfSet := by cases acc <;> rfl
@[simp] theorem putAcc_power (s : State) (acc : Acc) (v : BitVec 40) (c : Bool) : (putAcc s acc v c).power = s.power := by cases acc <;> rfl
@[simp] theorem putAcc_pins (s : State) (acc : Acc) (v : BitVec 40) (c : Bool) : (putAcc s acc v c).pins = s.pins := by cases acc <;> rfl
@[simp] theorem putAcc_bufPc (s : State) (acc : Acc) (v : BitVec 40) (c : Bool) : (putAcc s acc v c).bufPc = s.bufPc := by cases acc <;> rfl
@[simp] theorem putAcc_bufSrl (s : State) (acc : Acc) (v : BitVec 40) (c : Bool) : (putAcc s acc v c).bufSrl = s.bufSrl := by cases acc <;> rfl
@[simp] theorem putAcc_skid (s : State) (acc : Acc) (v : BitVec 40) (c : Bool) : (putAcc s acc v c).skid = s.skid := by cases acc <;> rfl
@[simp] theorem putAcc_mem (s : State) (acc : Acc) (v : BitVec 40) (c : Bool) : (putAcc s acc v c).mem = s.mem := by cases acc <;> rfl
@[simp] theorem putAcc_prog (s : State) (acc : Acc) (v : BitVec 40) (c : Bool) : (putAcc s acc v c).prog = s.prog := by cases acc <;> rfl
@[simp] theorem putAcc_inttregFresh (s : State) (acc : Acc) (v : BitVec 40) (c : Bool) : (putAcc s acc v c).inttregFresh = s.inttregFresh := by cases acc <;> rfl
@[simp] theorem putAcc_disiLoaded (s : State) (acc : Acc) (v : BitVec 40) (c : Bool) : (putAcc s acc v c).disiLoaded = s.disiLoaded := by cases acc <;> rfl
@[simp] theorem putAcc_badFetch (s : State) (acc : Acc) (v : BitVec 40) (c : Bool) : (putAcc s acc v c).badFetch = s.badFetch := by cases acc <;> rfl
@[simp] theorem putAcc_divideLoops (s : State) (acc : Acc) (v : BitVec 40) (c : Bool) : (putAcc s acc v c).divideLoops = s.divideLoops := by cases acc <;> rfl
@[simp] theorem putAcc_ramEpoch (s : State) (acc : Acc) (v : BitVec 40) (c : Bool) : (putAcc s acc v c).ramEpoch = s.ramEpoch := by cases acc <;> rfl
@[simp] theorem putAcc_draws (s : State) (acc : Acc) (v : BitVec 40) (c : Bool) : (putAcc s acc v c).draws = s.draws := by cases acc <;> rfl
@[simp] theorem putAcc_agenda (s : State) (acc : Acc) (v : BitVec 40) (c : Bool) : (putAcc s acc v c).agenda = s.agenda := by cases acc <;> rfl
@[simp] theorem putAcc_dev (s : State) (acc : Acc) (v : BitVec 40) (c : Bool) : (putAcc s acc v c).dev = s.dev := by cases acc <;> rfl

@[simp] theorem ramWrite_pc (s : State) (a : DataAddr) (b : Byte) : (ramWrite s a b).pc = s.pc := by unfold ramWrite; split <;> rfl
@[simp] theorem ramWrite_w (s : State) (a : DataAddr) (b : Byte) : (ramWrite s a b).w = s.w := by unfold ramWrite; split <;> rfl
@[simp] theorem ramWrite_splim (s : State) (a : DataAddr) (b : Byte) : (ramWrite s a b).splim = s.splim := by unfold ramWrite; split <;> rfl
@[simp] theorem ramWrite_splimWritten (s : State) (a : DataAddr) (b : Byte) : (ramWrite s a b).splimWritten = s.splimWritten := by unfold ramWrite; split <;> rfl
@[simp] theorem ramWrite_sr (s : State) (a : DataAddr) (b : Byte) : (ramWrite s a b).sr = s.sr := by unfold ramWrite; split <;> rfl
@[simp] theorem ramWrite_corcon (s : State) (a : DataAddr) (b : Byte) : (ramWrite s a b).corcon = s.corcon := by unfold ramWrite; split <;> rfl
@[simp] theorem ramWrite_disicnt (s : State) (a : DataAddr) (b : Byte) : (ramWrite s a b).disicnt = s.disicnt := by unfold ramWrite; split <;> rfl
@[simp] theorem ramWrite_disiActive (s : State) (a : DataAddr) (b : Byte) : (ramWrite s a b).disiActive = s.disiActive := by unfold ramWrite; split <;> rfl
@[simp] theorem ramWrite_intcon1 (s : State) (a : DataAddr) (b : Byte) : (ramWrite s a b).intcon1 = s.intcon1 := by unfold ramWrite; split <;> rfl
@[simp] theorem ramWrite_intcon2 (s : State) (a : DataAddr) (b : Byte) : (ramWrite s a b).intcon2 = s.intcon2 := by unfold ramWrite; split <;> rfl
@[simp] theorem ramWrite_ifs (s : State) (a : DataAddr) (b : Byte) : (ramWrite s a b).ifs = s.ifs := by unfold ramWrite; split <;> rfl
@[simp] theorem ramWrite_iec (s : State) (a : DataAddr) (b : Byte) : (ramWrite s a b).iec = s.iec := by unfold ramWrite; split <;> rfl
@[simp] theorem ramWrite_ipc (s : State) (a : DataAddr) (b : Byte) : (ramWrite s a b).ipc = s.ipc := by unfold ramWrite; split <;> rfl
@[simp] theorem ramWrite_inttreg (s : State) (a : DataAddr) (b : Byte) : (ramWrite s a b).inttreg = s.inttreg := by unfold ramWrite; split <;> rfl
@[simp] theorem ramWrite_traprSet (s : State) (a : DataAddr) (b : Byte) : (ramWrite s a b).traprSet = s.traprSet := by unfold ramWrite; split <;> rfl
@[simp] theorem ramWrite_cfSet (s : State) (a : DataAddr) (b : Byte) : (ramWrite s a b).cfSet = s.cfSet := by unfold ramWrite; split <;> rfl
@[simp] theorem ramWrite_power (s : State) (a : DataAddr) (b : Byte) : (ramWrite s a b).power = s.power := by unfold ramWrite; split <;> rfl
@[simp] theorem ramWrite_accA (s : State) (a : DataAddr) (b : Byte) : (ramWrite s a b).accA = s.accA := by unfold ramWrite; split <;> rfl
@[simp] theorem ramWrite_accB (s : State) (a : DataAddr) (b : Byte) : (ramWrite s a b).accB = s.accB := by unfold ramWrite; split <;> rfl
@[simp] theorem ramWrite_pins (s : State) (a : DataAddr) (b : Byte) : (ramWrite s a b).pins = s.pins := by unfold ramWrite; split <;> rfl
@[simp] theorem ramWrite_bufPc (s : State) (a : DataAddr) (b : Byte) : (ramWrite s a b).bufPc = s.bufPc := by unfold ramWrite; split <;> rfl
@[simp] theorem ramWrite_bufSrl (s : State) (a : DataAddr) (b : Byte) : (ramWrite s a b).bufSrl = s.bufSrl := by unfold ramWrite; split <;> rfl
@[simp] theorem ramWrite_skid (s : State) (a : DataAddr) (b : Byte) : (ramWrite s a b).skid = s.skid := by unfold ramWrite; split <;> rfl
@[simp] theorem ramWrite_prog (s : State) (a : DataAddr) (b : Byte) : (ramWrite s a b).prog = s.prog := by unfold ramWrite; split <;> rfl
@[simp] theorem ramWrite_inttregFresh (s : State) (a : DataAddr) (b : Byte) : (ramWrite s a b).inttregFresh = s.inttregFresh := by unfold ramWrite; split <;> rfl
@[simp] theorem ramWrite_disiLoaded (s : State) (a : DataAddr) (b : Byte) : (ramWrite s a b).disiLoaded = s.disiLoaded := by unfold ramWrite; split <;> rfl
@[simp] theorem ramWrite_badFetch (s : State) (a : DataAddr) (b : Byte) : (ramWrite s a b).badFetch = s.badFetch := by unfold ramWrite; split <;> rfl
@[simp] theorem ramWrite_divideLoops (s : State) (a : DataAddr) (b : Byte) : (ramWrite s a b).divideLoops = s.divideLoops := by unfold ramWrite; split <;> rfl
@[simp] theorem ramWrite_ramEpoch (s : State) (a : DataAddr) (b : Byte) : (ramWrite s a b).ramEpoch = s.ramEpoch := by unfold ramWrite; split <;> rfl
@[simp] theorem ramWrite_draws (s : State) (a : DataAddr) (b : Byte) : (ramWrite s a b).draws = s.draws := by unfold ramWrite; split <;> rfl
@[simp] theorem ramWrite_agenda (s : State) (a : DataAddr) (b : Byte) : (ramWrite s a b).agenda = s.agenda := by unfold ramWrite; split <;> rfl
@[simp] theorem ramWrite_dev (s : State) (a : DataAddr) (b : Byte) : (ramWrite s a b).dev = s.dev := by unfold ramWrite; split <;> rfl

@[simp] theorem loadDisicnt_pc (s : State) (v : DisiCount) : (loadDisicnt s v).pc = s.pc := rfl
@[simp] theorem loadDisicnt_w (s : State) (v : DisiCount) : (loadDisicnt s v).w = s.w := rfl
@[simp] theorem loadDisicnt_splim (s : State) (v : DisiCount) : (loadDisicnt s v).splim = s.splim := rfl
@[simp] theorem loadDisicnt_splimWritten (s : State) (v : DisiCount) : (loadDisicnt s v).splimWritten = s.splimWritten := rfl
@[simp] theorem loadDisicnt_sr (s : State) (v : DisiCount) : (loadDisicnt s v).sr = s.sr := rfl
@[simp] theorem loadDisicnt_corcon (s : State) (v : DisiCount) : (loadDisicnt s v).corcon = s.corcon := rfl
@[simp] theorem loadDisicnt_intcon1 (s : State) (v : DisiCount) : (loadDisicnt s v).intcon1 = s.intcon1 := rfl
@[simp] theorem loadDisicnt_intcon2 (s : State) (v : DisiCount) : (loadDisicnt s v).intcon2 = s.intcon2 := rfl
@[simp] theorem loadDisicnt_ifs (s : State) (v : DisiCount) : (loadDisicnt s v).ifs = s.ifs := rfl
@[simp] theorem loadDisicnt_iec (s : State) (v : DisiCount) : (loadDisicnt s v).iec = s.iec := rfl
@[simp] theorem loadDisicnt_ipc (s : State) (v : DisiCount) : (loadDisicnt s v).ipc = s.ipc := rfl
@[simp] theorem loadDisicnt_inttreg (s : State) (v : DisiCount) : (loadDisicnt s v).inttreg = s.inttreg := rfl
@[simp] theorem loadDisicnt_traprSet (s : State) (v : DisiCount) : (loadDisicnt s v).traprSet = s.traprSet := rfl
@[simp] theorem loadDisicnt_cfSet (s : State) (v : DisiCount) : (loadDisicnt s v).cfSet = s.cfSet := rfl
@[simp] theorem loadDisicnt_power (s : State) (v : DisiCount) : (loadDisicnt s v).power = s.power := rfl
@[simp] theorem loadDisicnt_accA (s : State) (v : DisiCount) : (loadDisicnt s v).accA = s.accA := rfl
@[simp] theorem loadDisicnt_accB (s : State) (v : DisiCount) : (loadDisicnt s v).accB = s.accB := rfl
@[simp] theorem loadDisicnt_pins (s : State) (v : DisiCount) : (loadDisicnt s v).pins = s.pins := rfl
@[simp] theorem loadDisicnt_bufPc (s : State) (v : DisiCount) : (loadDisicnt s v).bufPc = s.bufPc := rfl
@[simp] theorem loadDisicnt_bufSrl (s : State) (v : DisiCount) : (loadDisicnt s v).bufSrl = s.bufSrl := rfl
@[simp] theorem loadDisicnt_skid (s : State) (v : DisiCount) : (loadDisicnt s v).skid = s.skid := rfl
@[simp] theorem loadDisicnt_mem (s : State) (v : DisiCount) : (loadDisicnt s v).mem = s.mem := rfl
@[simp] theorem loadDisicnt_prog (s : State) (v : DisiCount) : (loadDisicnt s v).prog = s.prog := rfl
@[simp] theorem loadDisicnt_inttregFresh (s : State) (v : DisiCount) : (loadDisicnt s v).inttregFresh = s.inttregFresh := rfl
@[simp] theorem loadDisicnt_ramEpoch (s : State) (v : DisiCount) : (loadDisicnt s v).ramEpoch = s.ramEpoch := rfl
@[simp] theorem loadDisicnt_badFetch (s : State) (v : DisiCount) : (loadDisicnt s v).badFetch = s.badFetch := rfl
@[simp] theorem loadDisicnt_divideLoops (s : State) (v : DisiCount) : (loadDisicnt s v).divideLoops = s.divideLoops := rfl
@[simp] theorem loadDisicnt_draws (s : State) (v : DisiCount) : (loadDisicnt s v).draws = s.draws := rfl
@[simp] theorem loadDisicnt_agenda (s : State) (v : DisiCount) : (loadDisicnt s v).agenda = s.agenda := rfl
@[simp] theorem loadDisicnt_dev (s : State) (v : DisiCount) : (loadDisicnt s v).dev = s.dev := rfl
@[simp] theorem loadDisicnt_disicnt (s : State) (v : DisiCount) : (loadDisicnt s v).disicnt = narrow s.dev.disicntBits v := rfl
@[simp] theorem loadDisicnt_disiActive (s : State) (v : DisiCount) :
    (loadDisicnt s v).disiActive = (narrow s.dev.disicntBits v != 0#14) := rfl
@[simp] theorem loadDisicnt_disiLoaded (s : State) (v : DisiCount) : (loadDisicnt s v).disiLoaded = true := rfl

@[simp] theorem writeDisicnt_pc (s : State) (v : BitVec 14) : (writeDisicnt s v).pc = s.pc := by unfold writeDisicnt; split <;> rfl
@[simp] theorem writeDisicnt_w (s : State) (v : BitVec 14) : (writeDisicnt s v).w = s.w := by unfold writeDisicnt; split <;> rfl
@[simp] theorem writeDisicnt_splim (s : State) (v : BitVec 14) : (writeDisicnt s v).splim = s.splim := by unfold writeDisicnt; split <;> rfl
@[simp] theorem writeDisicnt_splimWritten (s : State) (v : BitVec 14) : (writeDisicnt s v).splimWritten = s.splimWritten := by unfold writeDisicnt; split <;> rfl
@[simp] theorem writeDisicnt_sr (s : State) (v : BitVec 14) : (writeDisicnt s v).sr = s.sr := by unfold writeDisicnt; split <;> rfl
@[simp] theorem writeDisicnt_corcon (s : State) (v : BitVec 14) : (writeDisicnt s v).corcon = s.corcon := by unfold writeDisicnt; split <;> rfl
@[simp] theorem writeDisicnt_intcon1 (s : State) (v : BitVec 14) : (writeDisicnt s v).intcon1 = s.intcon1 := by unfold writeDisicnt; split <;> rfl
@[simp] theorem writeDisicnt_intcon2 (s : State) (v : BitVec 14) : (writeDisicnt s v).intcon2 = s.intcon2 := by unfold writeDisicnt; split <;> rfl
@[simp] theorem writeDisicnt_ifs (s : State) (v : BitVec 14) : (writeDisicnt s v).ifs = s.ifs := by unfold writeDisicnt; split <;> rfl
@[simp] theorem writeDisicnt_iec (s : State) (v : BitVec 14) : (writeDisicnt s v).iec = s.iec := by unfold writeDisicnt; split <;> rfl
@[simp] theorem writeDisicnt_ipc (s : State) (v : BitVec 14) : (writeDisicnt s v).ipc = s.ipc := by unfold writeDisicnt; split <;> rfl
@[simp] theorem writeDisicnt_inttreg (s : State) (v : BitVec 14) : (writeDisicnt s v).inttreg = s.inttreg := by unfold writeDisicnt; split <;> rfl
@[simp] theorem writeDisicnt_traprSet (s : State) (v : BitVec 14) : (writeDisicnt s v).traprSet = s.traprSet := by unfold writeDisicnt; split <;> rfl
@[simp] theorem writeDisicnt_cfSet (s : State) (v : BitVec 14) : (writeDisicnt s v).cfSet = s.cfSet := by unfold writeDisicnt; split <;> rfl
@[simp] theorem writeDisicnt_power (s : State) (v : BitVec 14) : (writeDisicnt s v).power = s.power := by unfold writeDisicnt; split <;> rfl
@[simp] theorem writeDisicnt_accA (s : State) (v : BitVec 14) : (writeDisicnt s v).accA = s.accA := by unfold writeDisicnt; split <;> rfl
@[simp] theorem writeDisicnt_accB (s : State) (v : BitVec 14) : (writeDisicnt s v).accB = s.accB := by unfold writeDisicnt; split <;> rfl
@[simp] theorem writeDisicnt_pins (s : State) (v : BitVec 14) : (writeDisicnt s v).pins = s.pins := by unfold writeDisicnt; split <;> rfl
@[simp] theorem writeDisicnt_bufPc (s : State) (v : BitVec 14) : (writeDisicnt s v).bufPc = s.bufPc := by unfold writeDisicnt; split <;> rfl
@[simp] theorem writeDisicnt_bufSrl (s : State) (v : BitVec 14) : (writeDisicnt s v).bufSrl = s.bufSrl := by unfold writeDisicnt; split <;> rfl
@[simp] theorem writeDisicnt_skid (s : State) (v : BitVec 14) : (writeDisicnt s v).skid = s.skid := by unfold writeDisicnt; split <;> rfl
@[simp] theorem writeDisicnt_mem (s : State) (v : BitVec 14) : (writeDisicnt s v).mem = s.mem := by unfold writeDisicnt; split <;> rfl
@[simp] theorem writeDisicnt_prog (s : State) (v : BitVec 14) : (writeDisicnt s v).prog = s.prog := by unfold writeDisicnt; split <;> rfl
@[simp] theorem writeDisicnt_inttregFresh (s : State) (v : BitVec 14) : (writeDisicnt s v).inttregFresh = s.inttregFresh := by unfold writeDisicnt; split <;> rfl
@[simp] theorem writeDisicnt_ramEpoch (s : State) (v : BitVec 14) : (writeDisicnt s v).ramEpoch = s.ramEpoch := by unfold writeDisicnt; split <;> rfl
@[simp] theorem writeDisicnt_badFetch (s : State) (v : BitVec 14) : (writeDisicnt s v).badFetch = s.badFetch := by unfold writeDisicnt; split <;> rfl
@[simp] theorem writeDisicnt_divideLoops (s : State) (v : BitVec 14) : (writeDisicnt s v).divideLoops = s.divideLoops := by unfold writeDisicnt; split <;> rfl
@[simp] theorem writeDisicnt_draws (s : State) (v : BitVec 14) : (writeDisicnt s v).draws = s.draws := by unfold writeDisicnt; split <;> rfl
@[simp] theorem writeDisicnt_agenda (s : State) (v : BitVec 14) : (writeDisicnt s v).agenda = s.agenda := by unfold writeDisicnt; split <;> rfl
@[simp] theorem writeDisicnt_dev (s : State) (v : BitVec 14) : (writeDisicnt s v).dev = s.dev := by unfold writeDisicnt; split <;> rfl

@[simp] theorem raiseIrq_pc (s : State) (n : Nat) : (raiseIrq s n).pc = s.pc := by unfold raiseIrq; repeat (first | split | rfl)
@[simp] theorem raiseIrq_w (s : State) (n : Nat) : (raiseIrq s n).w = s.w := by unfold raiseIrq; repeat (first | split | rfl)
@[simp] theorem raiseIrq_splim (s : State) (n : Nat) : (raiseIrq s n).splim = s.splim := by unfold raiseIrq; repeat (first | split | rfl)
@[simp] theorem raiseIrq_splimWritten (s : State) (n : Nat) : (raiseIrq s n).splimWritten = s.splimWritten := by unfold raiseIrq; repeat (first | split | rfl)
@[simp] theorem raiseIrq_sr (s : State) (n : Nat) : (raiseIrq s n).sr = s.sr := by unfold raiseIrq; repeat (first | split | rfl)
@[simp] theorem raiseIrq_corcon (s : State) (n : Nat) : (raiseIrq s n).corcon = s.corcon := by unfold raiseIrq; repeat (first | split | rfl)
@[simp] theorem raiseIrq_disicnt (s : State) (n : Nat) : (raiseIrq s n).disicnt = s.disicnt := by unfold raiseIrq; repeat (first | split | rfl)
@[simp] theorem raiseIrq_disiActive (s : State) (n : Nat) : (raiseIrq s n).disiActive = s.disiActive := by unfold raiseIrq; repeat (first | split | rfl)
@[simp] theorem raiseIrq_intcon1 (s : State) (n : Nat) : (raiseIrq s n).intcon1 = s.intcon1 := by unfold raiseIrq; repeat (first | split | rfl)
@[simp] theorem raiseIrq_intcon2 (s : State) (n : Nat) : (raiseIrq s n).intcon2 = s.intcon2 := by unfold raiseIrq; repeat (first | split | rfl)
@[simp] theorem raiseIrq_iec (s : State) (n : Nat) : (raiseIrq s n).iec = s.iec := by unfold raiseIrq; repeat (first | split | rfl)
@[simp] theorem raiseIrq_ipc (s : State) (n : Nat) : (raiseIrq s n).ipc = s.ipc := by unfold raiseIrq; repeat (first | split | rfl)
@[simp] theorem raiseIrq_inttreg (s : State) (n : Nat) : (raiseIrq s n).inttreg = s.inttreg := by unfold raiseIrq; repeat (first | split | rfl)
@[simp] theorem raiseIrq_traprSet (s : State) (n : Nat) : (raiseIrq s n).traprSet = s.traprSet := by unfold raiseIrq; repeat (first | split | rfl)
@[simp] theorem raiseIrq_cfSet (s : State) (n : Nat) : (raiseIrq s n).cfSet = s.cfSet := by unfold raiseIrq; repeat (first | split | rfl)
@[simp] theorem raiseIrq_power (s : State) (n : Nat) : (raiseIrq s n).power = s.power := by unfold raiseIrq; repeat (first | split | rfl)
@[simp] theorem raiseIrq_accA (s : State) (n : Nat) : (raiseIrq s n).accA = s.accA := by unfold raiseIrq; repeat (first | split | rfl)
@[simp] theorem raiseIrq_accB (s : State) (n : Nat) : (raiseIrq s n).accB = s.accB := by unfold raiseIrq; repeat (first | split | rfl)
@[simp] theorem raiseIrq_pins (s : State) (n : Nat) : (raiseIrq s n).pins = s.pins := by unfold raiseIrq; repeat (first | split | rfl)
@[simp] theorem raiseIrq_bufPc (s : State) (n : Nat) : (raiseIrq s n).bufPc = s.bufPc := by unfold raiseIrq; repeat (first | split | rfl)
@[simp] theorem raiseIrq_bufSrl (s : State) (n : Nat) : (raiseIrq s n).bufSrl = s.bufSrl := by unfold raiseIrq; repeat (first | split | rfl)
@[simp] theorem raiseIrq_skid (s : State) (n : Nat) : (raiseIrq s n).skid = s.skid := by unfold raiseIrq; repeat (first | split | rfl)
@[simp] theorem raiseIrq_mem (s : State) (n : Nat) : (raiseIrq s n).mem = s.mem := by unfold raiseIrq; repeat (first | split | rfl)
@[simp] theorem raiseIrq_prog (s : State) (n : Nat) : (raiseIrq s n).prog = s.prog := by unfold raiseIrq; repeat (first | split | rfl)
@[simp] theorem raiseIrq_inttregFresh (s : State) (n : Nat) : (raiseIrq s n).inttregFresh = s.inttregFresh := by unfold raiseIrq; repeat (first | split | rfl)
@[simp] theorem raiseIrq_disiLoaded (s : State) (n : Nat) : (raiseIrq s n).disiLoaded = s.disiLoaded := by unfold raiseIrq; repeat (first | split | rfl)
@[simp] theorem raiseIrq_badFetch (s : State) (n : Nat) : (raiseIrq s n).badFetch = s.badFetch := by unfold raiseIrq; repeat (first | split | rfl)
@[simp] theorem raiseIrq_divideLoops (s : State) (n : Nat) : (raiseIrq s n).divideLoops = s.divideLoops := by unfold raiseIrq; repeat (first | split | rfl)
@[simp] theorem raiseIrq_ramEpoch (s : State) (n : Nat) : (raiseIrq s n).ramEpoch = s.ramEpoch := by unfold raiseIrq; repeat (first | split | rfl)
@[simp] theorem raiseIrq_draws (s : State) (n : Nat) : (raiseIrq s n).draws = s.draws := by unfold raiseIrq; repeat (first | split | rfl)
@[simp] theorem raiseIrq_agenda (s : State) (n : Nat) : (raiseIrq s n).agenda = s.agenda := by unfold raiseIrq; repeat (first | split | rfl)
@[simp] theorem raiseIrq_dev (s : State) (n : Nat) : (raiseIrq s n).dev = s.dev := by unfold raiseIrq; repeat (first | split | rfl)

@[simp] theorem elapse_pc (n : Nat) (s : State) : (elapse n s).pc = s.pc := by unfold elapse; repeat (first | split | rfl)
@[simp] theorem elapse_w (n : Nat) (s : State) : (elapse n s).w = s.w := by unfold elapse; repeat (first | split | rfl)
@[simp] theorem elapse_splim (n : Nat) (s : State) : (elapse n s).splim = s.splim := by unfold elapse; repeat (first | split | rfl)
@[simp] theorem elapse_splimWritten (n : Nat) (s : State) : (elapse n s).splimWritten = s.splimWritten := by unfold elapse; repeat (first | split | rfl)
@[simp] theorem elapse_sr (n : Nat) (s : State) : (elapse n s).sr = s.sr := by unfold elapse; repeat (first | split | rfl)
@[simp] theorem elapse_corcon (n : Nat) (s : State) : (elapse n s).corcon = s.corcon := by unfold elapse; repeat (first | split | rfl)
@[simp] theorem elapse_intcon1 (n : Nat) (s : State) : (elapse n s).intcon1 = s.intcon1 := by unfold elapse; repeat (first | split | rfl)
@[simp] theorem elapse_intcon2 (n : Nat) (s : State) : (elapse n s).intcon2 = s.intcon2 := by unfold elapse; repeat (first | split | rfl)
@[simp] theorem elapse_ifs (n : Nat) (s : State) : (elapse n s).ifs = s.ifs := by unfold elapse; repeat (first | split | rfl)
@[simp] theorem elapse_iec (n : Nat) (s : State) : (elapse n s).iec = s.iec := by unfold elapse; repeat (first | split | rfl)
@[simp] theorem elapse_ipc (n : Nat) (s : State) : (elapse n s).ipc = s.ipc := by unfold elapse; repeat (first | split | rfl)
@[simp] theorem elapse_inttreg (n : Nat) (s : State) : (elapse n s).inttreg = s.inttreg := by unfold elapse; repeat (first | split | rfl)
@[simp] theorem elapse_traprSet (n : Nat) (s : State) : (elapse n s).traprSet = s.traprSet := by unfold elapse; repeat (first | split | rfl)
@[simp] theorem elapse_cfSet (n : Nat) (s : State) : (elapse n s).cfSet = s.cfSet := by unfold elapse; repeat (first | split | rfl)
@[simp] theorem elapse_power (n : Nat) (s : State) : (elapse n s).power = s.power := by unfold elapse; repeat (first | split | rfl)
@[simp] theorem elapse_accA (n : Nat) (s : State) : (elapse n s).accA = s.accA := by unfold elapse; repeat (first | split | rfl)
@[simp] theorem elapse_accB (n : Nat) (s : State) : (elapse n s).accB = s.accB := by unfold elapse; repeat (first | split | rfl)
@[simp] theorem elapse_pins (n : Nat) (s : State) : (elapse n s).pins = s.pins := by unfold elapse; repeat (first | split | rfl)
@[simp] theorem elapse_bufPc (n : Nat) (s : State) : (elapse n s).bufPc = s.bufPc := by unfold elapse; repeat (first | split | rfl)
@[simp] theorem elapse_bufSrl (n : Nat) (s : State) : (elapse n s).bufSrl = s.bufSrl := by unfold elapse; repeat (first | split | rfl)
@[simp] theorem elapse_skid (n : Nat) (s : State) : (elapse n s).skid = s.skid := by unfold elapse; repeat (first | split | rfl)
@[simp] theorem elapse_mem (n : Nat) (s : State) : (elapse n s).mem = s.mem := by unfold elapse; repeat (first | split | rfl)
@[simp] theorem elapse_prog (n : Nat) (s : State) : (elapse n s).prog = s.prog := by unfold elapse; repeat (first | split | rfl)
@[simp] theorem elapse_inttregFresh (n : Nat) (s : State) : (elapse n s).inttregFresh = s.inttregFresh := by unfold elapse; repeat (first | split | rfl)
@[simp] theorem elapse_ramEpoch (n : Nat) (s : State) : (elapse n s).ramEpoch = s.ramEpoch := by unfold elapse; repeat (first | split | rfl)
@[simp] theorem elapse_badFetch (n : Nat) (s : State) : (elapse n s).badFetch = s.badFetch := by unfold elapse; repeat (first | split | rfl)
@[simp] theorem elapse_divideLoops (n : Nat) (s : State) : (elapse n s).divideLoops = s.divideLoops := by unfold elapse; repeat (first | split | rfl)
@[simp] theorem elapse_draws (n : Nat) (s : State) : (elapse n s).draws = s.draws := by unfold elapse; repeat (first | split | rfl)
@[simp] theorem elapse_agenda (n : Nat) (s : State) : (elapse n s).agenda = s.agenda := by unfold elapse; repeat (first | split | rfl)
@[simp] theorem elapse_dev (n : Nat) (s : State) : (elapse n s).dev = s.dev := by unfold elapse; repeat (first | split | rfl)

@[simp] theorem deviceReset_pc (c : ResetCause) (s : State) : (deviceReset c s).pc = resetPc s.dev := rfl
@[simp] theorem deviceReset_w (c : ResetCause) (s : State) : (deviceReset c s).w = Vector.ofFn (fun i : Fin 16 => if i = 15 then resetSp s.dev else Config.resetWord s.draws i.val) := rfl
@[simp] theorem deviceReset_splimWritten (c : ResetCause) (s : State) : (deviceReset c s).splimWritten = false := rfl
@[simp] theorem deviceReset_sr (c : ResetCause) (s : State) : (deviceReset c s).sr = 0#16 := rfl
@[simp] theorem deviceReset_corcon (c : ResetCause) (s : State) : (deviceReset c s).corcon = 0x0020#16 := rfl
@[simp] theorem deviceReset_disicnt (c : ResetCause) (s : State) : (deviceReset c s).disicnt = 0#14 := rfl
@[simp] theorem deviceReset_disiActive (c : ResetCause) (s : State) : (deviceReset c s).disiActive = false := rfl
@[simp] theorem deviceReset_intcon1 (c : ResetCause) (s : State) : (deviceReset c s).intcon1 = 0#16 := rfl
@[simp] theorem deviceReset_intcon2 (c : ResetCause) (s : State) : (deviceReset c s).intcon2 = 0#16 := rfl
@[simp] theorem deviceReset_ifs (c : ResetCause) (s : State) : (deviceReset c s).ifs = Vector.ofFn (fun _ => 0#16) := rfl
@[simp] theorem deviceReset_iec (c : ResetCause) (s : State) : (deviceReset c s).iec = Vector.ofFn (fun _ => 0#16) := rfl
@[simp] theorem deviceReset_ipc (c : ResetCause) (s : State) : (deviceReset c s).ipc = Vector.ofFn (fun x : Fin 30 => priorityReset s.dev x.val) := rfl
@[simp] theorem deviceReset_inttreg (c : ResetCause) (s : State) : (deviceReset c s).inttreg = 0#16 := rfl
@[simp] theorem deviceReset_traprSet (c : ResetCause) (s : State) : (deviceReset c s).traprSet = decide (c = .trapConflict) := rfl
@[simp] theorem deviceReset_cfSet (c : ResetCause) (s : State) : (deviceReset c s).cfSet = false := rfl
@[simp] theorem deviceReset_power (c : ResetCause) (s : State) : (deviceReset c s).power = .run := rfl
@[simp] theorem deviceReset_skid (c : ResetCause) (s : State) : (deviceReset c s).skid = 0 := rfl
@[simp] theorem deviceReset_mem (c : ResetCause) (s : State) : (deviceReset c s).mem = [] := rfl
@[simp] theorem deviceReset_prog (c : ResetCause) (s : State) : (deviceReset c s).prog = s.prog := rfl
@[simp] theorem deviceReset_inttregFresh (c : ResetCause) (s : State) : (deviceReset c s).inttregFresh = true := rfl
@[simp] theorem deviceReset_disiLoaded (c : ResetCause) (s : State) : (deviceReset c s).disiLoaded = false := rfl
@[simp] theorem deviceReset_badFetch (c : ResetCause) (s : State) : (deviceReset c s).badFetch = false := rfl
@[simp] theorem deviceReset_divideLoops (c : ResetCause) (s : State) : (deviceReset c s).divideLoops = [] := rfl
@[simp] theorem deviceReset_ramEpoch (c : ResetCause) (s : State) : (deviceReset c s).ramEpoch = s.ramEpoch + 1 := rfl
@[simp] theorem deviceReset_draws (c : ResetCause) (s : State) : (deviceReset c s).draws = s.draws := rfl
@[simp] theorem deviceReset_agenda (c : ResetCause) (s : State) : (deviceReset c s).agenda = s.agenda := rfl
@[simp] theorem deviceReset_dev (c : ResetCause) (s : State) : (deviceReset c s).dev = s.dev := rfl

@[simp] theorem handlerState_pc (s s2 : State) (x : Exception) (a : ProgAddr) :
    (handlerState s s2 x a).pc = a := rfl
@[simp] theorem handlerState_w (s s2 : State) (x : Exception) (a : ProgAddr) :
    (handlerState s s2 x a).w = s2.w := rfl
@[simp] theorem handlerState_splim (s s2 : State) (x : Exception) (a : ProgAddr) :
    (handlerState s s2 x a).splim = s2.splim := rfl
@[simp] theorem handlerState_splimWritten (s s2 : State) (x : Exception) (a : ProgAddr) :
    (handlerState s s2 x a).splimWritten = s2.splimWritten := rfl
@[simp] theorem handlerState_sr (s s2 : State) (x : Exception) (a : ProgAddr) :
    (handlerState s s2 x a).sr = withIpl s2.sr (exceptionIpl s s2 x) := rfl
@[simp] theorem handlerState_corcon (s s2 : State) (x : Exception) (a : ProgAddr) :
    (handlerState s s2 x a).corcon = setBit s2.corcon 3 (exceptionIpl3 s2 x) := rfl
@[simp] theorem handlerState_disicnt (s s2 : State) (x : Exception) (a : ProgAddr) :
    (handlerState s s2 x a).disicnt = s2.disicnt := rfl
@[simp] theorem handlerState_disiActive (s s2 : State) (x : Exception) (a : ProgAddr) :
    (handlerState s s2 x a).disiActive = s2.disiActive := rfl
@[simp] theorem handlerState_intcon1 (s s2 : State) (x : Exception) (a : ProgAddr) :
    (handlerState s s2 x a).intcon1 = s2.intcon1 := rfl
@[simp] theorem handlerState_intcon2 (s s2 : State) (x : Exception) (a : ProgAddr) :
    (handlerState s s2 x a).intcon2 = s2.intcon2 := rfl
@[simp] theorem handlerState_ifs (s s2 : State) (x : Exception) (a : ProgAddr) :
    (handlerState s s2 x a).ifs = s2.ifs := rfl
@[simp] theorem handlerState_iec (s s2 : State) (x : Exception) (a : ProgAddr) :
    (handlerState s s2 x a).iec = s2.iec := rfl
@[simp] theorem handlerState_ipc (s s2 : State) (x : Exception) (a : ProgAddr) :
    (handlerState s s2 x a).ipc = s2.ipc := rfl
@[simp] theorem handlerState_inttreg (s s2 : State) (x : Exception) (a : ProgAddr) :
    (handlerState s s2 x a).inttreg = 0#4 ++ BitVec.ofNat 4 (exceptionLevel s x) ++ 0#1 ++ exceptionVecnum s x := rfl
@[simp] theorem handlerState_traprSet (s s2 : State) (x : Exception) (a : ProgAddr) :
    (handlerState s s2 x a).traprSet = s2.traprSet := rfl
@[simp] theorem handlerState_cfSet (s s2 : State) (x : Exception) (a : ProgAddr) :
    (handlerState s s2 x a).cfSet = s2.cfSet := rfl
@[simp] theorem handlerState_power (s s2 : State) (x : Exception) (a : ProgAddr) :
    (handlerState s s2 x a).power = .run := rfl
@[simp] theorem handlerState_accA (s s2 : State) (x : Exception) (a : ProgAddr) :
    (handlerState s s2 x a).accA = s2.accA := rfl
@[simp] theorem handlerState_accB (s s2 : State) (x : Exception) (a : ProgAddr) :
    (handlerState s s2 x a).accB = s2.accB := rfl
@[simp] theorem handlerState_pins (s s2 : State) (x : Exception) (a : ProgAddr) :
    (handlerState s s2 x a).pins = s2.pins := rfl
@[simp] theorem handlerState_bufPc (s s2 : State) (x : Exception) (a : ProgAddr) :
    (handlerState s s2 x a).bufPc = returnAddress s x := rfl
@[simp] theorem handlerState_bufSrl (s s2 : State) (x : Exception) (a : ProgAddr) :
    (handlerState s s2 x a).bufSrl = srl s := rfl
@[simp] theorem handlerState_skid (s s2 : State) (x : Exception) (a : ProgAddr) :
    (handlerState s s2 x a).skid = s2.skid := rfl
@[simp] theorem handlerState_mem (s s2 : State) (x : Exception) (a : ProgAddr) :
    (handlerState s s2 x a).mem = s2.mem := rfl
@[simp] theorem handlerState_prog (s s2 : State) (x : Exception) (a : ProgAddr) :
    (handlerState s s2 x a).prog = s2.prog := rfl
@[simp] theorem handlerState_inttregFresh (s s2 : State) (x : Exception) (a : ProgAddr) :
    (handlerState s s2 x a).inttregFresh = true := rfl
@[simp] theorem handlerState_disiLoaded (s s2 : State) (x : Exception) (a : ProgAddr) :
    (handlerState s s2 x a).disiLoaded = false := rfl
@[simp] theorem handlerState_badFetch (s s2 : State) (x : Exception) (a : ProgAddr) :
    (handlerState s s2 x a).badFetch = badFetchAfter s2 x := rfl
@[simp] theorem handlerState_divideLoops (s s2 : State) (x : Exception) (a : ProgAddr) :
    (handlerState s s2 x a).divideLoops = s2.divideLoops := rfl
@[simp] theorem handlerState_ramEpoch (s s2 : State) (x : Exception) (a : ProgAddr) :
    (handlerState s s2 x a).ramEpoch = s2.ramEpoch := rfl
@[simp] theorem handlerState_draws (s s2 : State) (x : Exception) (a : ProgAddr) :
    (handlerState s s2 x a).draws = s2.draws := rfl
@[simp] theorem handlerState_agenda (s s2 : State) (x : Exception) (a : ProgAddr) :
    (handlerState s s2 x a).agenda = s2.agenda := rfl
@[simp] theorem handlerState_dev (s s2 : State) (x : Exception) (a : ProgAddr) :
    (handlerState s s2 x a).dev = s2.dev := rfl

/-- An update with no event is no update. -/
@[simp] theorem raiseSoft_quiet (s : State) : raiseSoft quiet s = s := by
  simp [raiseSoft, quiet]

end Sys2Proof.Machine
end

