-- ==== Sys2Proof/Laws/Bits.lean ====
section
/-! SUPPORT. Bits of the registers after the named bit operations. -/

namespace Sys2Proof.Machine

/-- Bit `i` after `REG<b> <- v`. -/
theorem setBit_getLsbD (w : Word) {b : Nat} (hb : b < 16) (v : Bool) (i : Nat) :
    (setBit w b v).getLsbD i = if i = b then v else w.getLsbD i := by
  unfold setBit
  by_cases hi : i < 16
  · cases v <;> by_cases h : i = b
    · subst h; simp [hi]
    · have : ¬ (i - b = 0 ∧ b ≤ i) := by omega
      by_cases hlt : i < b <;> (simp [h, hi, hlt]; try omega)
    · subst h; simp [hi]
    · by_cases hlt : i < b <;> (simp [h, hi, hlt]; try omega)
  · have h16 : 16 ≤ i := by omega
    have : i ≠ b := by omega
    simp [BitVec.getLsbD_of_ge _ _ h16, this]

/-- The fold of `ofBits` over any list of bit numbers. -/
theorem ofBits_fold {n : Nat} (p : Nat → Bool) (l : List Nat) (m : BitVec n) (i : Nat) :
    (l.foldl (fun m b => if p b then m ||| (1#n <<< b) else m) m).getLsbD i =
      (m.getLsbD i || (decide (i < n) && l.contains i && p i)) := by
  induction l generalizing m with
  | nil => simp
  | cons b l ih =>
    rw [List.foldl_cons, ih]
    by_cases hi : i < n
    · have e : (1#n <<< b).getLsbD i = decide (i = b) := by
        by_cases hlt : i < b
        · have : i ≠ b := by omega
          simp [hlt, this]
        · have : (i - b = 0) = (i = b) := by simp only [eq_iff_iff]; omega
          simp [hi, hlt, this]
      by_cases hp : p b
      · rw [if_pos hp, BitVec.getLsbD_or, e]
        by_cases h : i = b
        · subst h; simp [hp, hi]
        · simp [h]
      · rw [if_neg hp]
        by_cases h : i = b
        · subst h; simp [hp]
        · simp [h]
    · have hn : n ≤ i := by omega
      simp [hi, BitVec.getLsbD_of_ge _ _ hn]

/-- Bit `i` of the bit vector built from a predicate. -/
@[simp] theorem ofBits_getLsbD (n : Nat) (p : Nat → Bool) (i : Nat) :
    (ofBits n p).getLsbD i = (decide (i < n) && p i) := by
  unfold ofBits
  rw [ofBits_fold]
  by_cases hi : i < n
  · simp [hi]
  · simp [hi]

/-- Bit `i` of the word built from a predicate. -/
@[simp] theorem maskOf_getLsbD (p : Nat → Bool) (i : Nat) : (maskOf p).getLsbD i = (decide (i < 16) && p i) :=
  ofBits_getLsbD 16 p i

/-- Bit `i` after a software write (42_sfr_access.md R121). -/
theorem mergeWrite_getLsbD (old v sel wm co : Word) (i : Nat) :
    (mergeWrite old v sel wm co).getLsbD i =
      ((if wm.getLsbD i && sel.getLsbD i then v.getLsbD i else old.getLsbD i) &&
        !(co.getLsbD i && sel.getLsbD i && !v.getLsbD i)) := by
  unfold mergeWrite
  by_cases hi : i < 16
  · simp only [BitVec.getLsbD_and, BitVec.getLsbD_or, BitVec.getLsbD_not, hi, decide_true, Bool.true_and]
    cases wm.getLsbD i <;> cases sel.getLsbD i <;> cases v.getLsbD i <;> cases old.getLsbD i <;>
      cases co.getLsbD i <;> rfl
  · have h16 : 16 ≤ i := by omega
    simp [BitVec.getLsbD_of_ge _ _ h16]

/-- A write never sets a bit that is neither writable nor already set. -/
theorem mergeWrite_clear (old v sel wm co m : Word) (hw : wm &&& m = 0#16) (ho : old &&& m = 0#16) :
    mergeWrite old v sel wm co &&& m = 0#16 := by
  apply BitVec.eq_of_getLsbD_eq
  intro i hi
  have h1 := congrArg (fun x => x.getLsbD i) hw
  have h2 := congrArg (fun x => x.getLsbD i) ho
  simp only [BitVec.getLsbD_and, BitVec.getLsbD_zero, mergeWrite_getLsbD] at h1 h2 ⊢
  cases hm : m.getLsbD i <;> simp_all

/-- An even part is even. -/
theorem evenPart_getLsbD_zero (a : Word) : (evenPart a).getLsbD 0 = false := by
  simp [evenPart]

/-- An even part is even. -/
@[simp] theorem evenPart_getElem_zero (a : Word) : (evenPart a)[0] = false := by
  simp [evenPart]

/-- An even address is its own even part. -/
theorem evenPart_of_even {a : Word} (h : a.getLsbD 0 = false) : evenPart a = a := by
  apply BitVec.eq_of_getLsbD_eq
  intro i hi
  unfold evenPart
  interval_cases i <;> simp_all

/-- An even program address has bit 0 clear. -/
theorem evenPc_getLsbD_zero (a : ProgAddr) : (evenPc a).getLsbD 0 = false := by
  simp [evenPc]

/-- An even program address has bit 0 clear. -/
@[simp] theorem evenPc_getElem_zero (a : ProgAddr) : (evenPc a)[0] = false := by
  simp [evenPc]

/-- An even program address is kept. -/
theorem evenPc_of_even {a : ProgAddr} (h : a.getLsbD 0 = false) : evenPc a = a := by
  apply BitVec.eq_of_getLsbD_eq
  intro i hi
  unfold evenPc
  interval_cases i <;> simp_all

/-- Bit `i` of the low bits of a value. -/
@[simp] theorem narrow_getLsbD {w : Nat} (n : Nat) (x : BitVec w) (i : Nat) :
    (narrow n x).getLsbD i = (decide (i < n) && x.getLsbD i) := by
  simp only [narrow, BitVec.getLsbD_and, BitVec.getLsbD_ofNat, Nat.testBit_two_pow_sub_one]
  by_cases h : i < w
  · simp [h, Bool.and_comm]
  · simp [BitVec.getLsbD_of_ge x i (by omega)]

/-- The low bits of a value, as a number. -/
theorem narrow_toNat {w : Nat} (n : Nat) (x : BitVec w) : (narrow n x).toNat = x.toNat % 2 ^ n := by
  apply Nat.eq_of_testBit_eq
  intro i
  rw [Nat.testBit_mod_two_pow]
  exact narrow_getLsbD n x i

/-- As many bits as the value has are the value. -/
theorem narrow_of_le {w n : Nat} (x : BitVec w) (h : w ≤ n) : narrow n x = x := by
  apply BitVec.eq_of_getLsbD_eq
  intro i hi
  simp [Nat.lt_of_lt_of_le hi h]

@[simp] theorem narrow_narrow {w : Nat} (n : Nat) (x : BitVec w) : narrow n (narrow n x) = narrow n x := by
  apply BitVec.eq_of_getLsbD_eq
  intro i hi
  simp

/-- With R74's 16 address bits a data address is its own effective address. -/
theorem eaOf_full {d : Device} (h : 16 ≤ d.dataAddrBits) (a : DataAddr) : eaOf d a = a := narrow_of_le a h

/-- What pc holds is what it would hold again. -/
@[simp] theorem pcOf_pcOf (d : Device) (a : ProgAddr) : pcOf d (pcOf d a) = pcOf d a := by
  apply BitVec.eq_of_getLsbD_eq
  intro i hi
  simp only [pcOf, narrow_getLsbD, evenPc, BitVec.getLsbD_and]
  cases decide (i < d.pcBits) <;> simp

/-- With 23 bits pc holds every even program address as it is. -/
theorem pcOf_full {d : Device} (h : 23 ≤ d.pcBits) (a : ProgAddr) : pcOf d a = evenPc a := narrow_of_le _ h

/-- pc is even. -/
theorem pcOf_getLsbD_zero (d : Device) (a : ProgAddr) : (pcOf d a).getLsbD 0 = false := by
  rw [pcOf, narrow_getLsbD, evenPc_getLsbD_zero, Bool.and_false]

/-- What pc holds of an even program address, as a number. -/
theorem pcOf_toNat (d : Device) {a : ProgAddr} (h : a.toNat % 2 = 0) : (pcOf d a).toNat = a.toNat % 2 ^ d.pcBits := by
  rw [pcOf, narrow_toNat, evenPc_of_even (by simp [BitVec.getLsbD, Nat.testBit_zero, h])]

/-- Little-endian halves put together give the word. -/
@[simp] theorem wordOfBytes_lowByte_highByte (v : Word) : wordOfBytes (lowByte v) (highByte v) = v := by
  apply BitVec.eq_of_getLsbD_eq
  intro i hi
  simp only [wordOfBytes, lowByte, highByte, BitVec.getLsbD_append, BitVec.getLsbD_extractLsb']
  by_cases h : i < 8
  · simp [h]
  · have h8 : i - 8 < 8 := by omega
    have : 8 + (i - 8) = i := by omega
    simp [h, h8, this]

@[simp] theorem lowByte_wordOfBytes (lo hi : Byte) : lowByte (wordOfBytes lo hi) = lo := by
  apply BitVec.eq_of_getLsbD_eq
  intro i hi
  simp only [lowByte, wordOfBytes, BitVec.getLsbD_append, BitVec.getLsbD_extractLsb']
  simp [hi]

@[simp] theorem highByte_wordOfBytes (lo hi : Byte) : highByte (wordOfBytes lo hi) = hi := by
  apply BitVec.eq_of_getLsbD_eq
  intro i hi
  simp only [highByte, wordOfBytes, BitVec.getLsbD_append, BitVec.getLsbD_extractLsb']
  simp [hi]

/-- IPL<2:0> after it is written. -/
@[simp] theorem withIpl_ipl (sr : Word) (k : BitVec 3) : (withIpl sr k).extractLsb' 5 3 = k := by
  apply BitVec.eq_of_getLsbD_eq
  intro i hi
  unfold withIpl
  simp only [BitVec.getLsbD_append, BitVec.getLsbD_extractLsb']
  interval_cases i <;> simp

/-- SRL after it is written. -/
@[simp] theorem withSrl_srl (sr : Word) (b : BitVec 8) : (withSrl sr b).extractLsb' 0 8 = b := by
  apply BitVec.eq_of_getLsbD_eq
  intro i hi
  simp only [withSrl, BitVec.getLsbD_append, BitVec.getLsbD_extractLsb']
  simp [hi]

/-- The high byte of SR is kept when its low byte is written. -/
@[simp] theorem withSrl_high (sr : Word) (b : BitVec 8) : (withSrl sr b).extractLsb' 8 8 = sr.extractLsb' 8 8 := by
  apply BitVec.eq_of_getLsbD_eq
  intro i hi
  simp only [withSrl, BitVec.getLsbD_append, BitVec.getLsbD_extractLsb']
  simp [hi]

/-- The high byte of SR is kept when IPL<2:0> is written. -/
@[simp] theorem withIpl_high (sr : Word) (k : BitVec 3) : (withIpl sr k).extractLsb' 8 8 = sr.extractLsb' 8 8 := by
  apply BitVec.eq_of_getLsbD_eq
  intro i hi
  simp only [withIpl, BitVec.getLsbD_append, BitVec.getLsbD_extractLsb']
  interval_cases i <;> simp

/-- Writing back the low byte of SR changes nothing. -/
@[simp] theorem withSrl_self (sr : Word) : withSrl sr (sr.extractLsb' 0 8) = sr := by
  apply BitVec.eq_of_getLsbD_eq
  intro i hi
  simp only [withSrl, BitVec.getLsbD_append, BitVec.getLsbD_extractLsb']
  by_cases h : i < 8
  · simp [h]
  · have h8 : i - 8 < 8 := by omega
    have : 8 + (i - 8) = i := by omega
    simp [h, h8, this]

/-- The low byte written over a changed IPL<2:0> is the low byte written. -/
@[simp] theorem withSrl_withIpl (sr : Word) (k : BitVec 3) (b : BitVec 8) : withSrl (withIpl sr k) b = withSrl sr b := by
  unfold withSrl
  rw [withIpl_high]

end Sys2Proof.Machine
end

