-- ==== Sys2Proof/Laws/Memory.lean ====
section
/-! SUPPORT. Reading what was written, and the canonical form of the memories. -/

namespace Sys2Proof.Machine

variable {β : Type}

/-- A key reads as what was put there. -/
@[simp] theorem assocGet_assocPut_same (m : List (Nat × β)) (a : Nat) (v : β) :
    assocGet (assocPut m a v) a = some v := by
  induction m with
  | nil => simp [assocPut, assocGet]
  | cons e m ih =>
    obtain ⟨k, u⟩ := e
    simp only [assocPut]
    split
    · simp [assocGet]
    · split
      · simp [assocGet]
      · rename_i h
        simp [assocGet, Ne.symm h, ih]

/-- Putting at one key leaves every other key alone. -/
theorem assocGet_assocPut_ne (m : List (Nat × β)) {a b : Nat} (v : β) (h : b ≠ a) :
    assocGet (assocPut m a v) b = assocGet m b := by
  induction m with
  | nil => simp [assocPut, assocGet, Ne.symm h]
  | cons e m ih =>
    obtain ⟨k, u⟩ := e
    simp only [assocPut]
    split
    · simp [assocGet, Ne.symm h]
    · split
      · rename_i h2
        subst h2
        simp [assocGet, Ne.symm h]
      · simp [assocGet, ih]

/-- Reading a key after a put. -/
theorem assocGet_assocPut (m : List (Nat × β)) (a b : Nat) (v : β) :
    assocGet (assocPut m a v) b = if b = a then some v else assocGet m b := by
  split
  · subst b; simp
  · rename_i h; exact assocGet_assocPut_ne m v h

/-- A list whose keys rise from `lo` rises from any smaller bound. -/
theorem keysRise_mono {lo lo' hi : Nat} (h : lo' ≤ lo) (m : List (Nat × β)) (hm : keysRise lo hi m = true) :
    keysRise lo' hi m = true := by
  cases m with
  | nil => rfl
  | cons e m =>
    simp only [keysRise, Bool.and_eq_true, decide_eq_true_eq] at hm ⊢
    exact ⟨⟨le_trans h hm.1.1, hm.1.2⟩, hm.2⟩

/-- A put keeps the keys rising. -/
theorem keysRise_assocPut {lo hi a : Nat} (v : β) (m : List (Nat × β)) (hl : lo ≤ a) (hh : a < hi)
    (hm : keysRise lo hi m = true) : keysRise lo hi (assocPut m a v) = true := by
  induction m generalizing lo with
  | nil => simp [assocPut, keysRise, hl, hh]
  | cons e m ih =>
    obtain ⟨k, u⟩ := e
    simp only [keysRise, Bool.and_eq_true, decide_eq_true_eq] at hm
    obtain ⟨⟨h1, h2⟩, h3⟩ := hm
    simp only [assocPut]
    split
    · rename_i h
      simp [keysRise, hl, hh, h2, h3, Nat.succ_le_of_lt h]
    · split
      · rename_i h
        subst h
        simp [keysRise, h1, h2, h3]
      · rename_i h4 h5
        simp only [keysRise, Bool.and_eq_true, decide_eq_true_eq]
        exact ⟨⟨h1, h2⟩, ih (by omega) h3⟩

/-- A store to RAM keeps the canonical form. -/
theorem memoryWf_ramWrite (s : State) (a : DataAddr) (b : Byte) (h : memoryWf s.mem = true) :
    memoryWf (ramWrite s a b).mem = true := by
  unfold ramWrite
  split
  · exact keysRise_assocPut b s.mem (Nat.zero_le _) (eaOf s.dev a).isLt h
  · exact h

/-- The memory after reset has the canonical form. -/
theorem memoryWf_reset : memoryWf State.reset.mem = true := rfl

/-- A byte of RAM after a store. -/
theorem ramRead_ramWrite (s : State) (a c : DataAddr) (b : Byte) :
    ramRead (ramWrite s a b) c = if eaOf s.dev c = eaOf s.dev a ∧ isRam s.dev a then b else ramRead s c := by
  unfold ramWrite
  by_cases hr : isRam s.dev a
  · simp only [hr, if_true, and_true, ramRead, assocGet_assocPut]
    by_cases hc : eaOf s.dev c = eaOf s.dev a
    · simp [hc]
    · have : (eaOf s.dev c).toNat ≠ (eaOf s.dev a).toNat := fun h => hc (BitVec.eq_of_toNat_eq h)
      simp [hc, this]
  · simp [hr]

/-- A store leaves every other byte of RAM alone. -/
theorem ramRead_ramWrite_ne (s : State) {a c : DataAddr} (b : Byte) (h : eaOf s.dev c ≠ eaOf s.dev a) :
    ramRead (ramWrite s a b) c = ramRead s c := by
  simp [ramRead_ramWrite, h]

/-- A program word reads back where it was loaded, and only there. -/
theorem progAt_loadWord (s : State) (a b : ProgAddr) (v : ProgWord) :
    progAt (loadWord s a v) b = if b = a then some (.word v) else progAt s b := by
  unfold progAt loadWord
  simp only [assocGet_assocPut]
  by_cases h : b = a
  · simp [h]
  · have : b.toNat ≠ a.toNat := fun e => h (BitVec.eq_of_toNat_eq e)
    simp [h, this]

/-- Loading a program word keeps the canonical form of program memory. -/
theorem programWf_loadWord (s : State) (a : ProgAddr) (v : ProgWord) (h : programWf s.prog = true) :
    programWf (loadWord s a v).prog = true :=
  keysRise_assocPut _ s.prog (Nat.zero_le _) a.isLt h

end Sys2Proof.Machine
end

