-- ==== Sys2Proof/Laws/Ops.lean ====
section
/-! SUPPORT. What each shared operation can do, said once. -/

namespace Sys2Proof.Machine

/-! Reading the stack pointer and the derived fields after an update. -/

@[simp] theorem sp_advance (s : State) : sp (advance s) = sp s := rfl
@[simp] theorem sp_setPc (s : State) (a : ProgAddr) : sp (setPc s a) = sp s := rfl
@[simp] theorem sp_raiseSoft (e : Events) (s : State) : sp (raiseSoft e s) = sp s := rfl
@[simp] theorem sp_markFetch (b : Bool) (s : State) : sp (markFetch b s) = sp s := rfl
@[simp] theorem sp_advanceBy (n : Nat) (s : State) : sp (advanceBy n s) = sp s := rfl
@[simp] theorem sp_beginLoop (s : State) : sp (beginLoop s) = sp s := by simp [sp]
@[simp] theorem sp_freeFlags (s : State) : sp (freeFlags s) = sp s := rfl
@[simp] theorem sp_withFlags (s : State) (v m : Word) : sp (withFlags s v m) = sp s := rfl
@[simp] theorem sp_setRepeatActive (s : State) (v : Bool) : sp (setRepeatActive s v) = sp s := rfl
@[simp] theorem sp_ramWrite (s : State) (a : DataAddr) (b : Byte) : sp (ramWrite s a b) = sp s := by simp [sp]
@[simp] theorem sp_writeDisicnt (s : State) (v : BitVec 14) : sp (writeDisicnt s v) = sp s := by simp [sp]
@[simp] theorem sp_putAcc (s : State) (acc : Acc) (v : BitVec 40) (c : Bool) : sp (putAcc s acc v c) = sp s := by
  simp [sp]

/-- The address of the next instruction depends on pc and the device. -/
theorem nextPc_congr {s t : State} (hp : t.pc = s.pc) (hd : t.dev = s.dev) : nextPc t = nextPc s := by
  simp [nextPc, hp, hd]

@[simp] theorem nextPc_putW (s : State) (i : WReg) (v : Word) : nextPc (putW s i v) = nextPc s := rfl
@[simp] theorem nextPc_popState (s : State) : nextPc (popState s) = nextPc s := rfl
@[simp] theorem nextPc_withFlags (s : State) (v m : Word) : nextPc (withFlags s v m) = nextPc s := rfl
@[simp] theorem nextPc_freeFlags (s : State) : nextPc (freeFlags s) = nextPc s := rfl
@[simp] theorem nextPc_setRepeatActive (s : State) (v : Bool) : nextPc (setRepeatActive s v) = nextPc s := rfl
@[simp] theorem nextPc_loadDisicnt (s : State) (v : DisiCount) : nextPc (loadDisicnt s v) = nextPc s := rfl
@[simp] theorem nextPc_putAcc (s : State) (acc : Acc) (v : BitVec 40) (c : Bool) :
    nextPc (putAcc s acc v c) = nextPc s := nextPc_congr (by simp) (by simp)
@[simp] theorem nextPc_ramWrite (s : State) (a : DataAddr) (b : Byte) : nextPc (ramWrite s a b) = nextPc s :=
  nextPc_congr (by simp) (by simp)

/-- pc + 2 as a number (R105, R6). -/
theorem nextPc_toNat {s : State} (h : s.pc.getLsbD 0 = false) :
    (nextPc s).toNat = (s.pc.toNat + 2) % 2 ^ min 23 s.dev.pcBits := by
  have hp : s.pc.toNat % 2 = 0 := by simpa [BitVec.getLsbD, Nat.testBit_zero] using h
  have he : (s.pc + 2#23).toNat % 2 = 0 := by rw [BitVec.toNat_add]; simp; omega
  rw [nextPc, pcOf_toNat _ he, BitVec.toNat_add]
  rcases Nat.le_total 23 s.dev.pcBits with hb | hb
  · rw [Nat.min_eq_left hb, Nat.mod_eq_of_lt]
    · rfl
    · exact Nat.lt_of_lt_of_le (Nat.mod_lt _ (by decide)) (Nat.pow_le_pow_right (by decide) hb)
  · rw [Nat.min_eq_right hb, Nat.mod_mod_of_dvd _ (Nat.pow_dvd_pow 2 hb)]
    rfl

/-- W15 after a write to W15 is the even part of the value written. -/
@[simp] theorem sp_putW_self (s : State) (v : Word) : sp (putW s 15 v) = evenPart v := by
  simp [sp, putW]

/-- W15 after a write to another working register. -/
theorem sp_putW_ne (s : State) (i : WReg) (v : Word) (h : i ≠ 15) : sp (putW s i v) = sp s := by
  have : i.val ≠ 15 := fun e => h (Fin.ext e)
  simp [sp, putW, this]

/-- The stack pointer after a pop. -/
@[simp] theorem sp_popState (s : State) : sp (popState s) = evenPart (sp s - 2#16) := by
  simp [popState]

/-- W15 is even after every write to a working register, if it was. -/
theorem sp_putW_even (s : State) (i : WReg) (v : Word) (h : (sp s).getLsbD 0 = false) :
    (sp (putW s i v)).getLsbD 0 = false := by
  by_cases hi : i = 15
  · subst hi; simp
  · rw [sp_putW_ne s i v hi]; exact h

@[simp] theorem isRam_ramWrite (s : State) (a b : DataAddr) (v : Byte) :
    isRam (ramWrite s a v).dev b = isRam s.dev b := by simp

/-- The fields that no register write touches. -/
theorem sfrWrite_frame {s t : State} {r : Sfr} {v sel : Word} {e : Events}
    (h : sfrWrite s r v sel = .ok (t, e)) :
    t.pc = s.pc ∧ t.inttreg = s.inttreg ∧ t.power = s.power ∧ t.accA = s.accA ∧ t.accB = s.accB ∧ t.pins = s.pins ∧
    t.bufPc = s.bufPc ∧ t.bufSrl = s.bufSrl ∧ t.skid = s.skid ∧ t.mem = s.mem ∧ t.prog = s.prog ∧
    t.inttregFresh = s.inttregFresh ∧ t.ramEpoch = s.ramEpoch ∧ t.draws = s.draws ∧ t.agenda = s.agenda ∧
    t.dev = s.dev := by
  unfold sfrWrite at h
  cases r with
  | intcon1 =>
    simp only at h
    split at h
    · cases h; simp
    · cases h
  | ipc x =>
    simp only at h
    split at h
    · cases h
    · cases h; simp
  | _ => cases h; simp

/-- Erasing an element that a test refuses leaves what the test finds. -/
theorem find_erase_of_not {α : Type} [DecidableEq α] (p : α → Bool) {m : α} (h : p m = false) (l : List α) :
    (l.erase m).find? p = l.find? p := by
  induction l with
  | nil => rfl
  | cons a l ih =>
    rw [List.erase_cons]
    split
    · rename_i ha
      have ha' : a = m := by simpa using ha
      simp [ha', h]
    · simp only [List.find?_cons, ih]

/-- A loop that is found is one of its address. -/
theorem findLoop_pc {ls : List LoopMark} {w : Word} {p : ProgAddr} {m : LoopMark} (h : findLoop ls w p = some m) :
    m.pc = p := by
  unfold findLoop at h
  rcases Option.or_eq_some_iff.1 h with h1 | ⟨-, h1⟩
  · have := List.find?_some h1
    simp only [Bool.and_eq_true, beq_iff_eq] at this
    exact this.1
  · simpa using List.find?_some h1

/-- Ending a loop leaves every loop at another address in progress. -/
theorem findLoop_endLoop_ne (ls : List LoopMark) (w v : Word) {p q : ProgAddr} (h : q ≠ p) :
    findLoop (endLoop ls w p) v q = findLoop ls v q := by
  unfold endLoop
  split
  · rename_i m hm
    have hq : (m.pc == q) = false := by simp [findLoop_pc hm, Ne.symm h]
    unfold findLoop
    rw [find_erase_of_not (fun k : LoopMark => k.pc == q && k.stack == v) (by simp [hq]),
      find_erase_of_not (fun k : LoopMark => k.pc == q) hq]
  · rfl

/-- A mark is found at its own W15 and address, and nowhere at another address. -/
theorem findLoop_cons (ls : List LoopMark) (m : LoopMark) (w : Word) (p : ProgAddr) (h : m.pc ≠ p) :
    findLoop (m :: ls) w p = findLoop ls w p := by
  simp [findLoop, h]

theorem findLoop_cons_same (ls : List LoopMark) (m : LoopMark) : findLoop (m :: ls) m.stack m.pc = some m := by
  simp [findLoop]

/-- A register write raises no event, but the underflow of W15 (R125). -/
theorem sfrWrite_events {s t : State} {r : Sfr} {v sel : Word} {e : Events}
    (h : sfrWrite s r v sel = .ok (t, e)) : e = quiet ∨ (r = .w 15 ∧ e = stackEvent (stackLow t)) := by
  unfold sfrWrite at h
  cases r with
  | intcon1 =>
    simp only at h
    split at h
    · cases h; exact .inl rfl
    · cases h
  | ipc x =>
    simp only at h
    split at h
    · cases h
    · cases h; exact .inl rfl
  | w i =>
    cases h
    by_cases hi : i = 15
    · subst hi; exact .inr ⟨rfl, by simp [putWEvents]⟩
    · exact .inl (by simp [putWEvents, hi, stackEvent, quiet])
  | _ => cases h; exact .inl rfl

/-- What a word write can do: an address error that leaves the state, a register write, or two bytes of RAM. -/
theorem writeWord_cases {s t : State} {a : DataAddr} {v : Word} {e : Events} (h : writeWord s a v = .ok (t, e)) :
    (wordWriteFaults s a = true ∧ t = s ∧ e = addrEvent true) ∨
    (wordWriteFaults s a = false ∧ ∃ r, sfrAt s.dev a = some r ∧ sfrWrite s r v 0xFFFF#16 = .ok (t, e)) ∨
    (wordWriteFaults s a = false ∧ sfrAt s.dev a = none ∧ e = quiet ∧
      t = ramWrite (ramWrite s a (lowByte v)) (a + 1#16) (highByte v)) := by
  unfold writeWord at h
  split at h
  · rename_i hf
    cases h
    exact .inl ⟨hf, rfl, rfl⟩
  · rename_i hf
    have hf' : wordWriteFaults s a = false := by simpa using hf
    split at h
    · rename_i r hr
      exact .inr (.inl ⟨hf', r, hr, h⟩)
    · rename_i hr
      cases h
      exact .inr (.inr ⟨hf', hr, rfl, rfl⟩)

/-- What a byte write can do. -/
theorem writeByte_cases {s t : State} {a : DataAddr} {v : Byte} {e : Events} (h : writeByte s a v = .ok (t, e)) :
    (byteWriteFaults s a = true ∧ t = s ∧ e = addrEvent true) ∨
    (byteWriteFaults s a = false ∧ ∃ r, sfrAt s.dev (evenPart a) = some r ∧
      sfrWriteByte s r (halfOf a) v = .ok (t, e)) ∨
    (byteWriteFaults s a = false ∧ sfrAt s.dev (evenPart a) = none ∧ e = quiet ∧ t = ramWrite s a v) := by
  unfold writeByte at h
  split at h
  · rename_i hf
    cases h
    exact .inl ⟨hf, rfl, rfl⟩
  · rename_i hf
    have hf' : byteWriteFaults s a = false := by simpa using hf
    split at h
    · rename_i r hr
      exact .inr (.inl ⟨hf', r, hr, h⟩)
    · rename_i hr
      cases h
      exact .inr (.inr ⟨hf', hr, rfl, rfl⟩)

/-- What a change of one bit can do: a register write, an address error, or a byte write. -/
theorem modifyBit_cases {s t : State} {f : DataAddr} {b : BitVec 4} {v : Bool} {e : Events}
    (h : modifyBit s f b v = .ok (t, e)) :
    (∃ r, sfrAt s.dev f = some r ∧ sfrWrite s r (setBit (sfrRead s r) b.toNat v) 0xFFFF#16 = .ok (t, e)) ∨
    (t = s ∧ e = addrEvent true) ∨ (∃ a u, writeByte s a u = .ok (t, e)) := by
  unfold modifyBit at h
  split at h
  · rename_i r hr
    exact .inl ⟨r, hr, h⟩
  · unfold modifyByteBit at h
    split at h
    · cases h
      exact .inr (.inl ⟨rfl, rfl⟩)
    · exact .inr (.inr ⟨_, _, h⟩)

/-- What a push can do: W15 advances by 2 after the write of the word, or after none where it is inhibited. -/
theorem push16_cases {s t : State} {v : Word} {inhibit : Bool} {e : Events} (h : push16 s v inhibit = .ok (t, e)) :
    (inhibit = true ∧ t = putW s 15 (sp s + 2#16)) ∨
    (inhibit = false ∧ ∃ s1 e1, writeWord s (sp s) v = .ok (s1, e1) ∧ t = putW s1 15 (sp s1 + 2#16)) := by
  unfold push16 at h
  split at h
  · rename_i hi
    cases h
    exact .inl ⟨hi, rfl⟩
  · rename_i hi
    split at h
    · cases h
    · rename_i s1 e1 hw
      cases h
      exact .inr ⟨by simpa using hi, s1, e1, hw, rfl⟩

/-- What a hard trap event can do (R146). -/
theorem raiseHard_cases {t : Trap} {s u : State} (h : raiseHard t s = .next u) :
    ((higherTrapPending s t = true ∨ trapLevel s.dev t < cpuIPL s) ∧ u = deviceReset .trapConflict s) ∨
    (higherTrapPending s t = false ∧ cpuIPL s < trapLevel s.dev t ∧
      u = { s with intcon1 := setBit s.intcon1 (trapFlagBit t) true }) := by
  unfold raiseHard at h
  split at h
  · rename_i hc
    cases h
    exact .inl ⟨by simpa using hc, rfl⟩
  · rename_i hc
    split at h
    · cases h
    · rename_i hn
      cases h
      simp only [Bool.or_eq_true, decide_eq_true_eq, not_or, Bool.not_eq_true] at hc
      exact .inr ⟨hc.1, by omega, rfl⟩

/-- A hard trap event refuses nothing. -/
theorem raiseHard_not_refused {t : Trap} {s : State} {x : Refusal} : raiseHard t s ≠ .refused x := by
  unfold raiseHard
  split
  · simp
  · split <;> simp

/-- What the end of an instruction can do: its soft events set their flags, and an address error follows. -/
theorem finish_cases {e : Events} {s u : State} (h : finish e s = .next u) :
    (e.addr = false ∧ u = raiseSoft e s) ∨ 
    (e.addr = true ∧ raiseHard .addressError (markFetch e.fetch (raiseSoft e s)) = .next u) := by
  unfold finish at h
  split at h
  · rename_i ha
    exact .inr ⟨ha, h⟩
  · rename_i ha
    cases h
    exact .inl ⟨by simpa using ha, rfl⟩

/-- An instruction without an address error ends in a next state. -/
theorem finish_of_no_addr {e : Events} (s : State) (h : e.addr = false) : finish e s = .next (raiseSoft e s) := by
  simp [finish, h]

/-- An instruction without any event ends in its own effect. -/
@[simp] theorem finish_quiet (s : State) : finish quiet s = .next s := by
  rw [finish_of_no_addr s rfl, raiseSoft_quiet]

/-- What the end of an access can do. -/
theorem finishAccess_cases {r : Except Refusal (State × Events)} {after : State → State} {e : Events} {u : State}
    (h : finishAccess r after e = .next u) :
    ∃ t f, r = .ok (t, f) ∧ finish (joinEvents e f) (after t) = .next u := by
  unfold finishAccess at h
  split at h
  · cases h
  · rename_i t f
    exact ⟨t, f, rfl, h⟩

/-- What taking an exception can do: two pushes, then the handler's first state. -/
theorem enterException_cases {x : Exception} {s u : State} (h : enterException x s = .next u) :
    ∃ s1 e1 s2 e2 a, push16 s (frameFirst s (returnAddress s x)) false = .ok (s1, e1) ∧
      push16 s1 (frameSecond s1 (returnAddress s x)) false = .ok (s2, e2) ∧
      vectorTarget s2 (exceptionVector s x) = .ok a ∧
      finish (joinEvents e1 e2) (handlerState s s2 x a) = .next u := by
  unfold enterException at h
  split at h
  · cases h
  · rename_i s2 e hp
    unfold pushFrame at hp
    split at hp
    · cases hp
    · rename_i s1 e1 h1
      split at hp
      · cases hp
      · rename_i t2 e2 h2
        cases hp
        split at h
        · cases h
        · cases h
        · rename_i a ha
          exact ⟨s1, e1, s2, e2, a, h1, h2, ha, h⟩

/-- A handler's address is one that pc can hold. -/
theorem vectorTarget_pcOf {s : State} {v : Nat} {a : ProgAddr} (h : vectorTarget s v = .ok a) : pcOf s.dev a = a := by
  unfold vectorTarget at h
  split at h
  · cases h
  · rename_i w hw
    split at h
    · rename_i hb
      cases h
      simp only [usableVector, Bool.and_eq_true, beq_iff_eq] at hb
      exact hb.2
    · cases h
  · cases h

/-- The pc that RETURN pops is even. -/
theorem framePc_even (hi lo : Word) : (framePc hi lo).getLsbD 0 = false := by
  unfold framePc
  simp only [BitVec.getLsbD_append]
  simp

/-- The countdown of an inactive counter. -/
@[simp] theorem countdown_inactive (n : Nat) (c : BitVec 14) : countdown n c false = (c, false) := by
  cases n <;> rfl

/-- `n` ticks are `n` times one tick (R107). -/
theorem elapse_eq_ticks (n : Nat) (s : State) (h : s.disiLoaded = false) : elapse n s = tick^[n] s := by
  induction n generalizing s with
  | zero => simp [elapse, h, countdown]
            intro ha; cases s; simp_all
  | succ n ih =>
    rw [Function.iterate_succ_apply]
    by_cases ha : s.disiActive = true
    · have ht : (tick s).disiLoaded = false := by simp [tick, ha, h]
      rw [← ih (tick s) ht]
      by_cases hz : s.disicnt - 1#14 = 0#14
      · simp [elapse, h, ha, tick, countdown, hz]
      · have hb : (s.disicnt - 1#14 != 0#14) = true := by simp [hz]
        simp only [elapse, h, ha, tick, countdown, hb]
        simp
    · have hf : tick s = s := by simp [tick, ha]
      rw [hf, ← ih s h]
      simp [elapse, h, ha]

/-- A turn of ticks keeps `disi_active == (DISICNT != 0)`. -/
theorem countdown_consistent (n : Nat) (c : BitVec 14) (act : Bool) (h : act = (c != 0#14)) :
    (countdown n c act).2 = ((countdown n c act).1 != 0#14) := by
  induction n generalizing c act with
  | zero => simpa [countdown] using h
  | succ n ih =>
    simp only [countdown]
    split
    · exact ih _ _ rfl
    · exact h

/-- Ticks never raise the count of a consistent counter. -/
theorem countdown_le (n : Nat) (c : BitVec 14) (act : Bool) (h : act = (c != 0#14)) :
    (countdown n c act).1.toNat ≤ c.toNat := by
  induction n generalizing c act with
  | zero => simp [countdown]
  | succ n ih =>
    simp only [countdown]
    split
    · rename_i ha
      have hc : c ≠ 0#14 := by simpa [ha] using h.symm
      have hp : c.toNat ≠ 0 := fun e => hc (BitVec.eq_of_toNat_eq e)
      have hx := c.isLt
      refine (ih _ _ rfl).trans ?_
      rw [BitVec.toNat_sub]
      simp
      omega
    · exact Nat.le_refl _

end Sys2Proof.Machine
end

