-- ==== Sys2Proof/Laws/CoreKept.lean ====
section
/-! SUPPORT. Every shared operation keeps the well-formedness of the state (Safety's `wellFormedCore`). -/

namespace Sys2Proof.Machine

/-- The well-formedness of a state, clause by clause. -/
theorem wellFormedCore_iff (s : State) : wellFormedCore s = true ↔
    memoryWf s.mem = true ∧ (pcOf s.dev s.pc = s.pc ∧ (sp s).getLsbD 0 = false) ∧
    (s.disiActive = (s.disicnt != 0#14) ∧ s.disicnt.toNat < 2 ^ s.dev.disicntBits) ∧
    (s.corcon &&& 0xE000#16 = 0#16 ∧ s.intcon1 &&& 0x0021#16 = 0#16 ∧ s.intcon2 &&& 0x7FF8#16 = 0#16 ∧
      s.inttreg &&& 0xF080#16 = 0#16) ∧
    ((∀ x : Fin 8, s.ifs[x] &&& ~~~flagMask s.dev x.val = 0#16) ∧
      (∀ x : Fin 8, s.iec[x] &&& ~~~flagMask s.dev x.val = 0#16) ∧
      (∀ x : Fin 30, s.ipc[x] &&& ~~~priorityMask s.dev x.val = 0#16)) ∧
    s.skid ≤ max s.dev.skidMaxIrq s.dev.skidMaxSoft := by
  simp only [wellFormedCore, pointersEven, disiConsistent, reservedBitsClear, sourceBitsClear, skidBounded,
    Bool.and_eq_true, beq_iff_eq, List.all_eq_true, List.mem_finRange, true_implies, decide_eq_true_eq]
  tauto

/-- A state is well formed if it agrees with a well-formed one on every field that the invariant reads. -/
theorem core_congr {s t : State} (h : wellFormedCore s = true) (hmem : t.mem = s.mem) (hpc : t.pc = s.pc)
    (hw : sp t = sp s) (hc : t.disicnt = s.disicnt) (ha : t.disiActive = s.disiActive) (hcor : t.corcon = s.corcon)
    (h1 : t.intcon1 = s.intcon1) (h2 : t.intcon2 = s.intcon2) (hi : t.inttreg = s.inttreg) (hf : t.ifs = s.ifs)
    (he : t.iec = s.iec) (hp : t.ipc = s.ipc) (hk : t.skid = s.skid) (hd : t.dev = s.dev) :
    wellFormedCore t = true := by
  rw [wellFormedCore_iff] at h ⊢
  rw [hmem, hpc, hw, hc, ha, hcor, h1, h2, hi, hf, he, hp, hk, hd]
  exact h

theorem core_putW {s : State} (h : wellFormedCore s = true) (i : WReg) (v : Word) :
    wellFormedCore (putW s i v) = true := by
  rw [wellFormedCore_iff] at h ⊢
  simp only [putW_mem, putW_pc, putW_disicnt, putW_disiActive, putW_corcon, putW_intcon1, putW_intcon2, putW_inttreg,
    putW_ifs, putW_iec, putW_ipc, putW_skid, putW_dev]
  exact ⟨h.1, ⟨h.2.1.1, sp_putW_even s i v h.2.1.2⟩, h.2.2⟩

theorem core_popState {s : State} (h : wellFormedCore s = true) : wellFormedCore (popState s) = true :=
  core_putW h 15 _

theorem core_setPcField {s : State} (h : wellFormedCore s = true) {a : ProgAddr} (ha : pcOf s.dev a = a) :
    wellFormedCore { s with pc := a } = true := by
  rw [wellFormedCore_iff] at h ⊢
  exact ⟨h.1, ⟨ha, h.2.1.2⟩, h.2.2⟩

theorem core_setPc {s : State} (h : wellFormedCore s = true) (a : ProgAddr) : wellFormedCore (setPc s a) = true :=
  core_setPcField h (pcOf_pcOf s.dev a)

theorem core_advance {s : State} (h : wellFormedCore s = true) : wellFormedCore (advance s) = true :=
  core_setPcField h (pcOf_pcOf s.dev _)

theorem core_ramWrite {s : State} (h : wellFormedCore s = true) (a : DataAddr) (b : Byte) :
    wellFormedCore (ramWrite s a b) = true := by
  rw [wellFormedCore_iff] at h ⊢
  simp only [ramWrite_pc, ramWrite_disicnt, ramWrite_disiActive, ramWrite_corcon, ramWrite_intcon1, ramWrite_intcon2,
    ramWrite_inttreg, ramWrite_ifs, ramWrite_iec, ramWrite_ipc, ramWrite_skid, ramWrite_dev, sp_ramWrite]
  exact ⟨memoryWf_ramWrite s a b h.1, h.2⟩

theorem core_withFlags {s : State} (h : wellFormedCore s = true) (v m : Word) :
    wellFormedCore (withFlags s v m) = true :=
  core_congr h rfl rfl rfl rfl rfl rfl rfl rfl rfl rfl rfl rfl rfl rfl

theorem core_freeFlags {s : State} (h : wellFormedCore s = true) : wellFormedCore (freeFlags s) = true :=
  core_withFlags h _ _

theorem core_setRepeatActive {s : State} (h : wellFormedCore s = true) (v : Bool) :
    wellFormedCore (setRepeatActive s v) = true :=
  core_congr h rfl rfl rfl rfl rfl rfl rfl rfl rfl rfl rfl rfl rfl rfl

theorem core_putAcc {s : State} (h : wellFormedCore s = true) (acc : Acc) (v : BitVec 40) (c : Bool) :
    wellFormedCore (putAcc s acc v c) = true := by
  cases acc <;> exact core_congr h rfl rfl rfl rfl rfl rfl rfl rfl rfl rfl rfl rfl rfl rfl

/-- A write outside an implemented mask leaves the unimplemented bits 0. -/
theorem mergeWrite_masked (old v sel m : Word) (h : old &&& ~~~m = 0#16) :
    mergeWrite old v sel m 0#16 &&& ~~~m = 0#16 :=
  mergeWrite_clear old v sel m 0#16 _ (by simp) h

theorem core_loadDisicnt {s : State} (h : wellFormedCore s = true) (v : DisiCount) :
    wellFormedCore (loadDisicnt s v) = true := by
  rw [wellFormedCore_iff] at h ⊢
  refine ⟨h.1, h.2.1, ⟨rfl, ?_⟩, h.2.2.2⟩
  rw [loadDisicnt_disicnt, narrow_toNat]
  exact Nat.mod_lt _ (Nat.two_pow_pos _)

theorem core_writeDisicnt {s : State} (h : wellFormedCore s = true) (v : BitVec 14) :
    wellFormedCore (writeDisicnt s v) = true := by
  unfold writeDisicnt
  split
  · exact core_loadDisicnt h v
  · exact h

/-- A register write keeps the state well formed. -/
theorem core_sfrWrite {s t : State} {r : Sfr} {v sel : Word} {e : Events} (h : wellFormedCore s = true)
    (hw : sfrWrite s r v sel = .ok (t, e)) : wellFormedCore t = true := by
  have hi := (wellFormedCore_iff s).1 h
  obtain ⟨h1, h2, h3, ⟨h4, h5, h6, h7⟩, ⟨h8, h9, h10⟩, h11⟩ := hi
  unfold sfrWrite at hw
  cases r with
  | w i => cases hw; exact core_putW h i _
  | splim => cases hw; exact core_congr h rfl rfl rfl rfl rfl rfl rfl rfl rfl rfl rfl rfl rfl rfl
  | sr => cases hw; exact core_congr h rfl rfl rfl rfl rfl rfl rfl rfl rfl rfl rfl rfl rfl rfl
  | corcon =>
    cases hw
    rw [wellFormedCore_iff]
    exact ⟨h1, h2, h3, ⟨mergeWrite_clear _ _ _ _ _ _ (by decide) h4, h5, h6, h7⟩, ⟨h8, h9, h10⟩, h11⟩
  | disicnt => cases hw; exact core_writeDisicnt h _
  | intcon1 =>
    simp only at hw
    split at hw
    · cases hw
      rw [wellFormedCore_iff]
      exact ⟨h1, h2, h3, ⟨h4, mergeWrite_clear _ _ _ _ _ _ (by decide) h5, h6, h7⟩, ⟨h8, h9, h10⟩, h11⟩
    · cases hw
  | intcon2 =>
    cases hw
    rw [wellFormedCore_iff]
    exact ⟨h1, h2, h3, ⟨h4, h5, mergeWrite_clear _ _ _ _ _ _ (by decide) h6, h7⟩, ⟨h8, h9, h10⟩, h11⟩
  | inttreg => cases hw; exact h
  | rcon => cases hw; exact core_congr h rfl rfl rfl rfl rfl rfl rfl rfl rfl rfl rfl rfl rfl rfl
  | osccon => cases hw; exact core_congr h rfl rfl rfl rfl rfl rfl rfl rfl rfl rfl rfl rfl rfl rfl
  | ifs x =>
    cases hw
    rw [wellFormedCore_iff]
    refine ⟨h1, h2, h3, ⟨h4, h5, h6, h7⟩, ⟨fun y => ?_, h9, h10⟩, h11⟩
    by_cases hxy : x = y
    · subst hxy
      simpa using mergeWrite_masked _ v sel _ (h8 x)
    · have : x.val ≠ y.val := fun e => hxy (Fin.ext e)
      simpa [this] using h8 y
  | iec x =>
    cases hw
    rw [wellFormedCore_iff]
    refine ⟨h1, h2, h3, ⟨h4, h5, h6, h7⟩, ⟨h8, fun y => ?_, h10⟩, h11⟩
    by_cases hxy : x = y
    · subst hxy
      simpa using mergeWrite_masked _ v sel _ (h9 x)
    · have : x.val ≠ y.val := fun e => hxy (Fin.ext e)
      simpa [this] using h9 y
  | ipc x =>
    simp only at hw
    split at hw
    · cases hw
    · cases hw
      rw [wellFormedCore_iff]
      refine ⟨h1, h2, h3, ⟨h4, h5, h6, h7⟩, ⟨h8, h9, fun y => ?_⟩, h11⟩
      by_cases hxy : x = y
      · subst hxy
        simpa using mergeWrite_masked _ v sel _ (h10 x)
      · have : x.val ≠ y.val := fun e => hxy (Fin.ext e)
        simpa [this] using h10 y

theorem core_writeWord {s t : State} {a : DataAddr} {v : Word} {e : Events} (h : wellFormedCore s = true)
    (hw : writeWord s a v = .ok (t, e)) : wellFormedCore t = true := by
  rcases writeWord_cases hw with ⟨-, rfl, -⟩ | ⟨-, r, -, hr⟩ | ⟨-, -, -, rfl⟩
  · exact h
  · exact core_sfrWrite h hr
  · exact core_ramWrite (core_ramWrite h _ _) _ _

theorem core_writeByte {s t : State} {a : DataAddr} {v : Byte} {e : Events} (h : wellFormedCore s = true)
    (hw : writeByte s a v = .ok (t, e)) : wellFormedCore t = true := by
  rcases writeByte_cases hw with ⟨-, rfl, -⟩ | ⟨-, r, -, hr⟩ | ⟨-, -, -, rfl⟩
  · exact h
  · exact core_sfrWrite h hr
  · exact core_ramWrite h _ _

theorem core_modifyBit {s t : State} {f : DataAddr} {b : BitVec 4} {v : Bool} {e : Events}
    (h : wellFormedCore s = true) (hw : modifyBit s f b v = .ok (t, e)) : wellFormedCore t = true := by
  rcases modifyBit_cases hw with ⟨r, -, hr⟩ | ⟨rfl, -⟩ | ⟨a, u, hr⟩
  · exact core_sfrWrite h hr
  · exact h
  · exact core_writeByte h hr

theorem core_push16 {s t : State} {v : Word} {inhibit : Bool} {e : Events} (h : wellFormedCore s = true)
    (hw : push16 s v inhibit = .ok (t, e)) : wellFormedCore t = true := by
  rcases push16_cases hw with ⟨-, rfl⟩ | ⟨-, s1, e1, hs, rfl⟩
  · exact core_putW h 15 _
  · exact core_putW (core_writeWord h hs) 15 _

/-- The IPC registers hold no bit without a source after reset. -/
theorem priorityReset_masked (d : Device) (x : Nat) : priorityReset d x &&& ~~~priorityMask d x = 0#16 := by
  apply BitVec.eq_of_getLsbD_eq
  intro i hi
  have hx : (i % 4 == 2 && implemented d (4 * x + i / 4) && !(i % 4 != 3 && implemented d (4 * x + i / 4))) = false := by
    by_cases h2 : i % 4 = 2
    · simp [h2]
    · simp [h2]
  simp only [priorityReset, priorityMask, BitVec.getLsbD_and, BitVec.getLsbD_not, BitVec.getLsbD_zero, maskOf_getLsbD, hi,
    decide_true, Bool.true_and]
  exact hx

theorem core_deviceReset (c : ResetCause) (s : State) : wellFormedCore (deviceReset c s) = true := by
  rw [wellFormedCore_iff]
  refine ⟨by simp [deviceReset, State.reset, memoryWf, keysRise], ⟨pcOf_pcOf s.dev _, ?_⟩,
    by simp [deviceReset, State.reset], ⟨?_, ?_, ?_, ?_⟩, ⟨?_, ?_, ?_⟩, by simp [deviceReset, State.reset]⟩
  · have : sp (deviceReset c s) = resetSp s.dev := by simp [sp]
    rw [this]; exact evenPart_getLsbD_zero _
  · simp [deviceReset, State.reset]
  · simp [deviceReset, State.reset]
  · simp [deviceReset, State.reset]
  · simp [deviceReset, State.reset]
  · intro x; simp [deviceReset, State.reset]
  · intro x; simp [deviceReset, State.reset]
  · intro x; simpa [deviceReset, State.reset] using priorityReset_masked s.dev x.val

/-- A math event sets no unimplemented bit of INTCON1. -/
def mathBitsLegal (e : Events) : Bool := e.math &&& 0x0021#16 == 0#16

theorem mathBitsLegal_join {e f : Events} (he : mathBitsLegal e = true) (hf : mathBitsLegal f = true) :
    mathBitsLegal (joinEvents e f) = true := by
  simp only [mathBitsLegal, joinEvents, beq_iff_eq] at he hf ⊢
  rw [BitVec.and_comm, BitVec.and_or_distrib_left, BitVec.and_comm, he, BitVec.and_comm, hf]
  rfl

@[simp] theorem mathBitsLegal_stack (c : Bool) : mathBitsLegal (stackEvent c) = true := by
  simp [mathBitsLegal, stackEvent]
@[simp] theorem mathBitsLegal_addr (c : Bool) : mathBitsLegal (addrEvent c) = true := by
  simp [mathBitsLegal, addrEvent]
@[simp] theorem mathBitsLegal_jump (c : Bool) : mathBitsLegal (jumpEvent c) = true := by
  simp [mathBitsLegal, jumpEvent]
@[simp] theorem mathBitsLegal_quiet : mathBitsLegal quiet = true := by
  simp [mathBitsLegal, quiet]

theorem mathBitsLegal_accumulator (s : State) (acc : Acc) (c31 c39 : Bool) :
    mathBitsLegal (mathEvent (accumulatorErrors s acc c31 c39)) = true := by
  unfold mathBitsLegal mathEvent accumulatorErrors
  cases acc <;> split <;> split <;> decide

theorem core_raiseSoft {s : State} {e : Events} (h : wellFormedCore s = true) (he : mathBitsLegal e = true) :
    wellFormedCore (raiseSoft e s) = true := by
  rw [wellFormedCore_iff] at h ⊢
  obtain ⟨h1, h2, h3, ⟨h4, h5, h6, h7⟩, h8⟩ := h
  refine ⟨h1, h2, h3, ⟨h4, ?_, h6, h7⟩, h8⟩
  simp only [mathBitsLegal, beq_iff_eq] at he
  apply BitVec.eq_of_getLsbD_eq
  intro i hi
  have e1 := congrArg (fun x => x.getLsbD i) h5
  have e2 := congrArg (fun x => x.getLsbD i) he
  simp only [BitVec.getLsbD_and, BitVec.getLsbD_zero] at e1 e2 ⊢
  simp only [raiseSoft_intcon1, BitVec.getLsbD_or]
  by_cases hm : (0x0021#16).getLsbD i = true
  · simp only [hm, Bool.and_true] at e1 e2 ⊢
    have : (if e.stack = true then 4#16 else 0#16).getLsbD i = false := by
      interval_cases i <;> first | (simp at hm; done) | (split <;> decide)
    simp [e1, e2, this]
  · simp [hm]

theorem core_raiseHard {t : Trap} {s u : State} (h : wellFormedCore s = true) (hr : raiseHard t s = .next u) :
    wellFormedCore u = true := by
  rcases raiseHard_cases hr with ⟨-, rfl⟩ | ⟨-, -, rfl⟩
  · exact core_deviceReset _ _
  · rw [wellFormedCore_iff] at h ⊢
    obtain ⟨h1, h2, h3, ⟨h4, h5, h6, h7⟩, h8⟩ := h
    refine ⟨h1, h2, h3, ⟨h4, ?_, h6, h7⟩, h8⟩
    apply BitVec.eq_of_getLsbD_eq
    intro i hi
    have e1 := congrArg (fun x => x.getLsbD i) h5
    simp only [BitVec.getLsbD_and, BitVec.getLsbD_zero] at e1 ⊢
    rw [setBit_getLsbD _ (by cases t <;> decide)]
    by_cases hm : (0x0021#16).getLsbD i = true
    · have : i ≠ trapFlagBit t := by
        intro e; subst e; revert hm; cases t <;> decide
      simpa [this] using e1
    · simp [hm]

theorem core_markFetch {s : State} (h : wellFormedCore s = true) (b : Bool) : wellFormedCore (markFetch b s) = true :=
  core_congr h rfl rfl rfl rfl rfl rfl rfl rfl rfl rfl rfl rfl rfl rfl

theorem core_beginLoop {s : State} (h : wellFormedCore s = true) : wellFormedCore (beginLoop s) = true := by
  unfold beginLoop
  split
  · exact core_congr h rfl rfl rfl rfl rfl rfl rfl rfl rfl rfl rfl rfl rfl rfl
  · exact h

theorem core_advanceBy {s : State} (h : wellFormedCore s = true) (n : Nat) : wellFormedCore (advanceBy n s) = true :=
  core_setPcField h (pcOf_pcOf s.dev _)

/-- The end of an instruction keeps the state well formed. -/
theorem core_finish {e : Events} {s u : State} (h : wellFormedCore s = true) (he : mathBitsLegal e = true)
    (hf : finish e s = .next u) : wellFormedCore u = true := by
  rcases finish_cases hf with ⟨-, rfl⟩ | ⟨-, hr⟩
  · exact core_raiseSoft h he
  · exact core_raiseHard (core_markFetch (core_raiseSoft h he) _) hr

theorem core_elapse {s : State} (h : wellFormedCore s = true) (n : Nat) : wellFormedCore (elapse n s) = true := by
  unfold elapse
  split
  · exact core_congr h rfl rfl rfl rfl rfl rfl rfl rfl rfl rfl rfl rfl rfl rfl
  · split
    · rename_i ha
      rw [wellFormedCore_iff] at h ⊢
      have hc : true = (s.disicnt != 0#14) := by rw [← h.2.2.1.1]; exact ha.symm
      exact ⟨h.1, h.2.1, ⟨countdown_consistent n s.disicnt true hc,
        Nat.lt_of_le_of_lt (countdown_le n s.disicnt true hc) h.2.2.1.2⟩, h.2.2.2⟩
    · exact h

/-- No operation is under way after its ticks. -/
@[simp] theorem elapse_not_loaded (n : Nat) (s : State) : (elapse n s).disiLoaded = false := by
  unfold elapse
  split
  · rfl
  · rename_i h
    split <;> simpa using h

theorem core_raiseIrq {s : State} (h : wellFormedCore s = true) (n : Nat) : wellFormedCore (raiseIrq s n) = true := by
  unfold raiseIrq
  split
  · rename_i hn
    split
    · rename_i hi
      rw [wellFormedCore_iff] at h ⊢
      obtain ⟨h1, h2, h3, h4, ⟨h8, h9, h10⟩, h11⟩ := h
      refine ⟨h1, h2, h3, h4, ⟨fun y => ?_, h9, h10⟩, h11⟩
      have h8y := h8 y
      by_cases hxy : n / 16 = y.val
      · apply BitVec.eq_of_getLsbD_eq
        intro i hi16
        have e1 := congrArg (fun x => x.getLsbD i) h8y
        simp only [BitVec.getLsbD_and, BitVec.getLsbD_zero, BitVec.getLsbD_not, hi16, decide_true, Bool.true_and] at e1 ⊢
        have hset : (s.ifs.set (n / 16) (setBit s.ifs[n / 16] (n % 16) true))[y] =
            setBit s.ifs[n / 16] (n % 16) true := by
          simp [hxy]
        show (BitVec.getLsbD (s.ifs.set (n / 16) (setBit s.ifs[n / 16] (n % 16) true))[y] i && _) = false
        rw [hset, setBit_getLsbD _ (Nat.mod_lt _ (by decide))]
        by_cases hb : i = n % 16
        · subst hb
          have : 16 * y.val + n % 16 = n := by omega
          simp only [flagMask, maskOf_getLsbD, this]
          have hi' : implemented s.dev n = true := hi
          simp [hi', hi16]
        · have hsame : s.ifs[n / 16] = s.ifs[y] := by simp [hxy]
          rw [hsame]
          simpa [hb] using e1
      · simpa [hxy] using h8y
    · exact h
  · exact h

end Sys2Proof.Machine
end

