-- ==== Sys2Proof/Laws/Frame.lean ====
section
/-! SUPPORT. The exception frame: what a layout stores is what it gives back, and the default layout in plain slices. -/

namespace Sys2Proof.Machine

/-- The pc of a popped frame is even. -/
theorem framePcOf_even (f : FrameLayout) (lo hi : Word) : (framePcOf f lo hi).getLsbD 0 = false := by
  rw [framePcOf, ofBits_getLsbD]; rfl

/-- Bit `b` of a stacked word is the value of the layout's frame bit. -/
theorem frameWord_getLsbD (bits : Vector FrameBit 16) (ret : ProgAddr) (l : BitVec 8) (i : Bool) (k : Fin 16) :
    (frameWord bits ret l i).getLsbD k.val = frameBitValue ret l i bits[k] := by
  rw [frameWord, maskOf_getLsbD]; simp

/-- The two words that a layout stores hold, for every frame bit it has, that bit's value. -/
theorem frameBitAt_frameWord {f : FrameLayout} {b : FrameBit} (h : frameHas f b = true) (ret : ProgAddr) (l : BitVec 8)
    (i : Bool) :
    frameBitAt f (frameWord f.first ret l i) (frameWord f.second ret l i) b = frameBitValue ret l i b := by
  simp only [frameHas, List.any_eq_true, List.mem_finRange, true_and, Bool.or_eq_true, beq_iff_eq] at h
  simp only [frameBitAt, frameWord_getLsbD]
  rw [Bool.eq_iff_iff, List.any_eq_true]
  simp only [List.mem_finRange, true_and, Bool.or_eq_true, Bool.and_eq_true, beq_iff_eq]
  constructor
  · rintro ⟨k, ⟨hk, hv⟩ | ⟨hk, hv⟩⟩ <;> rwa [hk] at hv
  · intro hv
    obtain ⟨k, hk | hk⟩ := h
    · exact ⟨k, .inl ⟨hk, by rwa [hk]⟩⟩
    · exact ⟨k, .inr ⟨hk, by rwa [hk]⟩⟩

/-- A complete layout gives back an even return address. -/
theorem framePcOf_frameWord {f : FrameLayout} (h : frameComplete f = true) {ret : ProgAddr} (l : BitVec 8) (i : Bool)
    (he : ret.getLsbD 0 = false) :
    framePcOf f (frameWord f.first ret l i) (frameWord f.second ret l i) = ret := by
  simp only [frameComplete, Bool.and_eq_true, List.all_eq_true, List.mem_finRange, true_implies, Bool.or_eq_true,
    beq_iff_eq] at h
  apply BitVec.eq_of_getLsbD_eq
  intro k hk
  rw [framePcOf, ofBits_getLsbD]
  have hk' : k < 23 := hk
  by_cases h0 : k = 0
  · subst h0; simpa using he.symm
  · have hf := (h.1.1 ⟨k, hk'⟩).resolve_left h0
    have e : Fin.ofNat 23 k = ⟨k, hk'⟩ := Fin.ext (Nat.mod_eq_of_lt hk')
    rw [e, frameBitAt_frameWord hf]
    simp [frameBitValue, hk', h0]

/-- A complete layout gives back SRL. -/
theorem frameSrlOf_frameWord {f : FrameLayout} (h : frameComplete f = true) (ret : ProgAddr) (l : BitVec 8) (i : Bool) :
    frameSrlOf f (frameWord f.first ret l i) (frameWord f.second ret l i) = l := by
  simp only [frameComplete, Bool.and_eq_true, List.all_eq_true, List.mem_finRange, true_implies] at h
  apply BitVec.eq_of_getLsbD_eq
  intro k hk
  have e : Fin.ofNat 8 k = ⟨k, hk⟩ := Fin.ext (Nat.mod_eq_of_lt hk)
  rw [frameSrlOf, ofBits_getLsbD, e, frameBitAt_frameWord (h.1.2 ⟨k, hk⟩)]
  simp [frameBitValue, hk]

/-- A complete layout gives back IPL3. -/
theorem frameIpl3Of_frameWord {f : FrameLayout} (h : frameComplete f = true) (ret : ProgAddr) (l : BitVec 8) (i : Bool) :
    frameIpl3Of f (frameWord f.first ret l i) (frameWord f.second ret l i) = i := by
  simp only [frameComplete, Bool.and_eq_true] at h
  rw [frameIpl3Of, frameBitAt_frameWord h.2]
  rfl

/-- The default layout is complete. -/
theorem frameComplete_default : frameComplete defaultFrame = true := by decide

/-- The first word of the default frame: PC<15:1> and 0 (R140, D4). -/
theorem frameWord_default_first (ret : ProgAddr) (l : BitVec 8) (i : Bool) :
    frameWord defaultFrame.first ret l i = ret.extractLsb' 1 15 ++ 0#1 := by
  apply BitVec.eq_of_getLsbD_eq
  intro k hk
  rw [frameWord_getLsbD _ _ _ _ ⟨k, hk⟩, BitVec.getLsbD_append]
  interval_cases k <;> simp [defaultFrame, frameBitValue, Fin.ofNat]

/-- The second word of the default frame: SRL, IPL3, PC<22:16> (R140). -/
theorem frameWord_default_second (ret : ProgAddr) (l : BitVec 8) (i : Bool) :
    frameWord defaultFrame.second ret l i = l ++ BitVec.ofBool i ++ ret.extractLsb' 16 7 := by
  apply BitVec.eq_of_getLsbD_eq
  intro k hk
  rw [frameWord_getLsbD _ _ _ _ ⟨k, hk⟩, BitVec.getLsbD_append, BitVec.getLsbD_append]
  interval_cases k <;> simp [defaultFrame, frameBitValue, Fin.ofNat]

/-- The pc in a default frame: `hi[6:0] ## lo[15:1] ## 0` (R102). -/
theorem framePcOf_default (lo hi : Word) : framePcOf defaultFrame lo hi = framePc hi lo := by
  apply BitVec.eq_of_getLsbD_eq
  intro k hk
  rw [framePcOf, ofBits_getLsbD, framePc, BitVec.getLsbD_append, BitVec.getLsbD_append]
  interval_cases k <;> simp [frameBitAt, defaultFrame, List.finRange, Fin.ofNat, beq_eq_decide]

/-- SRL in a default frame (R102). -/
theorem frameSrlOf_default (lo hi : Word) : frameSrlOf defaultFrame lo hi = hi.extractLsb' 8 8 := by
  apply BitVec.eq_of_getLsbD_eq
  intro k hk
  rw [frameSrlOf, ofBits_getLsbD]
  interval_cases k <;> simp [frameBitAt, defaultFrame, List.finRange, Fin.ofNat, beq_eq_decide]

/-- IPL3 in a default frame (R102). -/
theorem frameIpl3Of_default (lo hi : Word) : frameIpl3Of defaultFrame lo hi = hi.getLsbD 7 := by
  simp [frameIpl3Of, frameBitAt, defaultFrame, List.finRange, Fin.ofNat, beq_eq_decide]

end Sys2Proof.Machine
end

