-- ==== Sys2Proof/Laws/PerInstr.lean ====
section
/-! SUPPORT. Laws of the instructions as syntax, one lemma per constructor. -/

namespace Sys2Proof.Laws.MatchesTable

/-- The mask and match that 30_encoding.md R92 gives an instruction's first word, where it gives one. -/
def row : Instr → Option (ProgWord × ProgWord)
  | .nop => some (0xFF0000#24, 0x000000#24)
  | .retfie => some (0xFFFFFF#24, 0x064000#24)
  | .ret => some (0xFFFFFF#24, 0x060000#24)
  | .disi _ => some (0xFFC000#24, 0xFC0000#24)
  | .pwrsav _ => some (0xFFFFFE#24, 0xFE4000#24)
  | .reset => some (0xFFFFFF#24, 0xFE0000#24)
  | .goto _ => some (0xFF0001#24, 0x040000#24)
  | .bra _ => some (0xFF0000#24, 0x370000#24)
  | .pushF _ => some (0xFF0001#24, 0xF80000#24)
  | .popF _ => some (0xFF0001#24, 0xF90000#24)
  | .movLit _ _ => some (0xF00000#24, 0x200000#24)
  | .movToF _ _ => some (0xF80000#24, 0x880000#24)
  | .movFromF _ _ => some (0xF80000#24, 0x800000#24)
  | .bsetF _ _ => some (0xFF0000#24, 0xA80000#24)
  | .bclrF _ _ => some (0xFF0000#24, 0xA90000#24)
  | .sftac _ _ => none
  | .repeatDivide _ _ _ _ => none
  | .macClass _ _ _ => none
  | .movD _ => none
  | .btsc _ _ => none
  | .btss _ _ => none
  | .bitIndirect _ _ _ => none

/-- An instruction has words exactly when R92 gives it a row, the row is in the table, and its first word matches it. -/
def Statement (i : Instr) : Prop :=
  ((encode i)[0]?).isSome = (row i).isSome ∧
  ∀ p ∈ row i, p ∈ rowPatterns ∧ ∀ w ∈ (encode i)[0]?, w &&& p.1 = p.2

/-- A word whose bits under the mask are those of the match. -/
theorem masked {w m v : ProgWord} (h : ∀ b, b < 24 → (w.getLsbD b && m.getLsbD b) = v.getLsbD b) : w &&& m = v := by
  apply BitVec.eq_of_getLsbD_eq
  intro b hb
  rw [BitVec.getLsbD_and]
  exact h b hb

/-- The statement for an instruction with words, from its parts. -/
theorem of_row {i : Instr} {p : ProgWord × ProgWord} {w : ProgWord} {ws : List ProgWord} (hr : row i = some p)
    (he : encode i = w :: ws) (hp : p ∈ rowPatterns) (hw : w &&& p.1 = p.2) : Statement i := by
  refine ⟨by simp [hr, he], ?_⟩
  intro q hq
  obtain rfl : p = q := by simpa [hr] using hq
  refine ⟨hp, ?_⟩
  intro v hv
  obtain rfl : w = v := by simpa [he] using hv
  exact hw

/-- The statement for an instruction without words. -/
theorem of_none {i : Instr} (hr : row i = none) (he : encode i = []) : Statement i := by
  refine ⟨by simp [hr, he], ?_⟩
  intro p hp
  simp [hr] at hp

theorem nop : Statement .nop := of_row rfl rfl (by decide) (by decide)

theorem retfie : Statement .retfie := of_row rfl rfl (by decide) (by decide)

theorem ret : Statement .ret := of_row rfl rfl (by decide) (by decide)

theorem disi (k : BitVec 14) : Statement (.disi k) :=
  of_row rfl rfl (by decide) (masked fun b hb => by simp only [BitVec.getLsbD_append]; interval_cases b <;> simp)

theorem pwrsav (m : SleepMode) : Statement (.pwrsav m) := by
  cases m <;> exact of_row rfl rfl (by decide) (by decide)

theorem reset : Statement .reset := of_row rfl rfl (by decide) (by decide)

theorem goto (a : ProgAddr) : Statement (.goto a) :=
  of_row rfl rfl (by decide) (masked fun b hb => by simp only [BitVec.getLsbD_append]; interval_cases b <;> simp)

theorem bra (n : BitVec 16) : Statement (.bra n) :=
  of_row rfl rfl (by decide) (masked fun b hb => by simp only [BitVec.getLsbD_append]; interval_cases b <;> simp)

theorem pushF (f : DataAddr) : Statement (.pushF f) :=
  of_row rfl rfl (by decide) (masked fun b hb => by simp only [BitVec.getLsbD_append]; interval_cases b <;> simp)

theorem popF (f : DataAddr) : Statement (.popF f) :=
  of_row rfl rfl (by decide) (masked fun b hb => by simp only [BitVec.getLsbD_append]; interval_cases b <;> simp)

theorem movLit (k : Word) (d : WReg) : Statement (.movLit k d) :=
  of_row rfl rfl (by decide) (masked fun b hb => by simp only [BitVec.getLsbD_append]; interval_cases b <;> simp)

theorem movToF (r : WReg) (f : DataAddr) : Statement (.movToF r f) :=
  of_row rfl rfl (by decide) (masked fun b hb => by simp only [BitVec.getLsbD_append]; interval_cases b <;> simp)

theorem movFromF (f : DataAddr) (d : WReg) : Statement (.movFromF f d) :=
  of_row rfl rfl (by decide) (masked fun b hb => by simp only [BitVec.getLsbD_append]; interval_cases b <;> simp)

theorem bsetF (f : DataAddr) (b : BitVec 4) : Statement (.bsetF f b) :=
  of_row rfl rfl (by decide)
    (masked fun k hk => by simp only [bitWord, BitVec.getLsbD_append]; interval_cases k <;> simp)

theorem bclrF (f : DataAddr) (b : BitVec 4) : Statement (.bclrF f b) :=
  of_row rfl rfl (by decide)
    (masked fun k hk => by simp only [bitWord, BitVec.getLsbD_append]; interval_cases k <;> simp)

theorem sftac (acc : Acc) (c : ShiftCount) : Statement (.sftac acc c) := of_none rfl rfl

theorem repeatDivide (m n q r : WReg) : Statement (.repeatDivide m n q r) := of_none rfl rfl

theorem macClass (acc : Acc) (x y : Option WReg) : Statement (.macClass acc x y) := of_none rfl rfl

theorem movD (form : DoubleForm) : Statement (.movD form) := of_none rfl rfl

theorem btsc (src : BitSource) (b : BitVec 4) : Statement (.btsc src b) := of_none rfl rfl

theorem btss (src : BitSource) (b : BitVec 4) : Statement (.btss src b) := of_none rfl rfl

theorem bitIndirect (op : BitOp) (p : WReg) (b : BitVec 4) : Statement (.bitIndirect op p b) := of_none rfl rfl

end Sys2Proof.Laws.MatchesTable
end

