-- ==== Sys2Proof/Laws/Ram.lean ====
section
/-! SUPPORT. Words of RAM: what reading and writing one does, and what a pop from one does. -/

namespace Sys2Proof.Machine

/-- A word is RAM: its parts. -/
theorem ramWordAt_iff (s : State) (a : DataAddr) : ramWordAt s a = true ↔
    (16 ≤ s.dev.dataAddrBits ∧ a.getLsbD 0 = false) ∧ sfrAt s.dev a = none ∧ isRam s.dev a = true ∧ isRam s.dev (a + 1#16) = true := by
  simp only [ramWordAt, Bool.and_eq_true, beq_iff_eq, Option.isNone_iff_eq_none, and_assoc, decide_eq_true_eq]

/-- RAM lies above the SFR window and is implemented. -/
theorem isRam_ge {d : Device} {a : DataAddr} (h : isRam d a = true) :
    0x0800#16 ≤ eaOf d a ∧ inRanges d.dataRanges (eaOf d a).toNat = true := by
  simp only [isRam, Bool.and_eq_true, sfrWindowEnd] at h
  exact ⟨by simpa [BitVec.le_def] using of_decide_eq_true h.1, h.2⟩

/-- The word that holds either byte of an even address is at that address. -/
theorem even_cases {a : DataAddr} (h : a.getLsbD 0 = false) : evenPart a = a ∧ evenPart (a + 1#16) = a := by
  have h1 : a + 1#16 = a ||| 1#16 := by
    apply BitVec.add_eq_or_of_and_eq_zero
    apply BitVec.eq_of_getLsbD_eq
    intro i hi
    rcases Nat.eq_zero_or_pos i with rfl | hp
    · simpa using h
    · have : i ≠ 0 := by omega
      simp [this]
  refine ⟨evenPart_of_even h, ?_⟩
  rw [h1]
  apply BitVec.eq_of_getLsbD_eq
  intro i hi
  unfold evenPart
  interval_cases i <;> simp_all

/-- RAM is implemented data space. -/
theorem impl_of_ram {d : Device} {a : DataAddr} (h : isRam d a = true) : dataImplemented d a = true := by
  simp [dataImplemented, (isRam_ge h).2]

/-- Reading a word of RAM. -/
theorem ram_reads {s : State} {a : DataAddr} (h : ramWordAt s a = true) :
    readWord s a = ramWord s a ∧ wordReadFaults s a = false ∧ wordWriteFaults s a = false := by
  rw [ramWordAt_iff] at h
  obtain ⟨⟨-, h0⟩, h1, h2, h3⟩ := h
  have e := even_cases h0
  refine ⟨?_, ?_, ?_⟩
  · simp only [readWord, h0, h1, readByte, e.1, e.2, h2, h3, if_true, ramWord]
    simp
  · simp only [wordReadFaults, h0, impl_of_ram h2]
    rfl
  · simp only [wordWriteFaults, byteWriteFaults, h0, impl_of_ram h2]
    rfl

/-- Writing a word of RAM. -/
theorem ram_write {s : State} {a : DataAddr} (v : Word) (h : ramWordAt s a = true) :
    writeWord s a v = .ok (ramWrite (ramWrite s a (lowByte v)) (a + 1#16) (highByte v), quiet) := by
  have hh := ram_reads h
  rw [ramWordAt_iff] at h
  simp only [writeWord, hh.2.2, h.2.1]
  simp

/-- A store to RAM writes memory only. -/
theorem ramWrite_eq (s : State) (a : DataAddr) (b : Byte) :
    ramWrite s a b = { s with mem := (ramWrite s a b).mem } := by
  unfold ramWrite
  split <;> rfl

/-- Two stores to RAM write memory only. -/
theorem ram2_eq (s : State) (a c : DataAddr) (b d : Byte) :
    ramWrite (ramWrite s a b) c d = { s with mem := (ramWrite (ramWrite s a b) c d).mem } := by
  unfold ramWrite
  (repeat' split) <;> rfl

/-- Every byte of RAM after the write of a word. -/
theorem ram2_read {s : State} {a : DataAddr} (v : Word) (h : ramWordAt s a = true) (c : DataAddr) :
    ramRead (ramWrite (ramWrite s a (lowByte v)) (a + 1#16) (highByte v)) c =
      if c = a then lowByte v else if c = a + 1#16 then highByte v else ramRead s c := by
  rw [ramWordAt_iff] at h
  rw [ramRead_ramWrite, ramRead_ramWrite]
  have hd : (ramWrite s a (lowByte v)).dev = s.dev := by simp
  rw [hd]
  simp only [h.2.2.1, h.2.2.2, and_true, eaOf_full h.1.1]
  by_cases hc : c = a
  · subst hc
    simp
  · simp [hc]

/-- What RAM holds depends on the memory and the count of resets. -/
theorem ramRead_congr {s t : State} (h1 : t.mem = s.mem) (h2 : t.ramEpoch = s.ramEpoch) (h3 : t.dev = s.dev)
    (a : DataAddr) : ramRead t a = ramRead s a := by
  simp [ramRead, h1, h2, h3]

/-- Where RAM is depends on the device. -/
theorem ramWordAt_congr {s t : State} (h : t.dev = s.dev) (a : DataAddr) : ramWordAt t a = ramWordAt s a := by
  simp [ramWordAt, h]

/-- The words of RAM depend on the memory and the count of resets. -/
theorem ramWord_congr {s t : State} (h1 : t.mem = s.mem) (h2 : t.ramEpoch = s.ramEpoch) (h3 : t.dev = s.dev)
    (a : DataAddr) : ramWord t a = ramWord s a := by
  simp [ramWord, ramRead_congr h1 h2 h3]

end Sys2Proof.Machine
end

