-- ==== Sys2Proof/Laws/Stack.lean ====
section
/-! SUPPORT. Pushes, pops and exception frames whose words lie in RAM (20_memory.md R78, R79). -/

namespace Sys2Proof.Machine

/-- A data address is even exactly when its number is. -/
theorem even_iff_toNat (x : Word) : x.getLsbD 0 = false ↔ x.toNat % 2 = 0 := by
  simp [BitVec.getLsbD, Nat.testBit_zero]

/-- The even addresses two below and two above. -/
theorem evenPart_sub_two {x : Word} (h : x.getLsbD 0 = false) : evenPart (x - 2#16) = x - 2#16 := by
  apply evenPart_of_even
  rw [even_iff_toNat] at h ⊢
  rw [BitVec.toNat_sub]
  simp
  omega

theorem evenPart_add_two {x : Word} (h : x.getLsbD 0 = false) : evenPart (x + 2#16) = x + 2#16 := by
  apply evenPart_of_even
  rw [even_iff_toNat] at h ⊢
  rw [BitVec.toNat_add]
  simp
  omega

/-- An address is even if the one two below is. -/
theorem even_of_sub_two {x : Word} (h : (x - 2#16).getLsbD 0 = false) : x.getLsbD 0 = false := by
  rw [even_iff_toNat] at h ⊢
  rw [BitVec.toNat_sub] at h
  simp at h
  omega

/-- An even word address in RAM. -/
theorem ramWordAt_bounds {s : State} {a : DataAddr} (h : ramWordAt s a = true) :
    a.getLsbD 0 = false ∧ 0x0800 ≤ a.toNat ∧ a.toNat % 2 = 0 := by
  have h' := (ramWordAt_iff s a).1 h
  exact ⟨h'.1.2, by simpa [BitVec.le_def, eaOf_full h'.1.1] using (isRam_ge h'.2.2.1).1, (even_iff_toNat a).1 h'.1.2⟩

/-- The addresses of a state whose data space has RAM words are the 16-bit ones. -/
theorem eaOf_of_ram {s : State} {a : DataAddr} (h : ramWordAt s a = true) (c : DataAddr) : eaOf s.dev c = c :=
  eaOf_full ((ramWordAt_iff s a).1 h).1.1 c

/-- W15 after a pop from RAM. -/
theorem sp_popState_ram {s : State} (h : ramWordAt s (sp s - 2#16) = true) : sp (popState s) = sp s - 2#16 := by
  rw [sp_popState, evenPart_sub_two (even_of_sub_two (ramWordAt_bounds h).1)]

/-- The word a pop from RAM reads. -/
theorem popValue_ram {s : State} (h : ramWordAt s (sp s - 2#16) = true) : popValue s = ramWord s (sp s - 2#16) := by
  have hr : ramWordAt (popState s) (sp s - 2#16) = true := (ramWordAt_congr (t := popState s) (s := s) rfl _).trans h
  rw [popValue, sp_popState_ram h, (ram_reads hr).1]
  exact ramWord_congr rfl rfl rfl _

/-- The events of a pop from RAM: the checks of R79. -/
theorem popEvents_ram {s : State} (h : ramWordAt s (sp s - 2#16) = true) :
    popEvents s = stackEvent (popStackError s (sp s)) := by
  obtain ⟨h0, h1, h2⟩ := ramWordAt_bounds h
  have hx := (sp s).isLt
  rw [BitVec.toNat_sub] at h1 h2
  have hw : (sp s < 2#16) = (sp s = 0#16) := by
    apply propext
    rw [BitVec.lt_def]
    constructor
    · intro hlt
      apply BitVec.eq_of_toNat_eq
      simp at hlt h2 ⊢
      omega
    · intro he
      simp [he]
  simp only [popEvents, sp_popState_ram h, (ram_reads h).2.1, joinEvents, addrEvent, stackChecks, stackEvent, aboveLimit,
    stackLow, popStackError, popState_dev, eaOf_of_ram h, hw]
  simp [popState]
  rfl

/-- The state after a pop from RAM. -/
theorem popState_ram {s : State} (h : ramWordAt s (sp s - 2#16) = true) :
    popState s = { s with w := s.w.set 15 (sp s - 2#16) } := by
  have he := evenPart_sub_two (even_of_sub_two (ramWordAt_bounds h).1)
  simp [popState, putW, he]

/-- What the push of a word to RAM does (R78, R79); a wrap of W15 from 0xFFFE is past the end of data space. -/
theorem push16_ram {s : State} (v : Word) (h : ramWordAt s (sp s) = true) :
    ∃ t, push16 s v false = .ok (t, stackEvent (pushStackError s (sp s))) ∧
      t = { s with w := s.w.set 15 (sp s + 2#16), mem := t.mem } ∧ sp t = sp s + 2#16 ∧
      ∀ a, ramRead t a = if a = sp s then lowByte v else if a = sp s + 1#16 then highByte v else ramRead s a := by
  obtain ⟨h0, h1, h2⟩ := ramWordAt_bounds h
  have hx := (sp s).isLt
  have e1 := evenPart_add_two h0
  have htop : decide (0xFFFE#16 ≤ sp s) = (sp s == 0xFFFE#16) := by
    rw [Bool.eq_iff_iff]
    simp only [decide_eq_true_eq, beq_iff_eq]
    constructor
    · intro hc
      rw [BitVec.le_def] at hc
      apply BitVec.eq_of_toNat_eq
      simp at hc ⊢
      omega
    · intro he
      simp [he]
  generalize ht : ramWrite (ramWrite s (sp s) (lowByte v)) (sp s + 1#16) (highByte v) = t
  have hf : t = { s with mem := t.mem } := by rw [← ht]; exact ram2_eq _ _ _ _ _
  have hsp : sp t = sp s := by rw [← ht]; simp
  have hst : joinEvents quiet (stackChecks (putW t 15 (sp t + 2#16)) (sp s) (decide (lastWord t.dev ≤ eaOf t.dev (sp s)))) =
      stackEvent (pushStackError s (sp s)) := by
    have hd : t.dev = s.dev := by rw [hf]
    have hw : t.splimWritten = s.splimWritten := by rw [hf]
    have hl : t.splim = s.splim := by rw [hf]
    simp only [joinEvents, quiet, stackChecks, stackEvent, aboveLimit, stackLow, pushStackError, sp_putW_self, hsp, e1,
      putW_splimWritten, putW_splim, putW_dev, hw, hl, hd, Bool.or_assoc, lastWord, eaOf_of_ram h, htop]
    simp
  refine ⟨putW t 15 (sp t + 2#16), ?_, ?_, ?_, ?_⟩
  · simp only [push16, Bool.false_eq_true, if_false]
    rw [ram_write v h]
    simp only [ht, pushDone]
    rw [hst]
  · have hw : t.w = s.w := by rw [hf]
    simp only [putW, if_true, hsp, e1, hw]
    rw [hf]
    rfl
  · rw [sp_putW_self, hsp, e1]
  · intro a
    rw [← ram2_read v h a, ht]
    exact ramRead_congr rfl rfl rfl a

/-- What the frame of an exception in RAM is (60_exceptions.md R140). -/
theorem pushFrame_ram {s : State} (ret : ProgAddr) (h : ramWordAt s (sp s) = true)
    (h2 : ramWordAt s (sp s + 2#16) = true) :
    ∃ t, pushFrame s ret =
        .ok (t, stackEvent (pushStackError s (sp s) || pushStackError s (sp s + 2#16))) ∧
      t = { s with w := s.w.set 15 (sp s + 4#16), mem := t.mem } ∧ sp t = sp s + 4#16 ∧
      ∀ a, ramRead t a = if a = sp s then lowByte (frameFirst s ret) else if a = sp s + 1#16 then highByte (frameFirst s ret)
        else if a = sp s + 2#16 then lowByte (frameSecond s ret)
        else if a = sp s + 3#16 then highByte (frameSecond s ret)
        else ramRead s a := by
  obtain ⟨t1, p1, q1, r1, m1⟩ := push16_ram (frameFirst s ret) h
  have ht : ramWordAt t1 (sp t1) = true := by
    rw [r1, ramWordAt_congr (t := t1) (s := s) (by rw [q1])]
    exact h2
  have hsec : frameSecond t1 ret = frameSecond s ret := by rw [q1]; rfl
  obtain ⟨t2, p2, q2, r2, m2⟩ := push16_ram (frameSecond t1 ret) ht
  have n3 : sp s + 2#16 + 1#16 = sp s + 3#16 := by bv_omega
  have n4 : sp s + 2#16 + 2#16 = sp s + 4#16 := by bv_omega
  refine ⟨t2, ?_, ?_, ?_, ?_⟩
  · have hd : pushStackError t1 (sp t1) = pushStackError s (sp s + 2#16) := by rw [r1, q1]; rfl
    simp only [pushFrame, p1, p2, joinEvents, stackEvent, hd]
    simp
  · rw [q2, r1, n4, q1]
    simp [Vector.set_set]
  · rw [r2, r1, n4]
  · intro a
    rw [m2, m1, r1, n3, hsec]
    have a1 : sp s ≠ sp s + 2#16 := by bv_omega
    have a2 : sp s ≠ sp s + 3#16 := by bv_omega
    have a3 : sp s + 1#16 ≠ sp s + 2#16 := by bv_omega
    have a4 : sp s + 1#16 ≠ sp s + 3#16 := by bv_omega
    by_cases h1 : a = sp s
    · subst h1; simp [a1, a2]
    · by_cases h2 : a = sp s + 1#16
      · subst h2; simp [a3, a4, h1]
      · simp [h1, h2]

end Sys2Proof.Machine
end

