-- ==== Sys2Proof/Laws/Traps.lean ====
section
/-! SUPPORT. The three answers of R146 to a hard trap event as Booleans: each state and trap falls under exactly one. -/

namespace Sys2Proof.Machine

/-- `higherTrapPending` is what R146 says of the greater levels. -/
theorem higherTrapPending_iff (s : State) (t : Trap) : higherTrapPending s t = true ↔
    ∃ u, trapLevel s.dev t < trapLevel s.dev u ∧ trapPending s u = true := by
  simp only [higherTrapPending, List.any_eq_true, Bool.and_eq_true, decide_eq_true_eq]
  exact ⟨fun ⟨u, _, h⟩ => ⟨u, h⟩, fun ⟨u, h⟩ => ⟨u, by cases u <;> decide, h⟩⟩

/-- No trap of a greater level is pending. -/
theorem not_higherTrapPending_iff (s : State) (t : Trap) : higherTrapPending s t = false ↔
    ∀ u, trapLevel s.dev t < trapLevel s.dev u → trapPending s u = false := by
  rw [← Bool.not_eq_true, higherTrapPending_iff]
  simp

theorem conflicts_iff (s : State) (t : Trap) : conflicts s t ↔
    (higherTrapPending s t || decide (trapLevel s.dev t < cpuIPL s)) = true := by
  simp [conflicts, higherTrapPending_iff]

theorem meetsOwnHandler_iff (s : State) (t : Trap) : meetsOwnHandler s t ↔
    (!higherTrapPending s t && cpuIPL s == trapLevel s.dev t) = true := by
  simp [meetsOwnHandler, ← not_higherTrapPending_iff]

theorem admitsTrap_iff (s : State) (t : Trap) : admitsTrap s t ↔
    (!higherTrapPending s t && decide (cpuIPL s < trapLevel s.dev t)) = true := by
  simp [admitsTrap, ← not_higherTrapPending_iff]

/-- No statement about a hard trap event leaves a state out. -/
theorem trap_answers (s : State) (t : Trap) : conflicts s t ∨ meetsOwnHandler s t ∨ admitsTrap s t := by
  rw [conflicts_iff, meetsOwnHandler_iff, admitsTrap_iff]
  cases higherTrapPending s t <;> simp
  omega

end Sys2Proof.Machine
end

