-- ==== Sys2Proof/Tests/Slice0.lean ====
section
/-! SUPPORT. Tests: ill-formed operands are refused, written-out words decode, one step of each instruction against
95_test_vectors.md, and a witness for the hypotheses of each statement. -/

namespace Sys2Proof.Machine

/-! Well-formedness: each check refuses an ill-formed term. -/

theorem test_wf_goto_odd : (Instr.goto 0x000201#23).wellFormed = false := by decide
theorem test_wf_push_odd : (Instr.pushF 0x0043#16).wellFormed = false := by decide
theorem test_wf_pop_odd : (Instr.popF 0x0043#16).wellFormed = false := by decide
theorem test_wf_movToF_odd : (Instr.movToF 0 0x0901#16).wellFormed = false := by decide
theorem test_wf_movFromF_odd : (Instr.movFromF 0x0901#16 0).wellFormed = false := by decide
theorem test_wf_bset_odd : (Instr.bsetF 0x0085#16 0#4).wellFormed = false := by decide
theorem test_wf_bset_far : (Instr.bsetF 0x2000#16 0#4).wellFormed = false := by decide
theorem test_wf_bset_last : (Instr.bsetF 0x1FFE#16 15#4).wellFormed = true := by decide
theorem test_wf_bclr_far : (Instr.bclrF 0x2000#16 0#4).wellFormed = false := by decide
theorem test_wf_movd_load_w15 : (Instr.movD (.load 0 15 false)).wellFormed = false := by decide
theorem test_wf_movd_store_w15 : (Instr.movD (.store 15 0)).wellFormed = false := by decide
theorem test_wf_btsc_odd : (Instr.btsc (.file 0x0901#16) 0#4).wellFormed = false := by decide
theorem test_wf_btss_odd : (Instr.btss (.file 0x0901#16) 0#4).wellFormed = false := by decide
theorem test_wf_field_order : (AbsOp.field .sr 4#4 5#4 0#16).wellFormed = false := by decide

/-! Words written out from the encodings of 30_encoding.md R92 and 95_test_vectors.md section 2.13. -/

theorem test_decode_nop : decode 0b000000001010101111001101#24 none = .ok .nop := by decide
theorem test_decode_retfie : decode 0b000001100100000000000000#24 none = .ok .retfie := by decide
theorem test_decode_return : decode 0b000001100000000000000000#24 none = .ok .ret := by decide
theorem test_decode_disi : decode 0xFC0004#24 none = .ok (.disi 4#14) := by decide
theorem test_decode_pwrsav_sleep : decode 0xFE4000#24 none = .ok (.pwrsav .sleep) := by decide
theorem test_decode_pwrsav_idle : decode 0xFE4001#24 none = .ok (.pwrsav .idle) := by decide
theorem test_decode_reset : decode 0xFE0000#24 none = .ok .reset := by decide
theorem test_decode_goto : decode 0x042344#24 (some 0x000001#24) = .ok (.goto 0x012344#23) := by decide
theorem test_decode_goto_top : decode 0x040000#24 (some 0x00007F#24) = .ok (.goto 0x7F0000#23) := by decide
theorem test_decode_goto_alone : decode 0x040200#24 none = .error .gotoSecondWord := by decide
theorem test_decode_goto_odd_word : decode 0x040201#24 (some 0#24) = .error .noRow := by decide
theorem test_decode_bra : decode 0x370007#24 none = .ok (.bra 7#16) := by decide
theorem test_decode_push_sr : decode 0xF80042#24 none = .ok (.pushF 0x0042#16) := by decide
theorem test_decode_pop_sr : decode 0xF90042#24 none = .ok (.popF 0x0042#16) := by decide
theorem test_decode_mov_literal : decode 0b001000100100010001000000#24 none = .ok (.movLit 0x2444#16 0) := by decide
theorem test_decode_mov_store : decode 0x880520#24 none = .ok (.movToF 0 0x00A4#16) := by decide
theorem test_decode_mov_load : decode 0x800701#24 none = .ok (.movFromF 0x00E0#16 1) := by decide
theorem test_decode_bset : decode 0xA86094#24 none = .ok (.bsetF 0x0094#16 3#4) := by decide
theorem test_decode_bset_15 : decode 0xA8E083#24 none = .ok (.bsetF 0x0082#16 15#4) := by decide
theorem test_decode_bclr : decode 0xA96044#24 none = .ok (.bclrF 0x0044#16 3#4) := by decide
theorem test_decode_bclr_8 : decode 0xA90085#24 none = .ok (.bclrF 0x0084#16 8#4) := by decide
theorem test_decode_no_row : decode 0xFFFFFF#24 none = .error .noRow := by decide
theorem test_decode_table_goto : decodeTableWord 48 0x000001042344 = some (.goto 0x012344#23) := by decide

/-! Small states. -/

/-- The reset state with another W15. -/
def stackAt (a : Word) : State := { State.reset with w := State.reset.w.set 15 a }

/-- The reset state with a word of RAM. -/
def withWord (s : State) (a : DataAddr) (v : Word) : State :=
  ramWrite (ramWrite s a (lowByte v)) (a + 1#16) (highByte v)

/-- A frame's two words below W15 = 0x0904. -/
def framed (lo hi : Word) : State := withWord (withWord (stackAt 0x0904#16) 0x0900#16 lo) 0x0902#16 hi

/-- A next state with a property. -/
def nextIs (r : Res) (p : State → Bool) : Bool :=
  match r with
  | .next t => p t
  | .fault _ => false
  | .refused _ => false

/-- The reset state with the Timer1 interrupt (IRQ 3) requesting at priority 4. -/
def timerRequest : State :=
  { State.reset with
    ifs := State.reset.ifs.set 0 0x0008#16
    iec := State.reset.iec.set 0 0x0008#16 }

/-! One step of each instruction, from the vectors of 95_test_vectors.md. -/

/-- R105. -/
theorem test_nop : nextIs (exec .nop State.reset) (fun t => t.pc == 2#23) = true := by decide

/-- Section 2.6 row 3. -/
theorem test_retfie_into_trap_handler :
    nextIs (exec .retfie { framed 0x0400#16 0x6080#16 with sr := 0x00A0#16, corcon := 0x0028#16 })
      (fun t => t.pc == 0x000400#23 && t.sr == 0x0060#16 && t.corcon == 0x0028#16 && sp t == 0x0900#16) = true := by
  decide

/-- Section 2.6 row 5. -/
theorem test_retfie_ignores_bit_0 :
    nextIs (exec .retfie { framed 0x0401#16 0x0000#16 with sr := 0x8040#16 })
      (fun t => t.pc == 0x000400#23 && t.sr == 0x8000#16 && t.corcon == 0x0020#16) = true := by decide

/-- R112: SR and IPL3 are not restored. -/
theorem test_return : nextIs (exec .ret { framed 0x2344#16 0xFF81#16 with sr := 0x0040#16 })
    (fun t => t.pc == 0x012344#23 && t.sr == 0x0040#16 && t.corcon == 0x0020#16 && sp t == 0x0900#16) = true := by
  decide

/-- Section 2.9 row 5. -/
theorem test_return_underflow : nextIs (exec .ret (withWord (withWord (stackAt 0x0802#16) 0x0800#16 0#16) 0x07FE#16 0#16))
    (fun t => t.intcon1 == 0x0004#16) = true := by decide

/-- Section 2.7 row 1. -/
theorem test_disi : nextIs (exec (.disi 3#14) State.reset)
    (fun t => t.disicnt == 3#14 && sfrRead t .intcon2 == 0x4000#16) = true := by decide

/-- Section 2.7 row 5. -/
theorem test_disi_zero : nextIs (exec (.disi 0#14) { State.reset with disicnt := 50#14, disiActive := true })
    (fun t => t.disicnt == 0#14 && !t.disiActive) = true := by decide

/-- Section 2.12 row 1: the return address is the instruction after PWRSAV. -/
theorem test_pwrsav : nextIs (exec (.pwrsav .idle) State.reset)
    (fun t => t.pc == 2#23 && t.power == .asleep .idle) = true := by decide

/-- Section 2.15. -/
theorem test_reset : nextIs (exec .reset { State.reset with pc := 0x000200#23, intcon1 := 0x8000#16, sr := 0x00E0#16 })
    (fun t => t.pc == 0#23 && t.intcon1 == 0#16 && t.sr == 0#16 && sp t == 0x0800#16) = true := by decide

/-- R106. -/
theorem test_goto : nextIs (exec (.goto 0x000200#23) State.reset) (fun t => t.pc == 0x000200#23 && t.intcon1 == 0#16) = true := by
  decide

/-- Section 2.10 row 6. -/
theorem test_goto_unimplemented : nextIs (exec (.goto 0x7F0000#23) State.reset)
    (fun t => t.pc == 0x7F0000#23 && t.intcon1 == 0x0008#16) = true := by decide

/-- Section 2.13: BRA to itself. -/
theorem test_bra_self : nextIs (exec (.bra 0xFFFF#16) { State.reset with pc := 0x000200#23 })
    (fun t => t.pc == 0x000200#23) = true := by decide

/-- Section 2.13: BRA 0x000210 at 0x000200. -/
theorem test_bra : nextIs (exec (.bra 7#16) { State.reset with pc := 0x000200#23 }) (fun t => t.pc == 0x000210#23) = true := by
  decide

/-- R113's example: PUSH SR with SR = 0x0001 at W15 = 0x0800. -/
theorem test_push_sr : nextIs (exec (.pushF 0x0042#16) { State.reset with sr := 0x0001#16 })
    (fun t => readWord t 0x0800#16 == 0x0001#16 && sp t == 0x0802#16 && t.intcon1 == 0#16) = true := by decide

/-- Section 2.9 row 7. -/
theorem test_push_wraps : nextIs (exec (.pushF 0x0042#16) { stackAt 0xFFFE#16 with sr := 0x0103#16 })
    (fun t => ramRead t 0xFFFE#16 == 0x03#8 && ramRead t 0xFFFF#16 == 0x01#8 && t.intcon1 == 0x0004#16) = true := by decide

/-- R113's example: POP SR gives SR = 0x0001 at W15 = 0x0800. -/
theorem test_pop_sr : nextIs (exec (.popF 0x0042#16) { withWord (stackAt 0x0802#16) 0x0800#16 0x0001#16 with sr := 0x00E1#16 })
    (fun t => t.sr == 0x0001#16 && sp t == 0x0800#16) = true := by decide

/-- R113: POP to RAM. -/
theorem test_pop_ram : nextIs (exec (.popF 0x1000#16) (withWord (stackAt 0x0802#16) 0x0800#16 0x1234#16))
    (fun t => readWord t 0x1000#16 == 0x1234#16) = true := by decide

/-- Section 2.13. -/
theorem test_mov_literal : nextIs (exec (.movLit 0x2444#16 0) State.reset) (fun t => t.w[0] == 0x2444#16 && sp t == 0x0800#16) = true := by
  decide

/-- Section 2.9 row 6. -/
theorem test_mov_w15_underflow : nextIs (exec (.movLit 0x07FE#16 15) State.reset)
    (fun t => sp t == 0x07FE#16 && t.intcon1 == 0x0004#16) = true := by decide

/-- Section 2.8 row 8. -/
theorem test_mov_to_intcon1 : nextIs (exec (.movToF 0 0x0080#16) { State.reset with w := State.reset.w.set 0 0xFFE0#16 })
    (fun t => t.intcon1 == 0xFFC0#16) = true := by decide

/-- Section 2.10 row 2. -/
theorem test_mov_to_odd : nextIs (exec (.movToF 0 0x0901#16) State.reset)
    (fun t => t.intcon1 == 0x0008#16 && t.mem == []) = true := by decide

/-- R120: a read of an IPC register; W15 keeps bit 0 clear (R11). -/
theorem test_mov_from_ipc : nextIs (exec (.movFromF 0x00A4#16 1) State.reset) (fun t => t.w[1] == 0x4444#16) = true := by decide

/-- Section 2.10 row 1. -/
theorem test_mov_from_odd : nextIs (exec (.movFromF 0x0901#16 1) State.reset) (fun t => t.intcon1 == 0x0008#16) = true := by
  decide

/-- Section 2.8 row 20. -/
theorem test_bset : nextIs (exec (.bsetF 0x0084#16 3#4) State.reset) (fun t => t.ifs[0] == 0x0008#16) = true := by decide

/-- Section 2.10 row 5: a bit of the upper byte. -/
theorem test_bset_upper : nextIs (exec (.bsetF 0x0084#16 8#4) State.reset)
    (fun t => t.ifs[0] == 0x0100#16 && t.intcon1 == 0#16) = true := by decide

/-- Section 2.8 row 19. -/
theorem test_bclr : nextIs (exec (.bclrF 0x0084#16 3#4) { State.reset with ifs := State.reset.ifs.set 0 0x0088#16 })
    (fun t => t.ifs[0] == 0x0080#16) = true := by decide

/-- Section 2.8 row 10. -/
theorem test_bclr_matherr : nextIs (exec (.bclrF 0x0080#16 4#4) { State.reset with intcon1 := 0x0018#16 })
    (fun t => t.intcon1 == 0x0008#16) = true := by decide

/-- Section 2.10 row 9. -/
theorem test_sftac_limit : badShiftCount (shiftCount State.reset (.literal 16)) = false ∧
    badShiftCount (shiftCount State.reset (.literal (-16))) = false := by decide

/-- Section 2.10 row 10. -/
theorem test_sftac_beyond : nextIs (exec (.sftac .b (.literal (-17))) State.reset)
    (fun t => t.intcon1 == 0x0090#16 && t.accA == 0#40 && t.accB == 0#40) = true := by decide

/-- Section 2.10 row 11. -/
theorem test_divide_by_zero : nextIs (exec (.repeatDivide 0 1 2 3) State.reset) (fun t => t.intcon1 == 0x0050#16) = true := by
  decide

/-- Section 2.10 row 8: an X fetch from the default Y space. -/
theorem test_mac_x_from_y :
    (fetchEvents { State.reset with w := State.reset.w.set 0 0x1800#16 } 0 false).addr = true ∧
    (fetchEvents { State.reset with w := State.reset.w.set 0 0x1800#16 } 0 true).addr = false := by decide

/-- R117, R150 item 1: MOV.D stores nothing at an odd address. -/
theorem test_movd_odd : wordWriteFaults State.reset 0x0901#16 = true := by decide

/-- R117, R150 item 1. -/
theorem test_btsc_odd : (bitSourceEvents State.reset (.file 0x0901#16)).addr = true := by decide

/-- R117, R110 item 3: a PSV word access with EA<0> = 1 is an address error. -/
theorem test_btss_psv_odd : (bitSourceEvents { State.reset with w := State.reset.w.set 0 0x0901#16 } (.psv 0)).addr = true := by
  decide

/-- R117, R110 item 3. -/
theorem test_movd_psv_odd : doubleReadFaults State.reset 0x8001#16 true = true ∧ doubleReadFaults State.reset 0x8000#16 true = false := by
  decide

/-- R110 item 2, R79: an effective address that wrapped past 0xFFFF raises the stack error, SPLIM or not. -/
theorem test_other_wraps : throughStack State.reset 0x0002#16 (.stack true) = ⟨true, false, 0#16, false⟩ ∧
    throughStack State.reset 0x0002#16 .other = quiet := by decide

/-- R122: `x << lo` is not cut to the field; the field SR<5:5> with 3 sets SR<6:5>. -/
theorem test_field_uncut : nextIs (execAbs (.field .sr 5#4 5#4 3#16) State.reset) (fun t => t.sr == 0x0060#16) = true := by
  decide

/-- The reset state within a REPEAT loop (SR.RA) of a divide at 0x000204 at W15 = 0x0800, with pc and SR given. -/
def inLoop (pc : ProgAddr) (sr : Word) : State :=
  { State.reset with
    pc := pc
    sr := sr
    divideLoops := [⟨0x0800#16, 0x000204#23, true⟩]
    prog := [(0x000204, .instr (.repeatDivide 0 1 2 3)), (0x000304, .instr (.repeatDivide 0 1 2 3))] }

/-- R115: a later iteration of the same loop does not check the divisor, whatever the CPU priority level or W15 has been
since. -/
theorem test_divide_later : firstIteration (inLoop 0x000204#23 0x0010#16) = false ∧
    firstIteration (inLoop 0x000204#23 0x00F0#16) = false ∧
    firstIteration { inLoop 0x000204#23 0x0010#16 with w := State.reset.w.set 15 0x0900#16 } = false ∧
    firstIteration (inLoop 0x000304#23 0x0010#16) = true := by decide

/-- R115: an operation that is not right before a divide begins no loop, a REPEAT right before it begins it anew, and the end
of that loop leaves the interrupted one in progress. -/
theorem test_divide_repeated :
    beginLoop (inLoop 0x000206#23 0x0010#16) = inLoop 0x000206#23 0x0010#16 ∧
    firstIteration (beginLoop (inLoop 0x000204#23 0x0010#16)) = true ∧
    endLoop (beginLoop (inLoop 0x000204#23 0x0010#16)).divideLoops 0x0800#16 0x000204#23 =
      (inLoop 0x000204#23 0x0010#16).divideLoops := by decide

/-- R115: a whole loop of another divide at the same W15 leaves the interrupted one in progress. -/
theorem test_divide_other_loop :
    endLoop (beginLoop (inLoop 0x000304#23 0x0010#16)).divideLoops 0x0800#16 0x000304#23 =
      (inLoop 0x000204#23 0x0010#16).divideLoops := by decide

/-- R6: the widths of pc, of a data address and of DISICNT are parameters. -/
theorem test_widths : pcOf { defaultDevice with pcBits := 16 } 0x012345#23 = 0x002344#23 ∧
    isRam { defaultDevice with dataAddrBits := 12 } 0x1800#16 = true ∧
    isRam { defaultDevice with dataAddrBits := 12 } 0x1000#16 = false ∧
    nextIs (exec (.disi 0x3FFF#14) { State.reset with dev := { defaultDevice with disicntBits := 8 } })
      (fun t => t.disicnt == 0x00FF#14) = true := by decide

/-- R102 with another FRAME_LAYOUT (D3): the two words of D3's layout exchanged. -/
theorem test_retfie_other_layout :
    nextIs (exec .retfie
        { framed 0x6080#16 0x0400#16 with
          dev := { defaultDevice with frame := { first := defaultFrame.second, second := defaultFrame.first } } })
      (fun t => t.pc == 0x000400#23 && t.sr == 0x0060#16 && t.corcon == 0x0028#16) = true := by decide

/-- R92: a skip over a GOTO passes both words. -/
theorem test_skip_over_goto : wordsAt (loadWord State.reset 2#23 0x040200#24) 2#23 = 2 := by decide

/-- R119, R122. -/
theorem test_indirect_set : nextIs 
    (exec (.bitIndirect .set 0 15#4)
      { withWord State.reset 0x0900#16 0x0001#16 with w := State.reset.w.set 0 0x0900#16 })
    (fun t => readWord t 0x0900#16 == 0x8001#16) = true := by decide

/-- Section 2.10 row 4. -/
theorem test_indirect_odd : nextIs (exec (.bitIndirect .clear 0 0#4) { State.reset with w := State.reset.w.set 0 0x0901#16 })
    (fun t => t.intcon1 == 0x0008#16) = true := by decide

/-! Witnesses: a concrete state and operands that meet the hypotheses of a statement, at boundary values, clause by
clause. -/

/-- An outcome that is a next state has one. -/
theorem next_of_isNext {r : Res} (h : isNext r = true) : ∃ t, r = .next t := by
  cases r with
  | next t => exact ⟨t, rfl⟩
  | fault f => cases h
  | refused x => cases h

/-- The reset state inside a trap handler of a level (12 to 15: SR bits 0x80, 0xA0, 0xC0, 0xE0 with IPL3). -/
def inTrap (sr : Word) : State := { State.reset with sr := sr, corcon := 0x0028#16 }

/-- A device whose data space ends at 0x0FFF. -/
def smallDevice (traps : Bool) : State :=
  { State.reset with dev := { defaultDevice with dataRanges := [(0x0000, 0x0FFF)], unimplementedWriteTraps := traps } }

/-- The reset state with W0. -/
def w0At (a : Word) : State := { State.reset with w := State.reset.w.set 0 a }

/-- The Timer1 interrupt requests, W15 is 0x0900, and the Timer1 vector holds 0x000300. -/
def timerEntry : State :=
  loadWord { timerRequest with w := State.reset.w.set 15 0x0900#16, pc := 0x000208#23 } 0x00001A#23 0x000300#24

/-- An oscillator failure is pending, and its vector holds 0x000400. -/
def oscEntry : State := loadWord { State.reset with intcon1 := 0x0002#16 } 0x000006#23 0x000400#24

theorem test_witness_DecodeEncode : (Instr.goto 0x7FFFFE#23).wellFormed = true ∧ (Instr.goto 0x7FFFFE#23).encoded = true := by
  decide

theorem test_witness_EncodeDecode : decode 0x04FFFE#24 (some 0x00007F#24) = .ok (.goto 0x7FFFFE#23) ∧
    decode 0x00FFFF#24 none = .ok .nop ∧ (Instr.goto 0x7FFFFE#23).length = 2 := by decide

theorem test_witness_EncodingRowsPartitionWords : decode 0x060001#24 none = .error .noRow ∧
    decode 0x040000#24 (some 0x000080#24) = .error .gotoSecondWord := by decide

theorem test_witness_StepRunsTheFetchedInstruction_word :
    let s := { State.reset.withFetchWord 24 0x00FFFF with agenda := [.cpu] }
    s.agenda = .cpu :: [] ∧ s.power = .run ∧ (boundaryCheck { s with agenda := [] }).1 = none ∧
    progImplemented s.dev s.pc = true ∧ progAt s s.pc = some (.word 0x00FFFF#24) ∧
    decode 0x00FFFF#24 (progWordAt s (nextPc s)) = .ok .nop := by decide

theorem test_witness_StepRunsTheFetchedInstruction_instr :
    let s := { State.reset with prog := [(0, .instr (.sftac .a (.literal 17)))] }
    s.agenda = [] ∧ s.power = .run ∧ (boundaryCheck s).1 = none ∧ progImplemented s.dev s.pc = true ∧
    progAt s s.pc = some (.instr (.sftac .a (.literal 17))) ∧ (Instr.sftac .a (.literal 17)).wellFormed = true := by decide

theorem test_witness_StepRunsTheFetchedInstruction_entry :
    oscEntry.agenda = [] ∧ oscEntry.power = .run ∧ (boundaryCheck oscEntry).1 = some (.trap .oscFail) := by decide

theorem test_witness_StepRunsTheFetchedInstruction_operation :
    let s := { State.reset with prog := [(0, .abs .pushSr)] }
    s.agenda = [] ∧ s.power = .run ∧ (boundaryCheck s).1 = none ∧ progImplemented s.dev s.pc = true ∧
    progAt s s.pc = some (.abs .pushSr) ∧ AbsOp.pushSr.wellFormed = true := by decide

theorem test_witness_StepRunsTheFetchedInstruction_unimplemented :
    let s := { State.reset with pc := 0x001000#23 }
    s.agenda = [] ∧ s.power = .run ∧ (boundaryCheck s).1 = none ∧ progImplemented s.dev s.pc = false := by decide

/-- R150 cause 5: at an unimplemented address nothing runs, ADDRERR is set and pc stays. -/
theorem test_unimplemented_pc : nextIs (step { State.reset with pc := 0x001000#23 })
    (fun t => t.pc == 0x001000#23 && t.intcon1 == 0x0008#16) = true := by decide

theorem test_witness_NopAdvances : State.reset.pc.getLsbD 0 = false := by decide

theorem test_witness_DisiLoadsTheCount : 14 ≤ State.reset.dev.disicntBits ∧
    ∃ t, exec (.disi 16383#14) State.reset = .next t := ⟨by decide, _, rfl⟩

theorem test_witness_JumpsLoadPc : (0x000FFE#23).getLsbD 0 = false ∧ 23 ≤ State.reset.dev.pcBits ∧
    progImplemented State.reset.dev (pcOf State.reset.dev 0x000FFE#23) = true ∧
    progImplemented State.reset.dev
      (pcOf State.reset.dev (BitVec.ofInt 23 (State.reset.pc.toNat + 2 + 2 * (0xFFFF#16).toInt))) = true := by decide

theorem test_witness_JumpToUnimplementedTraps :
    0x001000#23 = pcOf State.reset.dev 0x001000#23 ∧ progImplemented State.reset.dev 0x001000#23 = false ∧
    0x7FFFFE#23 = pcOf State.reset.dev (BitVec.ofInt 23 (State.reset.pc.toNat + 2 + 2 * (0xFFFE#16).toInt)) ∧
    progImplemented State.reset.dev 0x7FFFFE#23 = false ∧
    (admitsTrap (inTrap 0x0080#16) .addressError ∧ conflicts oscEntry .addressError ∧
      conflicts (inTrap 0x00C0#16) .addressError ∧ meetsOwnHandler (inTrap 0x00A0#16) .addressError) := by
  rw [admitsTrap_iff, conflicts_iff, conflicts_iff, meetsOwnHandler_iff]
  decide

theorem test_witness_RetfieRestores :
    ramWordAt (stackAt 0x0804#16) (sp (stackAt 0x0804#16) - 2#16) = true ∧
    ramWordAt (stackAt 0x0804#16) (sp (stackAt 0x0804#16) - 4#16) = true ∧
    ramWordAt (stackAt 0x0000#16) (sp (stackAt 0x0000#16) - 2#16) = true ∧
    ramWordAt (stackAt 0x0000#16) (sp (stackAt 0x0000#16) - 4#16) = true ∧
    (stackAt 0x0804#16).dev.frame = defaultFrame := by decide

theorem test_witness_ReturnPopsPc :
    ramWordAt (stackAt 0x0804#16) (sp (stackAt 0x0804#16) - 2#16) = true ∧
    ramWordAt (stackAt 0x0804#16) (sp (stackAt 0x0804#16) - 4#16) = true ∧
    (sp (stackAt 0x0802#16)).getLsbD 0 = false ∧ sp (stackAt 0x0802#16) - 4#16 < (stackAt 0x0802#16).dev.stackBase ∧
    isNext (exec .ret (stackAt 0x0802#16)) = true := by decide

theorem test_witness_PushStoresAtW15 : ramWordAt State.reset (sp State.reset) = true ∧
    wordReadFaults State.reset 0x0042#16 = false ∧ wordReadFaults State.reset 0xFFFE#16 = false ∧
    ramWordAt (stackAt 0xFFFE#16) (sp (stackAt 0xFFFE#16)) = true := by decide

theorem test_witness_PopStoresAtF : ramWordAt (stackAt 0x0802#16) 0xFFFE#16 = true ∧
    ramWordAt (stackAt 0x0802#16) (sp (stackAt 0x0802#16) - 2#16) = true := by decide

theorem test_witness_PopSrRestoresWritableBits : ramWordAt (stackAt 0x0802#16) (sp (stackAt 0x0802#16) - 2#16) = true ∧
    ramWordAt (stackAt 0x0000#16) (sp (stackAt 0x0000#16) - 2#16) = true ∧
    (0x0042#16).getLsbD 0 = false ∧ sfrAt (stackAt 0x0802#16).dev 0x0042#16 = some .sr := by decide

theorem test_witness_SftacShiftsOrTraps : 16 < shiftCount State.reset (.literal 17) ∧
    shiftCount (w0At 0xFFEF#16) (.register 0) < -16 ∧ -16 ≤ shiftCount (w0At 0xFFF0#16) (.register 0) ∧
    shiftCount State.reset (.literal 16) ≤ 16 := by decide

theorem test_witness_MacClassWritesItsAccumulator :
    let s := { State.reset with w := (State.reset.w.set 0 0x17FE#16).set 1 0x1FFE#16 }
    (∀ p, (some 0 : Option WReg) = some p → wordReadFaults s s.w[p] = false ∧ inYSpace s.dev s.w[p] = false) ∧
    (∀ p, (some 1 : Option WReg) = some p → wordReadFaults s s.w[p] = false ∧ inYSpace s.dev s.w[p] = true) := by
  decide

theorem test_witness_MovDLoadWritesItsPair : (14 : WReg).val < 15 ∧ wordReadFaults (w0At 0xFFFC#16) 0xFFFC#16 = false ∧
    wordReadFaults (w0At 0xFFFC#16) (0xFFFC#16 + 2#16) = false ∧ (w0At 0xFFFC#16).w[0] = 0xFFFC#16 ∧
    ((w0At 0xFFFE#16).w[0]).getLsbD 0 = false := by decide

theorem test_witness_MovDStoreWritesFourBytes : (14 : WReg).val < 15 ∧
    ramWordAt (w0At 0xFFFC#16) (w0At 0xFFFC#16).w[0] = true ∧
    ramWordAt (w0At 0xFFFC#16) ((w0At 0xFFFC#16).w[0] + 2#16) = true ∧
    ramWordAt State.reset State.reset.w[15] = true ∧ ramWordAt State.reset (State.reset.w[15] + 2#16) = true := by decide

theorem test_witness_BitTestSkips : wordReadFaults State.reset 0xFFFE#16 = false ∧
    (State.reset.w[15]).getLsbD 0 = false ∧
    progAt { State.reset with prog := [(2, .instr (.goto 0x000200#23))] } 2#23 = some (.instr (.goto 0x000200#23)) ∧
    wordReadFaults State.reset State.reset.w[15] = false ∧
    progAt (loadWord State.reset 2#23 0x040200#24) 2#23 = some (.word 0x040200#24) ∧
    0x040200#24 &&& 0xFF0001#24 = 0x040000#24 := by decide

theorem test_witness_IndirectBitAtOddAddressTraps : ((w0At 0x0901#16).w[0]).getLsbD 0 = true ∧
    trapLevelsOrdered State.reset.dev = true ∧ admitsTrap (w0At 0x0901#16) .addressError ∧
    conflicts { oscEntry with w := (w0At 0x0901#16).w } .addressError ∧
    conflicts { inTrap 0x00C0#16 with w := (w0At 0x0901#16).w } .addressError ∧
    meetsOwnHandler { inTrap 0x00A0#16 with w := (w0At 0x0901#16).w } .addressError := by
  rw [admitsTrap_iff, conflicts_iff, conflicts_iff, meetsOwnHandler_iff]
  decide

theorem test_witness_IndirectBitInRam : ramWordAt (w0At 0x0800#16) (w0At 0x0800#16).w[0] = true ∧
    ramWordAt (w0At 0xFFFE#16) (w0At 0xFFFE#16).w[0] = true := by decide

theorem test_witness_MovFromDataReads : wordReadFaults State.reset 0x0000#16 = false ∧ (0 : WReg) ≠ 15 ∧
    sfrAt State.reset.dev 0x00DE#16 = some (.ipc 29) ∧ ramWordAt State.reset 0xFFFE#16 = true ∧
    dataImplemented (smallDevice false).dev 0x1000#16 = false ∧ admitsTrap (smallDevice false) .addressError := by
  rw [admitsTrap_iff]
  decide

theorem test_witness_MovToDataStores : ramWordAt State.reset 0x0800#16 = true ∧
    (0x07FE#16).getLsbD 0 = false ∧ sfrAt State.reset.dev 0x07FE#16 = none ∧ isRam State.reset.dev 0x07FE#16 = false ∧
    isRam State.reset.dev (0x07FE#16 + 1#16) = false ∧ dataImplemented State.reset.dev 0x07FE#16 = true ∧
    sfrAt (smallDevice true).dev 0x1000#16 = none ∧ isRam (smallDevice true).dev 0x1000#16 = false ∧
    isRam (smallDevice true).dev (0x1000#16 + 1#16) = false ∧ dataImplemented (smallDevice true).dev 0x1000#16 = false ∧
    (smallDevice true).dev.unimplementedWriteTraps = true ∧ admitsTrap (smallDevice true) .addressError ∧
    (smallDevice false).dev.unimplementedWriteTraps = false := by
  rw [admitsTrap_iff]
  decide

theorem test_witness_BitWriteInRam : ramWordAt State.reset 0x0800#16 = true ∧ ramWordAt State.reset 0x1FFE#16 = true := by decide

theorem test_witness_RegisterReads : ({ State.reset with splimWritten := true } : State).splimWritten = true ∧
    State.reset.inttregFresh = true ∧ presentableIrq State.reset = none ∧
    ({ State.reset with traprSet := true, cfSet := true } : State).traprSet = true ∧
    ({ State.reset with traprSet := true, cfSet := true } : State).cfSet = true := by decide

/-- What a write of `v` to the bits `sel` of IPC0 leaves there. -/
def ipc0After (s : State) (v sel : Word) : Word := (v &&& sel) ||| (s.ipc[0] &&& ~~~sel)

theorem test_witness_PriorityWrites_refused : (3 : Nat) < 4 ∧ implemented timerRequest.dev 3 = true ∧
    requests timerRequest 3 = true ∧ passesMask timerRequest (irqPriority timerRequest 3) = true ∧
    irqPriority timerRequest 3 ≠ ((ipc0After timerRequest 0x2444#16 0xFFFF#16).extractLsb' 12 3).toNat ∧
    irqPriority timerRequest 3 ≠ ((ipc0After timerRequest 0x2444#16 0xFF00#16).extractLsb' 12 3).toNat := by decide

theorem test_witness_PriorityWrites_performed :
    let s := { timerRequest with sr := 0x0080#16 }
    let u := ipc0After s 0x2444#16 0xFFFF#16
    (∀ j, j < 4 → implemented s.dev j = true → irqPriority s j ≠ (u.extractLsb' (4 * j) 3).toNat →
      requests s j = true →
      passesMask s (irqPriority s j) = false ∧ passesMask s (u.extractLsb' (4 * j) 3).toNat = false) ∧
    ∀ j, j < 4 →
      irqPriority timerRequest j ≠ ((ipc0After timerRequest 0x2211#16 0x00FF#16).extractLsb' (4 * j) 3).toNat →
      requests timerRequest j = false := by decide

theorem test_witness_DisicntWrites : 14 ≤ State.reset.dev.disicntBits ∧
    ({ State.reset with disicnt := 50#14, disiActive := true } : State).disiActive = true ∧
    State.reset.disiActive = false := by decide

theorem test_witness_Intcon1Writes :
    (∃ b ∈ [1, 2, 3, 4],
      (0x00FF#16).getLsbD b = true ∧ (0x0008#16).getLsbD b = true ∧ State.reset.intcon1.getLsbD b = false) ∧
    (∀ b ∈ [1, 2, 3, 4], (0x00FF#16).getLsbD b = true → (0x0008#16).getLsbD b = true →
      ({ State.reset with intcon1 := 0x0018#16 } : State).intcon1.getLsbD b = true) ∧
    (∀ b ∈ [1, 2, 3, 4], (0xFF00#16).getLsbD b = true → (0x8008#16).getLsbD b = true →
      State.reset.intcon1.getLsbD b = true) := by decide

theorem test_witness_RegisterInstructionsWriteTheSfr : (0x0052#16).getLsbD 0 = false ∧
    sfrAt State.reset.dev 0x0052#16 = some .disicnt ∧ sfrAt State.reset.dev 0x0080#16 = some .intcon1 ∧
    ramWordAt (stackAt 0x0802#16) (sp (stackAt 0x0802#16) - 2#16) = true ∧
    (w0At 0x0052#16).w[0] = 0x0052#16 ∧ (stackAt 0x0080#16).w[15] = 0x0080#16 := by decide

/-- R122: SFR_BSET of a trap flag of INTCON1 is refused (R127), and of INTCON1.NSTDIS it is performed. -/
theorem test_sfr_bset : execAbs (.sfrBset .intcon1 3#4) State.reset = .refused .softwareSetTrapFlag ∧
    nextIs (execAbs (.sfrBset .intcon1 15#4) State.reset) (fun t => t.intcon1 == 0x8000#16) = true := ⟨rfl, by decide⟩

/-- R121: a byte write of the high byte of CORCON leaves the low byte. -/
theorem test_sfr_write_byte :
    nextIs (execAbs (.sfrWriteByte .corcon .hi 0xFF#8) State.reset) (fun t => t.corcon == 0x1820#16) = true := by decide

/-- R113: PUSH_SR at W15 = 0x0800. -/
theorem test_push_sr_operation : nextIs (execAbs .pushSr { State.reset with sr := 0x0001#16 })
    (fun t => readWord t 0x0800#16 == 0x0001#16 && sp t == 0x0802#16) = true := by decide

theorem test_witness_SourceBitPositions : implemented State.reset.dev 116 = true ∧ implemented State.reset.dev 4 = false := by
  decide

theorem test_witness_WinnerIsGreatestThenFirst : winner timerRequest = some 3 ∧ winner State.reset = none := by decide

theorem test_witness_PresentationTest : requests timerRequest 3 = true ∧ cpuIPL timerRequest < irqPriority timerRequest 3 ∧
    timerRequest.disiActive = false ∧ ipl { timerRequest with sr := 0x00E0#16 } = 7#3 ∧ ipl3 (inTrap 0x0080#16) = true ∧
    oscEntry.intcon1.getLsbD (trapFlagBit .oscFail) = true ∧ ipl3 oscEntry = false := by decide

theorem test_witness_BoundaryCheckChooses_hard : boundaryCheck oscEntry = (some (.trap .oscFail), { oscEntry with skid := 0 }) ∧
    trapPresentable oscEntry .oscFail = true ∧
    ∀ v, trapPresentable oscEntry v = true → v ≠ .oscFail →
      trapLevel oscEntry.dev v < trapLevel oscEntry.dev .oscFail :=
  ⟨rfl, by decide, fun v => by cases v <;> decide⟩

theorem test_witness_BoundaryCheckChooses_irq :
    boundaryCheck { timerRequest with skid := 2 } = (some (.irq 3), { timerRequest with skid := 0 }) ∧
    (∀ t, trapPresentable timerRequest t = false) ∧ presentableIrq timerRequest = some 3 :=
  ⟨rfl, fun t => by cases t <;> decide, by decide⟩

theorem test_witness_BoundaryCheckChooses_none : boundaryCheck State.reset = (none, State.reset) ∧
    (∀ t, trapPresentable State.reset t = false) ∧ presentableIrq State.reset = none :=
  ⟨rfl, fun t => by cases t <;> decide, by decide⟩

theorem test_witness_VectorAddressFormula : 125 ≤ 125 ∧ 9 ≤ State.reset.dev.pcBits ∧ State.reset.dev.ivtBase = 0x000004 ∧
    State.reset.dev.aivtBase = 0x000104 := by decide

theorem test_witness_TrapAndMaskTables : trapLevelsOrdered defaultDevice = true ∧
    trapLevel defaultDevice .mathError = trapLevel defaultDevice .mathError := by decide

theorem test_witness_InterruptEntry : presentableIrq timerEntry = some 3 ∧ timerEntry.pc.getLsbD 0 = false ∧
    ramWordAt timerEntry (sp timerEntry) = true ∧ ramWordAt timerEntry (sp timerEntry + 2#16) = true ∧
    progAt timerEntry (vectorAddress timerEntry (3 + 8)) = some (.word 0x000300#24) ∧ (0x000300#24).getLsbD 23 = false ∧
    (0x000300#24).getLsbD 0 = false ∧
    narrow timerEntry.dev.pcBits ((0x000300#24).extractLsb' 0 23) = (0x000300#24).extractLsb' 0 23 ∧
    timerEntry.dev.frame = defaultFrame := by decide

/-- Section 2.4 row 1. -/
theorem test_interrupt_entry :
    nextIs (enterException (.irq 3) { timerEntry with ipc := State.reset.ipc.set 0 0x2444#16 })
      (fun t => readWord t 0x0900#16 == 0x0208#16 && readWord t 0x0902#16 == 0x0000#16 && sp t == 0x0904#16 &&
        t.sr == 0x0040#16 && t.inttreg == 0x0203#16 && t.pc == 0x000300#23 && t.ifs[0] == 0x0008#16) = true := by decide

theorem test_witness_TrapEntry : trapPresentable oscEntry .oscFail = true ∧ oscEntry.pc.getLsbD 0 = false ∧
    ramWordAt oscEntry (sp oscEntry) = true ∧ ramWordAt oscEntry (sp oscEntry + 2#16) = true ∧
    progAt oscEntry (vectorAddress oscEntry (trapVector oscEntry.dev .oscFail)) = some (.word 0x000400#24) ∧
    (0x000400#24).getLsbD 23 = false ∧ (0x000400#24).getLsbD 0 = false ∧
    narrow oscEntry.dev.pcBits ((0x000400#24).extractLsb' 0 23) = (0x000400#24).extractLsb' 0 23 ∧
    trapLevelsOrdered oscEntry.dev = true ∧
    oscEntry.dev.frame = defaultFrame := by decide

/-- R126, R101, R107: an entry whose push replaces DISICNT is no writing instruction, so its own four ticks are counted. -/
theorem test_entry_ticks_counted :
    nextIs (afterTicks 4 (enterException (.trap .oscFail)
        { oscEntry with disicnt := 9#14, disiActive := true, pc := 0x000400#23, w := State.reset.w.set 15 0x0052#16 }))
      (fun t => t.disicnt == 0x03FC#14 && t.disiActive) = true := by decide

/-- Section 2.5 row 4. -/
theorem test_trap_entry :
    nextIs (enterException (.trap .oscFail) { oscEntry with sr := 0x00A0#16, corcon := 0x0028#16, pc := 0x000400#23 })
      (fun t => readWord t 0x0800#16 == 0x0400#16 && readWord t 0x0802#16 == 0xA080#16 && t.sr == 0x00C0#16 &&
        t.corcon == 0x0028#16 && cpuIPL t == 14 && t.pc == 0x000400#23) = true := by decide

theorem test_witness_RetfieUndoesEntry : pcOf timerEntry.dev timerEntry.pc = timerEntry.pc ∧ frameComplete timerEntry.dev.frame = true ∧
    ramWordAt timerEntry (sp timerEntry) = true ∧
    ramWordAt timerEntry (sp timerEntry + 2#16) = true ∧
    ∃ u h, enterException (.irq 3) timerEntry = .next u ∧ sp h = sp u ∧ h.dev = u.dev ∧
      ∀ k : BitVec 16, k < 4#16 → ramRead h (sp timerEntry + k) = ramRead u (sp timerEntry + k) := by
  refine ⟨by decide, by decide, by decide, by decide, ?_⟩
  obtain ⟨u, hu⟩ := next_of_isNext (r := enterException (.irq 3) timerEntry) (by decide)
  exact ⟨u, u, hu, rfl, rfl, fun _ _ => rfl⟩

theorem test_witness_HandlersNestByLevel : presentableIrq timerEntry = some 3 ∧
    trapLevelsOrdered timerEntry.dev = true ∧
    ramWordAt timerEntry (sp timerEntry) = true ∧ ramWordAt timerEntry (sp timerEntry + 2#16) = true ∧
    isNext (enterException (.irq 3) timerEntry) = true ∧ isNext (enterException (.trap .oscFail) oscEntry) = true := by decide

theorem test_witness_HardTrapEvent : hardTrap .addressError = true ∧ conflicts oscEntry .addressError ∧
    conflicts (inTrap 0x00C0#16) .addressError ∧ meetsOwnHandler (inTrap 0x00A0#16) .addressError ∧
    admitsTrap (inTrap 0x0080#16) .addressError := by
  rw [conflicts_iff, conflicts_iff, meetsOwnHandler_iff, admitsTrap_iff]
  decide

theorem test_witness_TicksCountDown : State.reset.disiLoaded = false ∧
    State.reset.disiActive = decide (State.reset.disicnt ≠ 0#14) ∧
    ({ State.reset with disiLoaded := true, disicnt := 3#14, disiActive := true } : State).disiLoaded = true := by decide

theorem test_witness_OscillatorFailure : (inTrap 0x00A0#16).power = .run ∧ (inTrap 0x00C0#16).power = .run ∧
    (inTrap 0x00E0#16).power = .run ∧ ({ State.reset with power := .asleep .idle } : State).power ≠ .run ∧
    admitsTrap (inTrap 0x00A0#16) .oscFail ∧ meetsOwnHandler (inTrap 0x00C0#16) .oscFail ∧
    conflicts (inTrap 0x00E0#16) .oscFail := by
  rw [admitsTrap_iff, meetsOwnHandler_iff, conflicts_iff]
  decide

theorem test_witness_SleepAndWake : ({ timerRequest with power := .asleep .sleep } : State).power = .asleep .sleep ∧
    irqFlag timerRequest 3 = true ∧ irqEnable timerRequest 3 = true ∧ 1 ≤ irqPriority timerRequest 3 ∧
    (∀ n, irqFlag { State.reset with power := .asleep .sleep } n = true →
      irqEnable { State.reset with power := .asleep .sleep } n = true →
      irqPriority { State.reset with power := .asleep .sleep } n = 0) := by
  refine ⟨by decide, by decide, by decide, by decide, ?_⟩
  intro n h
  have hn : n ∈ irqTable := by
    have := (Bool.and_eq_true _ _ ▸ h).1
    simp only [implemented, Bool.and_eq_true] at this
    simpa using this.1.1
  have all : ∀ m ∈ irqTable, irqFlag { State.reset with power := .asleep .sleep } m = false := by decide
  rw [all n hn] at h
  cases h

theorem test_witness_ReadOnlyStatus : isNext (exec (.popF 0x0044#16) (withWord (stackAt 0x0802#16) 0x0800#16 0xFFFF#16)) = true ∧
    isNext (execAbs (.sfrWrite .corcon 0xFFFF#16) State.reset) = true := by decide

theorem test_witness_IplIsLockedWithoutNesting : nstdis { State.reset with intcon1 := 0x8000#16 } = true ∧
    isNext (exec (.bsetF 0x0042#16 5#4) { State.reset with intcon1 := 0x8000#16 }) = true := by decide

theorem test_witness_AddressErrorInhibitsWrites : State.reset.intcon1.getLsbD 3 = false ∧
    nextIs (exec (.movToF 0 0x0901#16) State.reset) (fun t => t.intcon1.getLsbD 3) = true ∧
    nextIs (execAbs .pushSr { stackAt 0x0900#16 with w := State.reset.w.set 15 0x0901#16 }) (fun t => t.intcon1.getLsbD 3)
      = true := by decide

/-- W`p` and W`q` of the reset state replaced. -/
def wAt (p q : WReg) (a b : Word) : State := { State.reset with w := (State.reset.w.set p a).set q b }

theorem test_witness_OperandAddressErrors : trapLevelsOrdered State.reset.dev = true ∧
    (wAt 0 1 0x0901#16 0#16).w[0].getLsbD 0 = true ∧
    (wAt 0 1 0xFFFF#16 0#16).w[0].getLsbD 0 = true ∧
    inYSpace State.reset.dev (wAt 0 1 0x1800#16 0#16).w[0] = true ∧
    inYSpace State.reset.dev (wAt 0 1 0#16 0x17FE#16).w[1] = false ∧
    admitsTrap (wAt 0 1 0x0901#16 0#16) .addressError ∧ admitsTrap (wAt 0 1 0x1800#16 0x17FE#16) .addressError ∧
    conflicts { inTrap 0x00C0#16 with w := (wAt 0 1 0x0901#16 0x17FE#16).w } .addressError ∧
    meetsOwnHandler { inTrap 0x00A0#16 with w := (wAt 0 1 0x0901#16 0x17FE#16).w } .addressError := by
  rw [admitsTrap_iff, admitsTrap_iff, conflicts_iff, meetsOwnHandler_iff]
  decide

theorem test_witness_ProgramMemoryIsConstant : isNext (step (State.reset.withFetchWord 24 0x880520)) = true := by decide

theorem test_witness_StepKeepsWellFormed : wellFormedState (State.reset.withFetchWord 24 0xF80042) = true ∧
    isNext (step (State.reset.withFetchWord 24 0xF80042)) = true := by decide

end Sys2Proof.Machine
end

section
/-! Every step keeps the well-formedness of the state. The parts of a step end in one of two kinds of outcome: an access
that may be refused and leaves a state with its events, and a result. For each kind a predicate says that what it leaves
is well formed; one lemma per operation then composes. -/

namespace Sys2Proof.Machine

/-- An access that is not refused leaves a well-formed state, and events that set only implemented bits of INTCON1. -/
def AccessWellFormed (r : Except Refusal (State × Events)) : Prop :=
  ∀ t e, r = .ok (t, e) → wellFormedCore t = true ∧ mathBitsLegal e = true

/-- A result that is a next state is a well-formed one. -/
def ResultWellFormed (r : Res) : Prop := ∀ t, r = .next t → wellFormedCore t = true

theorem accessWellFormed_ok {s : State} {e : Events} (h : wellFormedCore s = true) (he : mathBitsLegal e = true) :
    AccessWellFormed (.ok (s, e)) := by
  intro t f ht
  cases ht
  exact ⟨h, he⟩

theorem resultWellFormed_next {s : State} (h : wellFormedCore s = true) : ResultWellFormed (.next s) := by
  intro t ht
  cases ht
  exact h

theorem resultWellFormed_finish {s : State} {e : Events} (h : wellFormedCore s = true) (he : mathBitsLegal e = true) :
    ResultWellFormed (finish e s) :=
  fun _ ht => core_finish h he ht

theorem resultWellFormed_finishAccess {r : Except Refusal (State × Events)} {after : State → State} {e : Events}
    (hr : AccessWellFormed r) (hafter : ∀ t, wellFormedCore t = true → wellFormedCore (after t) = true)
    (he : mathBitsLegal e = true) : ResultWellFormed (finishAccess r after e) := by
  intro u hu
  obtain ⟨t, f, hok, hf⟩ := finishAccess_cases hu
  obtain ⟨ht, hlegal⟩ := hr t f hok
  exact core_finish (hafter t ht) (mathBitsLegal_join he hlegal) hf

/-- An operation of one program word whose effect is an access. -/
theorem resultWellFormed_access {r : Except Refusal (State × Events)} {e : Events} (hr : AccessWellFormed r)
    (he : mathBitsLegal e = true) : ResultWellFormed (finishAccess r advance e) :=
  resultWellFormed_finishAccess hr (fun _ ht => core_advance ht) he

/-! The events that the operations raise (60_exceptions.md R148 to R156) set only implemented bits of INTCON1. -/

@[simp] theorem mathBitsLegal_divide : mathBitsLegal (mathEvent divideErrorBits) = true := rfl

@[simp] theorem mathBitsLegal_shift : mathBitsLegal (mathEvent shiftErrorBits) = true := rfl

@[simp] theorem mathBitsLegal_putWEvents (s : State) (i : WReg) : mathBitsLegal (putWEvents s i) = true :=
  mathBitsLegal_stack _

@[simp] theorem mathBitsLegal_baseEvents (s : State) (p : WReg) (ea : DataAddr) :
    mathBitsLegal (baseEvents s p ea) = true :=
  mathBitsLegal_stack _

@[simp] theorem mathBitsLegal_popEvents (s : State) : mathBitsLegal (popEvents s) = true :=
  mathBitsLegal_join (mathBitsLegal_addr _) (mathBitsLegal_stack _)

@[simp] theorem mathBitsLegal_optionalFetch (s : State) (p : Option WReg) (fromY : Bool) :
    mathBitsLegal (optionalFetch s p fromY) = true := by
  cases p with
  | none => exact mathBitsLegal_quiet
  | some i => exact mathBitsLegal_join (mathBitsLegal_baseEvents s i _) (mathBitsLegal_addr _)

@[simp] theorem mathBitsLegal_doubleBaseEvents (s : State) (p : WReg) : mathBitsLegal (doubleBaseEvents s p) = true :=
  mathBitsLegal_join (mathBitsLegal_baseEvents s p _)
    (mathBitsLegal_join (mathBitsLegal_baseEvents s p _) (mathBitsLegal_stack _))

@[simp] theorem mathBitsLegal_bitSourceEvents (s : State) (src : BitSource) :
    mathBitsLegal (bitSourceEvents s src) = true := by
  cases src with
  | file f => exact mathBitsLegal_addr _
  | indirect p => exact mathBitsLegal_join (mathBitsLegal_baseEvents s p _) (mathBitsLegal_addr _)
  | psv p => exact mathBitsLegal_join (mathBitsLegal_baseEvents s p _) (mathBitsLegal_addr _)

@[simp] theorem mathBitsLegal_throughStack (s : State) (a : DataAddr) (base : EaBase) :
    mathBitsLegal (throughStack s a base) = true := by
  cases base with
  | other => exact mathBitsLegal_quiet
  | stack wrapped => exact mathBitsLegal_stack _

/-! The accesses. -/

theorem accessWellFormed_sfrWrite {s : State} (h : wellFormedCore s = true) (r : Sfr) (v sel : Word) :
    AccessWellFormed (sfrWrite s r v sel) := by
  intro t e hw
  refine ⟨core_sfrWrite h hw, ?_⟩
  rcases sfrWrite_events hw with rfl | ⟨-, rfl⟩
  · exact mathBitsLegal_quiet
  · exact mathBitsLegal_stack _

theorem accessWellFormed_writeWord {s : State} (h : wellFormedCore s = true) (a : DataAddr) (v : Word) :
    AccessWellFormed (writeWord s a v) := by
  intro t e hw
  refine ⟨core_writeWord h hw, ?_⟩
  rcases writeWord_cases hw with ⟨-, -, rfl⟩ | ⟨-, r, -, hr⟩ | ⟨-, -, rfl, -⟩
  · exact mathBitsLegal_addr _
  · exact (accessWellFormed_sfrWrite h r _ _ t e hr).2
  · exact mathBitsLegal_quiet

theorem accessWellFormed_writeByte {s : State} (h : wellFormedCore s = true) (a : DataAddr) (v : Byte) :
    AccessWellFormed (writeByte s a v) := by
  intro t e hw
  refine ⟨core_writeByte h hw, ?_⟩
  rcases writeByte_cases hw with ⟨-, -, rfl⟩ | ⟨-, r, -, hr⟩ | ⟨-, -, rfl, -⟩
  · exact mathBitsLegal_addr _
  · exact (accessWellFormed_sfrWrite h r _ _ t e hr).2
  · exact mathBitsLegal_quiet

theorem accessWellFormed_modifyBit {s : State} (h : wellFormedCore s = true) (f : DataAddr) (b : BitVec 4) (v : Bool) :
    AccessWellFormed (modifyBit s f b v) := by
  intro t e hw
  refine ⟨core_modifyBit h hw, ?_⟩
  rcases modifyBit_cases hw with ⟨r, -, hr⟩ | ⟨-, rfl⟩ | ⟨a, u, hr⟩
  · exact (accessWellFormed_sfrWrite h r _ _ t e hr).2
  · exact mathBitsLegal_addr _
  · exact (accessWellFormed_writeByte h a u t e hr).2

theorem accessWellFormed_pushDone {s : State} (h : wellFormedCore s = true) (ea : DataAddr) {e : Events}
    (he : mathBitsLegal e = true) : AccessWellFormed (.ok (pushDone s ea e)) :=
  accessWellFormed_ok (core_putW h 15 _) (mathBitsLegal_join he (mathBitsLegal_stack _))

theorem accessWellFormed_push16 {s : State} (h : wellFormedCore s = true) (v : Word) (inhibit : Bool) :
    AccessWellFormed (push16 s v inhibit) := by
  intro t e hp
  unfold push16 at hp
  split at hp
  · exact accessWellFormed_pushDone h _ mathBitsLegal_quiet t e hp
  · split at hp
    · cases hp
    · rename_i s1 e1 hw
      obtain ⟨h1, he1⟩ := accessWellFormed_writeWord h _ _ s1 e1 hw
      exact accessWellFormed_pushDone h1 _ he1 t e hp

theorem accessWellFormed_writeDouble {s : State} (h : wellFormedCore s = true) (ea : DataAddr) (u v : Word) :
    AccessWellFormed (writeDouble s ea u v) := by
  intro t e hw
  unfold writeDouble at hw
  split at hw
  · cases hw
  · rename_i s1 e1 hw1
    obtain ⟨h1, he1⟩ := accessWellFormed_writeWord h _ _ s1 e1 hw1
    split at hw
    · cases hw
    · rename_i s2 e2 hw2
      cases hw
      obtain ⟨h2, he2⟩ := accessWellFormed_writeWord h1 _ _ _ e2 hw2
      exact ⟨h2, mathBitsLegal_join he1 he2⟩

/-! The actions of an instruction of the surrounding instruction set (41_named_instructions.md R110). -/

theorem accessWellFormed_withEvents {r : Except Refusal (State × Events)} {e : Events} (he : mathBitsLegal e = true)
    (hr : AccessWellFormed r) : AccessWellFormed (withEvents e r) := by
  cases r with
  | error x => intro t f ht; cases ht
  | ok p =>
    obtain ⟨hs, hf⟩ := hr p.1 p.2 rfl
    exact accessWellFormed_ok hs (mathBitsLegal_join he hf)

/-- A write that an address error of its instruction inhibits (60_exceptions.md R151), or not. -/
theorem accessWellFormed_unlessInhibited {s : State} (h : wellFormedCore s = true) (inhibit : Bool)
    {r : Except Refusal (State × Events)} (hr : AccessWellFormed r) :
    AccessWellFormed (if inhibit then .ok (s, quiet) else r) := by
  cases inhibit with
  | true => exact accessWellFormed_ok h mathBitsLegal_quiet
  | false => exact hr

theorem accessWellFormed_runAction {s : State} (h : wellFormedCore s = true) (inhibit : Bool) (a : Action) :
    AccessWellFormed (runAction inhibit s a) := by
  cases a with
  | setW i v => exact accessWellFormed_ok (core_putW h i v) (mathBitsLegal_putWEvents _ i)
  | setFlags v => exact accessWellFormed_ok (core_withFlags h v _) mathBitsLegal_quiet
  | readWord a base => exact accessWellFormed_ok h (mathBitsLegal_throughStack s a base)
  | readByte a base => exact accessWellFormed_ok h (mathBitsLegal_throughStack s a base)
  | writeWord a v base =>
    exact accessWellFormed_withEvents (mathBitsLegal_throughStack s a base)
      (accessWellFormed_unlessInhibited h inhibit (accessWellFormed_writeWord h a v))
  | writeByte a v base =>
    exact accessWellFormed_withEvents (mathBitsLegal_throughStack s a base)
      (accessWellFormed_unlessInhibited h inhibit (accessWellFormed_writeByte h a v))
  | bitIndirect a b v base =>
    exact accessWellFormed_withEvents (mathBitsLegal_throughStack s a base)
      (accessWellFormed_unlessInhibited h inhibit (accessWellFormed_modifyBit h a b v))
  | writeAcc acc v c31 c39 =>
    exact accessWellFormed_ok (core_putAcc h acc v c31) (mathBitsLegal_accumulator s acc c31 c39)
  | divideByZero => exact accessWellFormed_ok h mathBitsLegal_divide
  | badShift => exact accessWellFormed_ok h mathBitsLegal_shift
  | jump a => exact accessWellFormed_ok (core_setPc h a) mathBitsLegal_quiet

theorem accessWellFormed_runActions (inhibit : Bool) (as : List Action) {s : State} (h : wellFormedCore s = true)
    {e : Events} (he : mathBitsLegal e = true) : AccessWellFormed (runActions inhibit as s e) := by
  induction as generalizing s e with
  | nil => exact accessWellFormed_ok h he
  | cons a as ih =>
    intro t f ht
    rw [runActions] at ht
    split at ht
    · cases ht
    · rename_i s1 e1 ha
      obtain ⟨h1, he1⟩ := accessWellFormed_runAction h inhibit a s1 e1 ha
      exact ih h1 (mathBitsLegal_join he he1) t f ht

/-! The operations of 30_encoding.md R91 that are no rows of the opcode table. -/

theorem resultWellFormed_execOther (k : Nat) {s : State} (h : wellFormedCore s = true) :
    ResultWellFormed (execOther k s) :=
  resultWellFormed_finishAccess
    (accessWellFormed_runActions _ _ (core_beginLoop (core_advanceBy h _)) mathBitsLegal_quiet)
    (fun _ ht => ht) (mathBitsLegal_join (mathBitsLegal_addr _) (mathBitsLegal_jump _))

/-- A pop whose word is written somewhere: an address error of the pop inhibits the write (60_exceptions.md R151). -/
theorem resultWellFormed_popThen {s : State} (h : wellFormedCore s = true) {r : Except Refusal (State × Events)}
    (hr : AccessWellFormed r) :
    ResultWellFormed (if (popEvents s).addr then finish (popEvents s) (advance (popState s))
      else finishAccess r advance (popEvents s)) := by
  split
  · exact resultWellFormed_finish (core_advance (core_popState h)) (mathBitsLegal_popEvents s)
  · exact resultWellFormed_access hr (mathBitsLegal_popEvents s)

theorem resultWellFormed_execAbs (o : AbsOp) {s : State} (h : wellFormedCore s = true) :
    ResultWellFormed (execAbs o s) := by
  cases o with
  | sfrRead r => exact resultWellFormed_next (core_advance h)
  | sfrWrite r v => exact resultWellFormed_access (accessWellFormed_sfrWrite h r _ _) mathBitsLegal_quiet
  | sfrWriteByte r hf v => exact resultWellFormed_access (accessWellFormed_sfrWrite h r _ _) mathBitsLegal_quiet
  | sfrBset r b => exact resultWellFormed_access (accessWellFormed_sfrWrite h r _ _) mathBitsLegal_quiet
  | sfrBclr r b => exact resultWellFormed_access (accessWellFormed_sfrWrite h r _ _) mathBitsLegal_quiet
  | field r hi lo x => exact resultWellFormed_access (accessWellFormed_sfrWrite h r _ _) mathBitsLegal_quiet
  | pushSr => exact resultWellFormed_access (accessWellFormed_push16 h _ _) mathBitsLegal_quiet
  | popSr => exact resultWellFormed_popThen h (accessWellFormed_sfrWrite (core_popState h) .sr _ _)
  | other k => exact resultWellFormed_execOther k h

/-! The instructions. -/

theorem resultWellFormed_jump (a : ProgAddr) {s : State} (h : wellFormedCore s = true) :
    ResultWellFormed (jump a s) :=
  resultWellFormed_finish (core_setPc h a) (mathBitsLegal_jump _)

/-- Giving CORCON.IPL3 a value sets no unimplemented bit. -/
theorem setBit_ipl3_clear {c : Word} (h : c &&& 0xE000#16 = 0#16) (v : Bool) :
    setBit c 3 v &&& 0xE000#16 = 0#16 := by
  apply BitVec.eq_of_getLsbD_eq
  intro i hi
  have hc := congrArg (fun x => x.getLsbD i) h
  simp only [BitVec.getLsbD_and, BitVec.getLsbD_zero] at hc ⊢
  rw [setBit_getLsbD c (by decide) v i]
  by_cases h3 : i = 3
  · subst h3; simp
  · rw [if_neg h3]; exact hc

theorem core_setIpl3 {s : State} (h : wellFormedCore s = true) (v : Bool) :
    wellFormedCore { s with corcon := setBit s.corcon 3 v } = true := by
  rw [wellFormedCore_iff] at h ⊢
  obtain ⟨hmem, hptr, hdisi, ⟨hcor, hrest⟩, hsrc⟩ := h
  exact ⟨hmem, hptr, hdisi, ⟨setBit_ipl3_clear hcor v, hrest⟩, hsrc⟩

theorem resultWellFormed_returnFromException {s : State} (h : wellFormedCore s = true) :
    ResultWellFormed (returnFromException s) := by
  have hpop := core_popState (core_popState h)
  refine resultWellFormed_finish ?_ (mathBitsLegal_join (mathBitsLegal_popEvents s) (mathBitsLegal_popEvents _))
  exact core_congr (core_setIpl3 (core_setPc hpop _) _) rfl rfl rfl rfl rfl rfl rfl rfl rfl rfl rfl rfl rfl rfl

theorem resultWellFormed_execRet {s : State} (h : wellFormedCore s = true) : ResultWellFormed (execRet s) :=
  resultWellFormed_finish (core_setPc (core_popState (core_popState h)) _)
    (mathBitsLegal_join (mathBitsLegal_popEvents s) (mathBitsLegal_popEvents _))

theorem core_setPower {s : State} (h : wellFormedCore s = true) (p : Power) :
    wellFormedCore { s with power := p } = true :=
  core_congr h rfl rfl rfl rfl rfl rfl rfl rfl rfl rfl rfl rfl rfl rfl

theorem resultWellFormed_writeAccumulator (acc : Acc) {e : Events} (he : mathBitsLegal e = true) {s : State}
    (h : wellFormedCore s = true) : ResultWellFormed (writeAccumulator acc e s) :=
  resultWellFormed_finish (core_advance (core_putAcc (core_freeFlags h) acc _ _))
    (mathBitsLegal_join he (mathBitsLegal_accumulator s acc _ _))

theorem resultWellFormed_execSftac (acc : Acc) (c : ShiftCount) {s : State} (h : wellFormedCore s = true) :
    ResultWellFormed (execSftac acc c s) := by
  unfold execSftac
  split
  · exact resultWellFormed_finish (core_advance (core_freeFlags h)) mathBitsLegal_shift
  · exact resultWellFormed_writeAccumulator acc mathBitsLegal_quiet h

/-- One iteration of the divide leaves pc at the divide or moves it to the next instruction. -/
theorem resultWellFormed_execRepeatDivide (m n q r : WReg) {s : State} (h : wellFormedCore s = true) :
    ResultWellFormed (execRepeatDivide m n q r s) := by
  have hresult := core_setRepeatActive
    (core_freeFlags (core_putW (core_putW h q (Config.resultWord s.draws 0)) r (Config.resultWord s.draws 1)))
    (!Config.lastIteration s.draws)
  have hmath (zero : Bool) : mathBitsLegal (mathEvent (if zero then divideErrorBits else 0#16)) = true := by
    cases zero <;> rfl
  refine resultWellFormed_finish ?_
    (mathBitsLegal_join (mathBitsLegal_join (mathBitsLegal_putWEvents _ q) (mathBitsLegal_putWEvents _ r)) (hmath _))
  have hpc : pcOf s.dev (if Config.lastIteration s.draws then nextPc s else s.pc) =
      (if Config.lastIteration s.draws then nextPc s else s.pc) := by
    obtain ⟨-, ⟨hpc, -⟩, -⟩ := (wellFormedCore_iff s).1 h
    split
    · exact pcOf_pcOf s.dev _
    · exact hpc
  exact core_congr (core_setPcField hresult hpc) rfl rfl rfl rfl rfl rfl rfl rfl rfl rfl rfl rfl rfl rfl

theorem resultWellFormed_execMovD (form : DoubleForm) {s : State} (h : wellFormedCore s = true) :
    ResultWellFormed (execMovD form s) := by
  cases form with
  | load p d psv =>
    exact resultWellFormed_finish (core_advance (core_freeFlags (core_putW (core_putW h d _) (pairNext d) _)))
      (mathBitsLegal_join (mathBitsLegal_join (mathBitsLegal_doubleBaseEvents s p) (mathBitsLegal_addr _))
        (mathBitsLegal_join (mathBitsLegal_putWEvents _ d) (mathBitsLegal_putWEvents _ (pairNext d))))
  | store r p =>
    rw [execMovD, storeDouble]
    split
    · exact resultWellFormed_finish (core_advance (core_freeFlags h))
        (mathBitsLegal_join (mathBitsLegal_doubleBaseEvents s p) (mathBitsLegal_addr _))
    · exact resultWellFormed_access (accessWellFormed_writeDouble (core_freeFlags h) _ _ _)
        (mathBitsLegal_doubleBaseEvents s p)

theorem resultWellFormed_bitTestSkip (src : BitSource) {s : State} (h : wellFormedCore s = true) :
    ResultWellFormed (bitTestSkip src s) := by
  refine resultWellFormed_finish (core_setPcField (core_freeFlags h) ?_) (mathBitsLegal_bitSourceEvents s src)
  split
  · exact pcOf_pcOf s.dev _
  · exact pcOf_pcOf s.dev _

theorem core_bitOpFlags {s : State} (h : wellFormedCore s = true) (op : BitOp) :
    wellFormedCore (bitOpFlags s op) = true := by
  cases op with
  | set => exact h
  | clear => exact h
  | other => exact core_freeFlags h

theorem resultWellFormed_execBitIndirect (op : BitOp) (p : WReg) (b : BitVec 4) {s : State}
    (h : wellFormedCore s = true) : ResultWellFormed (execBitIndirect op p b s) := by
  rw [execBitIndirect]
  split
  · exact resultWellFormed_finish (core_advance (core_bitOpFlags h op))
      (mathBitsLegal_join (mathBitsLegal_baseEvents s p _) (mathBitsLegal_addr _))
  · exact resultWellFormed_access (accessWellFormed_modifyBit (core_bitOpFlags h op) _ b _)
      (mathBitsLegal_baseEvents s p _)

/-- Every instruction keeps the state well formed. -/
theorem resultWellFormed_exec (i : Instr) {s : State} (h : wellFormedCore s = true) : ResultWellFormed (exec i s) := by
  cases i with
  | nop => exact resultWellFormed_next (core_advance h)
  | retfie => exact resultWellFormed_returnFromException h
  | ret => exact resultWellFormed_execRet h
  | disi k => exact resultWellFormed_next (core_advance (core_loadDisicnt h k))
  | pwrsav m => exact resultWellFormed_next (core_advance (core_setPower h _))
  | reset => exact resultWellFormed_next (core_deviceReset .software s)
  | goto a => exact resultWellFormed_jump a h
  | bra n => exact resultWellFormed_jump _ h
  | pushF f => exact resultWellFormed_access (accessWellFormed_push16 h _ _) (mathBitsLegal_addr _)
  | popF f => exact resultWellFormed_popThen h (accessWellFormed_writeWord (core_popState h) f _)
  | movLit k d => exact resultWellFormed_finish (core_advance (core_putW h d k)) (mathBitsLegal_putWEvents _ d)
  | movToF r f => exact resultWellFormed_access (accessWellFormed_writeWord h f _) mathBitsLegal_quiet
  | movFromF f d =>
    exact resultWellFormed_finish (core_advance (core_putW h d _))
      (mathBitsLegal_join (mathBitsLegal_addr _) (mathBitsLegal_putWEvents _ d))
  | bsetF f b => exact resultWellFormed_access (accessWellFormed_modifyBit h f b _) mathBitsLegal_quiet
  | bclrF f b => exact resultWellFormed_access (accessWellFormed_modifyBit h f b _) mathBitsLegal_quiet
  | sftac acc c => exact resultWellFormed_execSftac acc c h
  | repeatDivide m n q r => exact resultWellFormed_execRepeatDivide m n q r h
  | macClass acc x y =>
    exact resultWellFormed_writeAccumulator acc
      (mathBitsLegal_join (mathBitsLegal_optionalFetch s x _) (mathBitsLegal_optionalFetch s y _)) h
  | movD form => exact resultWellFormed_execMovD form h
  | btsc src b => exact resultWellFormed_bitTestSkip src h
  | btss src b => exact resultWellFormed_bitTestSkip src h
  | bitIndirect op p b => exact resultWellFormed_execBitIndirect op p b h

/-! Exceptions (60_exceptions.md R139 to R142). -/

/-- The value latched into INTTREG at an entry has every unimplemented bit 0. -/
theorem latchedInttreg_clear (l : BitVec 4) (v : BitVec 7) : (0#4 ++ l ++ 0#1 ++ v) &&& 0xF080#16 = 0#16 := by
  apply BitVec.eq_of_getLsbD_eq
  intro i hi
  simp only [BitVec.getLsbD_and, BitVec.getLsbD_append, BitVec.getLsbD_zero]
  interval_cases i <;> simp

theorem core_handlerState (s : State) {s2 : State} (h : wellFormedCore s2 = true) (x : Exception) {a : ProgAddr}
    (ha : pcOf s2.dev a = a) : wellFormedCore (handlerState s s2 x a) = true := by
  have hcore := core_setIpl3 (core_setPcField h ha) (exceptionIpl3 s2 x)
  rw [wellFormedCore_iff] at hcore ⊢
  obtain ⟨hmem, hptr, hdisi, ⟨hcor, hint1, hint2, -⟩, hsrc⟩ := hcore
  exact ⟨hmem, hptr, hdisi, ⟨hcor, hint1, hint2, latchedInttreg_clear _ _⟩, hsrc⟩

/-- Taking an exception keeps the state well formed, wherever its frame is pushed. -/
theorem resultWellFormed_enterException (x : Exception) {s : State} (h : wellFormedCore s = true) :
    ResultWellFormed (enterException x s) := by
  intro u hu
  obtain ⟨s1, e1, s2, e2, a, hpush1, hpush2, hvector, hfinish⟩ := enterException_cases hu
  obtain ⟨h1, he1⟩ := accessWellFormed_push16 h _ _ s1 e1 hpush1
  obtain ⟨h2, he2⟩ := accessWellFormed_push16 h1 _ _ s2 e2 hpush2
  exact core_finish (core_handlerState s h2 x (vectorTarget_pcOf hvector)) (mathBitsLegal_join he1 he2) hfinish

theorem core_setSkid {s : State} (h : wellFormedCore s = true) {k : Nat}
    (hk : k ≤ max s.dev.skidMaxIrq s.dev.skidMaxSoft) : wellFormedCore { s with skid := k } = true := by
  rw [wellFormedCore_iff] at h ⊢
  obtain ⟨hmem, hptr, hdisi, hres, hsrc, -⟩ := h
  exact ⟨hmem, hptr, hdisi, hres, hsrc, hk⟩

/-- A deferral counts the skid up to its bound at most; a taken exception sets it to 0 (R139). -/
theorem deferOrTake_skid (x : Exception) (limit : Nat) (s : State) :
    ∃ k ≤ limit, (deferOrTake x limit s).2 = { s with skid := k } := by
  unfold deferOrTake
  split
  · rename_i hc
    simp only [Bool.and_eq_true, decide_eq_true_eq] at hc
    exact ⟨s.skid + 1, hc.1, rfl⟩
  · exact ⟨0, Nat.zero_le _, rfl⟩

/-- The boundary check changes nothing but the skid, which stays within the greater of the two bounds (R139). -/
theorem boundaryCheck_skid (s : State) :
    ∃ k ≤ max s.dev.skidMaxIrq s.dev.skidMaxSoft, (boundaryCheck s).2 = { s with skid := k } := by
  unfold boundaryCheck
  split
  · rename_i t ht
    split
    · exact ⟨0, Nat.zero_le _, rfl⟩
    · obtain ⟨k, hk, heq⟩ := deferOrTake_skid (.trap t) s.dev.skidMaxSoft s
      exact ⟨k, le_max_of_le_right hk, heq⟩
  · split
    · rename_i n hn
      obtain ⟨k, hk, heq⟩ := deferOrTake_skid (.irq n) s.dev.skidMaxIrq s
      exact ⟨k, le_max_of_le_left hk, heq⟩
    · exact ⟨0, Nat.zero_le _, rfl⟩

theorem core_boundaryCheck {s : State} (h : wellFormedCore s = true) : wellFormedCore (boundaryCheck s).2 = true := by
  obtain ⟨k, hk, heq⟩ := boundaryCheck_skid s
  rw [heq]
  exact core_setSkid h hk

/-! The turns of 60_exceptions.md R130. Between turns no operation is under way that has loaded DISICNT (log 14). -/

/-- A result that is a next state is one that is well formed between steps. -/
def TurnWellFormed (r : Res) : Prop := ∀ t, r = .next t → wellFormedState t = true

theorem turnWellFormed_next {s : State} (h : wellFormedState s = true) : TurnWellFormed (.next s) := by
  intro t ht
  cases ht
  exact h

theorem turnWellFormed_fault (f : Fault) : TurnWellFormed (.fault f) := by
  intro t ht
  cases ht

theorem turnWellFormed_refused (x : Refusal) : TurnWellFormed (.refused x) := by
  intro t ht
  cases ht

theorem wellFormedState_iff (s : State) :
    wellFormedState s = true ↔ wellFormedCore s = true ∧ s.disiLoaded = false := by
  simp [wellFormedState]

/-- The ticks after an operation end what it may have left under way. -/
theorem turnWellFormed_afterTicks (n : Nat) {r : Res} (hr : ResultWellFormed r) : TurnWellFormed (afterTicks n r) := by
  cases r with
  | next s =>
    exact turnWellFormed_next ((wellFormedState_iff _).2 ⟨core_elapse (hr s rfl) n, elapse_not_loaded n s⟩)
  | fault f => exact turnWellFormed_fault f
  | refused x => exact turnWellFormed_refused x

theorem turnWellFormed_runAt {s : State} (h : wellFormedCore s = true) : TurnWellFormed (runAt s) := by
  unfold runAt
  split
  · split
    · exact turnWellFormed_afterTicks _ (resultWellFormed_exec _ h)
    · exact turnWellFormed_afterTicks _ (resultWellFormed_execAbs _ h)
    · exact turnWellFormed_refused _
    · exact turnWellFormed_refused _
    · exact turnWellFormed_fault _
  · exact turnWellFormed_afterTicks _ (fun _ ht => core_raiseHard (core_markFetch h true) ht)

theorem turnWellFormed_runningTurn {s : State} (h : wellFormedCore s = true) : TurnWellFormed (runningTurn s) := by
  have hcheck := core_boundaryCheck h
  unfold runningTurn
  split
  · rename_i x s1 heq
    rw [heq] at hcheck
    exact turnWellFormed_afterTicks _ (resultWellFormed_enterException x hcheck)
  · rename_i s1 heq
    rw [heq] at hcheck
    exact turnWellFormed_runAt hcheck

theorem wellFormedState_asleepTurn {s : State} (h : wellFormedState s = true) :
    wellFormedState (asleepTurn s) = true := by
  unfold asleepTurn
  split
  · obtain ⟨hcore, -⟩ := (wellFormedState_iff s).1 h
    exact (wellFormedState_iff _).2 ⟨core_elapse (core_setPower hcore .run) _, elapse_not_loaded _ _⟩
  · exact h

theorem turnWellFormed_cpuTurn {s : State} (h : wellFormedState s = true) : TurnWellFormed (cpuTurn s) := by
  obtain ⟨hcore, -⟩ := (wellFormedState_iff s).1 h
  unfold cpuTurn
  split
  · exact turnWellFormed_runningTurn hcore
  · exact turnWellFormed_next (wellFormedState_asleepTurn h)

theorem wellFormedState_raiseIrq {s : State} (h : wellFormedState s = true) (n : Nat) :
    wellFormedState (raiseIrq s n) = true := by
  obtain ⟨hcore, hload⟩ := (wellFormedState_iff s).1 h
  exact (wellFormedState_iff _).2 ⟨core_raiseIrq hcore n, by rw [raiseIrq_disiLoaded, hload]⟩

theorem wellFormedState_peripheralEvent {s : State} (h : wellFormedState s = true) (n : Nat) :
    wellFormedState (peripheralEvent n s) = true := by
  unfold peripheralEvent
  split
  · exact h
  · exact wellFormedState_raiseIrq h n

theorem wellFormedState_pinEvent {s : State} (h : wellFormedState s = true) (x : Fin 3) (level : Bool) :
    wellFormedState (pinEvent x level s) = true := by
  have hpin : wellFormedState { s with pins := s.pins.set x level } = true := h
  dsimp only [pinEvent]
  split
  · exact wellFormedState_raiseIrq hpin _
  · exact hpin

/-- A hard trap event is no load of DISICNT. -/
theorem turnWellFormed_raiseHard (t : Trap) {s : State} (h : wellFormedState s = true) :
    TurnWellFormed (raiseHard t s) := by
  intro u hu
  obtain ⟨hcore, hload⟩ := (wellFormedState_iff s).1 h
  refine (wellFormedState_iff u).2 ⟨core_raiseHard hcore hu, ?_⟩
  rcases raiseHard_cases hu with ⟨-, rfl⟩ | ⟨-, -, rfl⟩
  · rfl
  · exact hload

theorem turnWellFormed_oscillatorEvent {s : State} (h : wellFormedState s = true) :
    TurnWellFormed (oscillatorEvent s) := by
  unfold oscillatorEvent
  split
  · exact turnWellFormed_raiseHard .oscFail (s := { s with cfSet := true }) h
  · exact turnWellFormed_refused _

theorem turnWellFormed_envStep (e : EnvEvent) {s : State} (h : wellFormedState s = true) :
    TurnWellFormed (envStep e s) := by
  cases e with
  | peripheral n => exact turnWellFormed_next (wellFormedState_peripheralEvent h n)
  | pin x level => exact turnWellFormed_next (wellFormedState_pinEvent h x level)
  | oscillatorFailure => exact turnWellFormed_oscillatorEvent h
  | externalReset => exact turnWellFormed_next ((wellFormedState_iff _).2 ⟨core_deviceReset .external s, rfl⟩)

/-- The index of the free values is no part of the invariant. -/
theorem turnWellFormed_nextDraw {r : Res} (hr : TurnWellFormed r) : TurnWellFormed (nextDraw r) := by
  cases r with
  | next s => exact turnWellFormed_next (s := { s with draws := s.draws + 1 }) (hr s rfl)
  | fault f => exact turnWellFormed_fault f
  | refused x => exact turnWellFormed_refused x

/-- Settles O60: whichever turn the agenda gives, the turn keeps the state well formed. -/
theorem stepKeepsWellFormed : Obligations.StepKeepsWellFormed := by
  intro s t h ht
  have hagenda (rest : List Turn) : wellFormedState { s with agenda := rest } = true := h
  rw [step, systemStep] at ht
  split at ht
  · exact turnWellFormed_nextDraw (turnWellFormed_envStep _ (hagenda _)) t ht
  · exact turnWellFormed_nextDraw (turnWellFormed_cpuTurn (hagenda _)) t ht
  · exact turnWellFormed_nextDraw (turnWellFormed_cpuTurn h) t ht

/-! The bits of the sources (10_state.md R33). -/

/-- Every source of R131 has a number whose bits lie in the registers of the state. -/
theorem implemented_lt {d : Device} {n : Nat} (h : implemented d n = true) : n < 118 := by
  have htable : ∀ m ∈ irqTable, m < 118 := by decide
  simp only [implemented, Bool.and_eq_true, List.contains_iff_mem] at h
  exact htable n h.1.1

theorem irqFlag_of_implemented {s : State} {n : Nat} (h : implemented s.dev n = true) (hn : n / 16 < 8) :
    irqFlag s n = s.ifs[n / 16].getLsbD (n % 16) := by
  simp [irqFlag, h, hn]

theorem irqEnable_of_implemented {s : State} {n : Nat} (h : implemented s.dev n = true) (hn : n / 16 < 8) :
    irqEnable s n = s.iec[n / 16].getLsbD (n % 16) := by
  simp [irqEnable, h, hn]

theorem irqPriority_of_implemented {s : State} {n : Nat} (h : implemented s.dev n = true) (hn : n / 4 < 30) :
    irqPriority s n = s.ipc[n / 4].toNat / 2 ^ (4 * (n % 4)) % 8 := by
  simp [irqPriority, h, hn, BitVec.extractLsb'_toNat, Nat.shiftRight_eq_div_pow]

/-- Settles O38: the bits of a source are those of R33, and a number without a source reads 0 everywhere. -/
theorem sourceBitPositions : Obligations.SourceBitPositions := by
  intro s n
  refine ⟨fun hn himp => ⟨?_, ?_, ?_, rfl⟩, implemented_lt, fun habsent => ?_⟩
  · exact irqFlag_of_implemented himp (by omega)
  · exact irqEnable_of_implemented himp (by omega)
  · exact irqPriority_of_implemented himp (by omega)
  · have hflag : irqFlag s n = false := by simp [irqFlag, habsent]
    have henable : irqEnable s n = false := by simp [irqEnable, habsent]
    have hpriority : irqPriority s n = 0 := by simp [irqPriority, habsent]
    exact ⟨hflag, henable, hpriority, by rw [requests, hflag, Bool.false_and]⟩

/-! The reset state (10_state.md R58). -/

/-- Settles O49: each register of the reset state, evaluated. -/
theorem resetValues : Obligations.ResetValues := by
  refine ⟨rfl, rfl, rfl, rfl, rfl, rfl, rfl, rfl, rfl, ?_, ?_, rfl, rfl, rfl, rfl⟩
  · intro x
    exact ⟨by simp [State.reset], by simp [State.reset]⟩
  · decide

/-- W15 after a device reset. -/
theorem sp_deviceReset (c : ResetCause) (s : State) : sp (deviceReset c s) = resetSp s.dev := by
  simp [sp]

/-- Settles O59: the reset state agrees with a device reset (R200) on every field that the invariant reads. -/
theorem resetIsWellFormed : Obligations.ResetIsWellFormed := by
  refine (wellFormedState_iff _).2 ⟨?_, rfl⟩
  have hsp : sp State.reset = sp (deviceReset .software State.reset) := by
    calc sp State.reset = resetSp State.reset.dev := rfl
      _ = sp (deviceReset .software State.reset) := (sp_deviceReset .software State.reset).symm
  exact core_congr (core_deviceReset .software State.reset) rfl rfl hsp rfl rfl rfl rfl rfl rfl rfl rfl rfl rfl rfl

end Sys2Proof.Machine
end

section
/-! Program memory and the device parameters (20_memory.md R73, R84, D12). No operation writes them (log 34): each
access and each result that is no fault and no refusal leaves a state that holds them as before. One lemma per
operation composes to the step. -/

namespace Sys2Proof.Machine

/-- What no step changes: program memory (R84) and the device parameters (00_scope.md R6). -/
def fixedPart (s : State) : List (Nat × ProgCell) × Device := (s.prog, s.dev)

theorem fixedPart_eq_iff (s t : State) : fixedPart t = fixedPart s ↔ t.prog = s.prog ∧ t.dev = s.dev := Prod.mk_inj

theorem fixedPart_ramWrite (s : State) (a : DataAddr) (b : Byte) : fixedPart (ramWrite s a b) = fixedPart s :=
  (fixedPart_eq_iff _ _).2 ⟨ramWrite_prog s a b, ramWrite_dev s a b⟩

theorem fixedPart_putAcc (s : State) (acc : Acc) (v : BitVec 40) (c : Bool) :
    fixedPart (putAcc s acc v c) = fixedPart s :=
  (fixedPart_eq_iff _ _).2 ⟨putAcc_prog s acc v c, putAcc_dev s acc v c⟩

theorem fixedPart_beginLoop (s : State) : fixedPart (beginLoop s) = fixedPart s :=
  (fixedPart_eq_iff _ _).2 ⟨beginLoop_prog s, beginLoop_dev s⟩

theorem fixedPart_raiseIrq (s : State) (n : Nat) : fixedPart (raiseIrq s n) = fixedPart s :=
  (fixedPart_eq_iff _ _).2 ⟨raiseIrq_prog s n, raiseIrq_dev s n⟩

theorem fixedPart_elapse (n : Nat) (s : State) : fixedPart (elapse n s) = fixedPart s :=
  (fixedPart_eq_iff _ _).2 ⟨elapse_prog n s, elapse_dev n s⟩

theorem fixedPart_bitOpFlags (s : State) (op : BitOp) : fixedPart (bitOpFlags s op) = fixedPart s := by
  cases op <;> rfl

theorem fixedPart_boundaryCheck (s : State) : fixedPart (boundaryCheck s).2 = fixedPart s := by
  obtain ⟨k, -, heq⟩ := boundaryCheck_skid s
  rw [heq]
  rfl

/-- An access from `s` that is not refused leaves the fixed part of `s`. -/
def AccessKeepsFixed (s : State) (r : Except Refusal (State × Events)) : Prop :=
  ∀ t e, r = .ok (t, e) → fixedPart t = fixedPart s

/-- A result from `s` that is a next state has the fixed part of `s`. -/
def ResultKeepsFixed (s : State) (r : Res) : Prop := ∀ t, r = .next t → fixedPart t = fixedPart s

theorem accessKeepsFixed_ok {s t : State} {e : Events} (h : fixedPart t = fixedPart s) :
    AccessKeepsFixed s (.ok (t, e)) := by
  intro u f hu
  cases hu
  exact h

/-- Only the fixed part of the state that an access starts from matters. -/
theorem accessKeepsFixed_of_eq {s s1 : State} {r : Except Refusal (State × Events)} (h : fixedPart s1 = fixedPart s)
    (hr : AccessKeepsFixed s1 r) : AccessKeepsFixed s r :=
  fun t e ht => (hr t e ht).trans h

theorem resultKeepsFixed_next {s t : State} (h : fixedPart t = fixedPart s) : ResultKeepsFixed s (.next t) := by
  intro u hu
  cases hu
  exact h

theorem resultKeepsFixed_fault (s : State) (f : Fault) : ResultKeepsFixed s (.fault f) := by
  intro t ht
  cases ht

theorem resultKeepsFixed_refused (s : State) (x : Refusal) : ResultKeepsFixed s (.refused x) := by
  intro t ht
  cases ht

theorem resultKeepsFixed_of_eq {s s1 : State} {r : Res} (h : fixedPart s1 = fixedPart s)
    (hr : ResultKeepsFixed s1 r) : ResultKeepsFixed s r :=
  fun t ht => (hr t ht).trans h

/-! Trap events (60_exceptions.md R146): the device reset of a conflict is no exception, for it resets neither. -/

theorem resultKeepsFixed_raiseHard (t : Trap) (s : State) : ResultKeepsFixed s (raiseHard t s) := by
  intro u hu
  rcases raiseHard_cases hu with ⟨-, rfl⟩ | ⟨-, -, rfl⟩
  · rfl
  · rfl

theorem resultKeepsFixed_finish {s t : State} (e : Events) (h : fixedPart t = fixedPart s) :
    ResultKeepsFixed s (finish e t) := by
  intro u hu
  rcases finish_cases hu with ⟨-, rfl⟩ | ⟨-, hr⟩
  · exact h
  · exact (resultKeepsFixed_raiseHard _ _ u hr).trans h

theorem resultKeepsFixed_finishAccess {s : State} {r : Except Refusal (State × Events)} {after : State → State}
    (e : Events) (hr : AccessKeepsFixed s r) (hafter : ∀ t, fixedPart (after t) = fixedPart t) :
    ResultKeepsFixed s (finishAccess r after e) := by
  intro u hu
  obtain ⟨t, f, hok, hf⟩ := finishAccess_cases hu
  exact resultKeepsFixed_finish _ ((hafter t).trans (hr t f hok)) u hf

/-- An operation of one program word whose effect is an access. -/
theorem resultKeepsFixed_access {s : State} {r : Except Refusal (State × Events)} (e : Events)
    (hr : AccessKeepsFixed s r) : ResultKeepsFixed s (finishAccess r advance e) :=
  resultKeepsFixed_finishAccess e hr (fun _ => rfl)

/-! The accesses. -/

theorem accessKeepsFixed_sfrWrite (s : State) (r : Sfr) (v sel : Word) : AccessKeepsFixed s (sfrWrite s r v sel) := by
  intro t e hw
  obtain ⟨-, -, -, -, -, -, -, -, -, -, hprog, -, -, -, -, hdev⟩ := sfrWrite_frame hw
  exact (fixedPart_eq_iff s t).2 ⟨hprog, hdev⟩

theorem accessKeepsFixed_writeWord (s : State) (a : DataAddr) (v : Word) : AccessKeepsFixed s (writeWord s a v) := by
  intro t e hw
  rcases writeWord_cases hw with ⟨-, rfl, -⟩ | ⟨-, r, -, hr⟩ | ⟨-, -, -, rfl⟩
  · rfl
  · exact accessKeepsFixed_sfrWrite s r _ _ t e hr
  · exact (fixedPart_ramWrite _ _ _).trans (fixedPart_ramWrite s _ _)

theorem accessKeepsFixed_writeByte (s : State) (a : DataAddr) (v : Byte) : AccessKeepsFixed s (writeByte s a v) := by
  intro t e hw
  rcases writeByte_cases hw with ⟨-, rfl, -⟩ | ⟨-, r, -, hr⟩ | ⟨-, -, -, rfl⟩
  · rfl
  · exact accessKeepsFixed_sfrWrite s r _ _ t e hr
  · exact fixedPart_ramWrite s _ _

theorem accessKeepsFixed_modifyBit (s : State) (f : DataAddr) (b : BitVec 4) (v : Bool) :
    AccessKeepsFixed s (modifyBit s f b v) := by
  intro t e hw
  rcases modifyBit_cases hw with ⟨r, -, hr⟩ | ⟨rfl, -⟩ | ⟨a, u, hr⟩
  · exact accessKeepsFixed_sfrWrite s r _ _ t e hr
  · rfl
  · exact accessKeepsFixed_writeByte s a u t e hr

theorem accessKeepsFixed_push16 (s : State) (v : Word) (inhibit : Bool) :
    AccessKeepsFixed s (push16 s v inhibit) := by
  intro t e hp
  rcases push16_cases hp with ⟨-, rfl⟩ | ⟨-, s1, e1, hw, rfl⟩
  · rfl
  · exact accessKeepsFixed_writeWord s _ _ s1 e1 hw

theorem accessKeepsFixed_writeDouble (s : State) (ea : DataAddr) (u v : Word) :
    AccessKeepsFixed s (writeDouble s ea u v) := by
  intro t e hw
  unfold writeDouble at hw
  split at hw
  · cases hw
  · rename_i s1 e1 hw1
    split at hw
    · cases hw
    · rename_i s2 e2 hw2
      cases hw
      exact (accessKeepsFixed_writeWord s1 _ _ _ e2 hw2).trans (accessKeepsFixed_writeWord s _ _ s1 e1 hw1)

/-! The actions of an instruction of the surrounding instruction set (41_named_instructions.md R110). -/

/-- A data-space write of an action: joined to the events of its address, and inhibited by an address error of its
instruction (60_exceptions.md R151). -/
theorem accessKeepsFixed_actionWrite {s : State} {r : Except Refusal (State × Events)} (inhibit : Bool) (e : Events)
    (hr : AccessKeepsFixed s r) : AccessKeepsFixed s (withEvents e (if inhibit then .ok (s, quiet) else r)) := by
  cases inhibit with
  | true => exact accessKeepsFixed_ok rfl
  | false =>
    cases r with
    | error x => intro t f ht; cases ht
    | ok p => exact accessKeepsFixed_ok (hr p.1 p.2 rfl)

theorem accessKeepsFixed_runAction (inhibit : Bool) (s : State) (a : Action) :
    AccessKeepsFixed s (runAction inhibit s a) := by
  cases a with
  | writeWord a v base => exact accessKeepsFixed_actionWrite inhibit _ (accessKeepsFixed_writeWord s a v)
  | writeByte a v base => exact accessKeepsFixed_actionWrite inhibit _ (accessKeepsFixed_writeByte s a v)
  | bitIndirect a b v base => exact accessKeepsFixed_actionWrite inhibit _ (accessKeepsFixed_modifyBit s a b v)
  | writeAcc acc v c31 c39 => exact accessKeepsFixed_ok (fixedPart_putAcc s acc v c31)
  | setW | setFlags | readWord | readByte | divideByZero | badShift | jump => exact accessKeepsFixed_ok rfl

theorem accessKeepsFixed_runActions (inhibit : Bool) (as : List Action) (s : State) (e : Events) :
    AccessKeepsFixed s (runActions inhibit as s e) := by
  induction as generalizing s e with
  | nil => exact accessKeepsFixed_ok rfl
  | cons a as ih =>
    rw [runActions]
    split
    · intro t f ht
      cases ht
    · rename_i s1 e1 ha
      exact accessKeepsFixed_of_eq (accessKeepsFixed_runAction inhibit s a s1 e1 ha) (ih s1 _)

/-! The operations of 30_encoding.md R91 that are no rows of the opcode table. -/

theorem resultKeepsFixed_execOther (k : Nat) (s : State) : ResultKeepsFixed s (execOther k s) :=
  resultKeepsFixed_finishAccess _
    (accessKeepsFixed_of_eq (fixedPart_beginLoop (advanceBy (absLength (.other k)) s))
      (accessKeepsFixed_runActions _ _ _ _))
    (fun _ => rfl)

/-- A pop whose word is written somewhere, or not (60_exceptions.md R151). -/
theorem resultKeepsFixed_popThen {s : State} {r : Except Refusal (State × Events)}
    (hr : AccessKeepsFixed (popState s) r) :
    ResultKeepsFixed s (if (popEvents s).addr then finish (popEvents s) (advance (popState s))
      else finishAccess r advance (popEvents s)) := by
  split
  · exact resultKeepsFixed_finish _ rfl
  · exact resultKeepsFixed_access _ hr

theorem resultKeepsFixed_execAbs (o : AbsOp) (s : State) : ResultKeepsFixed s (execAbs o s) := by
  cases o with
  | sfrRead r => exact resultKeepsFixed_next rfl
  | sfrWrite | sfrWriteByte | sfrBset | sfrBclr | field =>
    exact resultKeepsFixed_access _ (accessKeepsFixed_sfrWrite s _ _ _)
  | pushSr => exact resultKeepsFixed_access _ (accessKeepsFixed_push16 s _ _)
  | popSr => exact resultKeepsFixed_popThen (accessKeepsFixed_sfrWrite _ .sr _ _)
  | other k => exact resultKeepsFixed_execOther k s

/-! The instructions. -/

theorem resultKeepsFixed_execMovLit (k : Word) (d : WReg) (s : State) : ResultKeepsFixed s (execMovLit k d s) := by
  rw [execMovLit]
  exact resultKeepsFixed_finish _ rfl

theorem resultKeepsFixed_writeAccumulator (acc : Acc) (e : Events) (s : State) :
    ResultKeepsFixed s (writeAccumulator acc e s) :=
  resultKeepsFixed_finish _ (fixedPart_putAcc (freeFlags s) acc _ _)

theorem resultKeepsFixed_execSftac (acc : Acc) (c : ShiftCount) (s : State) :
    ResultKeepsFixed s (execSftac acc c s) := by
  unfold execSftac
  split
  · exact resultKeepsFixed_finish _ rfl
  · exact resultKeepsFixed_writeAccumulator acc quiet s

theorem resultKeepsFixed_execRepeatDivide (m n q r : WReg) (s : State) :
    ResultKeepsFixed s (execRepeatDivide m n q r s) := by
  rw [execRepeatDivide]
  exact resultKeepsFixed_finish _ rfl

theorem resultKeepsFixed_execMovD (form : DoubleForm) (s : State) : ResultKeepsFixed s (execMovD form s) := by
  cases form with
  | load p d psv => exact resultKeepsFixed_finish _ rfl
  | store r p =>
    rw [execMovD, storeDouble]
    split
    · exact resultKeepsFixed_finish _ rfl
    · exact resultKeepsFixed_access _ (accessKeepsFixed_writeDouble (freeFlags s) _ _ _)

theorem resultKeepsFixed_execBitIndirect (op : BitOp) (p : WReg) (b : BitVec 4) (s : State) :
    ResultKeepsFixed s (execBitIndirect op p b s) := by
  rw [execBitIndirect]
  split
  · exact resultKeepsFixed_finish _ (fixedPart_bitOpFlags s op)
  · exact resultKeepsFixed_access _
      (accessKeepsFixed_of_eq (fixedPart_bitOpFlags s op) (accessKeepsFixed_modifyBit _ _ b _))

/-- No instruction changes program memory or the device. RESET resets neither (70_reset_and_hazards.md R200). -/
theorem resultKeepsFixed_exec (i : Instr) (s : State) : ResultKeepsFixed s (exec i s) := by
  cases i with
  | nop | disi | pwrsav | reset => exact resultKeepsFixed_next rfl
  | retfie | ret | goto | bra | movFromF | btsc | btss => exact resultKeepsFixed_finish _ rfl
  | movLit k d => exact resultKeepsFixed_execMovLit k d s
  | pushF f => exact resultKeepsFixed_access _ (accessKeepsFixed_push16 s _ _)
  | popF f => exact resultKeepsFixed_popThen (accessKeepsFixed_writeWord _ f _)
  | movToF r f => exact resultKeepsFixed_access _ (accessKeepsFixed_writeWord s f _)
  | bsetF f b => exact resultKeepsFixed_access _ (accessKeepsFixed_modifyBit s f b true)
  | bclrF f b => exact resultKeepsFixed_access _ (accessKeepsFixed_modifyBit s f b false)
  | sftac acc c => exact resultKeepsFixed_execSftac acc c s
  | macClass acc x y => exact resultKeepsFixed_writeAccumulator acc _ s
  | repeatDivide m n q r => exact resultKeepsFixed_execRepeatDivide m n q r s
  | movD form => exact resultKeepsFixed_execMovD form s
  | bitIndirect op p b => exact resultKeepsFixed_execBitIndirect op p b s

/-! Exceptions, and the turns of 60_exceptions.md R130. -/

theorem resultKeepsFixed_enterException (x : Exception) (s : State) : ResultKeepsFixed s (enterException x s) := by
  intro u hu
  obtain ⟨s1, e1, s2, e2, a, hpush1, hpush2, -, hfinish⟩ := enterException_cases hu
  have h1 := accessKeepsFixed_push16 s _ _ s1 e1 hpush1
  have h2 := accessKeepsFixed_push16 s1 _ _ s2 e2 hpush2
  exact resultKeepsFixed_finish (t := handlerState s s2 x a) _ (h2.trans h1) u hfinish

theorem resultKeepsFixed_afterTicks {s : State} {r : Res} (n : Nat) (hr : ResultKeepsFixed s r) :
    ResultKeepsFixed s (afterTicks n r) := by
  cases r with
  | next t => exact resultKeepsFixed_next ((fixedPart_elapse n t).trans (hr t rfl))
  | fault f => exact resultKeepsFixed_fault s f
  | refused x => exact resultKeepsFixed_refused s x

theorem resultKeepsFixed_runAt (s : State) : ResultKeepsFixed s (runAt s) := by
  unfold runAt
  split
  · split
    · exact resultKeepsFixed_afterTicks _ (resultKeepsFixed_exec _ s)
    · exact resultKeepsFixed_afterTicks _ (resultKeepsFixed_execAbs _ s)
    · exact resultKeepsFixed_refused s _
    · exact resultKeepsFixed_refused s _
    · exact resultKeepsFixed_fault s _
  · exact resultKeepsFixed_afterTicks _ (resultKeepsFixed_raiseHard _ (markFetch true s))

theorem resultKeepsFixed_runningTurn (s : State) : ResultKeepsFixed s (runningTurn s) := by
  have hcheck := fixedPart_boundaryCheck s
  unfold runningTurn
  split
  · rename_i x s1 heq
    rw [heq] at hcheck
    exact resultKeepsFixed_of_eq hcheck (resultKeepsFixed_afterTicks _ (resultKeepsFixed_enterException x s1))
  · rename_i s1 heq
    rw [heq] at hcheck
    exact resultKeepsFixed_of_eq hcheck (resultKeepsFixed_runAt s1)

theorem fixedPart_asleepTurn (s : State) : fixedPart (asleepTurn s) = fixedPart s := by
  unfold asleepTurn
  split
  · exact fixedPart_elapse _ _
  · rfl

theorem resultKeepsFixed_cpuTurn (s : State) : ResultKeepsFixed s (cpuTurn s) := by
  unfold cpuTurn
  split
  · exact resultKeepsFixed_runningTurn s
  · exact resultKeepsFixed_next (fixedPart_asleepTurn s)

theorem fixedPart_peripheralEvent (n : Nat) (s : State) : fixedPart (peripheralEvent n s) = fixedPart s := by
  unfold peripheralEvent
  split
  · rfl
  · exact fixedPart_raiseIrq s n

theorem fixedPart_pinEvent (x : Fin 3) (level : Bool) (s : State) : fixedPart (pinEvent x level s) = fixedPart s := by
  dsimp only [pinEvent]
  split
  · exact fixedPart_raiseIrq _ _
  · rfl

theorem resultKeepsFixed_envStep (e : EnvEvent) (s : State) : ResultKeepsFixed s (envStep e s) := by
  cases e with
  | peripheral n => exact resultKeepsFixed_next (fixedPart_peripheralEvent n s)
  | pin x level => exact resultKeepsFixed_next (fixedPart_pinEvent x level s)
  | oscillatorFailure =>
    rw [envStep, oscillatorEvent]
    split
    · exact resultKeepsFixed_raiseHard .oscFail { s with cfSet := true }
    · exact resultKeepsFixed_refused s _
  | externalReset => exact resultKeepsFixed_next rfl

theorem resultKeepsFixed_nextDraw {s : State} {r : Res} (hr : ResultKeepsFixed s r) :
    ResultKeepsFixed s (nextDraw r) := by
  cases r with
  | next t => exact resultKeepsFixed_next (hr t rfl)
  | fault f => exact resultKeepsFixed_fault s f
  | refused x => exact resultKeepsFixed_refused s x

/-- Whichever turn the agenda gives, the turn keeps the fixed part; taking the turn off the agenda does too. -/
theorem resultKeepsFixed_step (s : State) : ResultKeepsFixed s (step s) := by
  rw [step, systemStep]
  split
  · exact resultKeepsFixed_nextDraw (resultKeepsFixed_envStep _ { s with agenda := _ })
  · exact resultKeepsFixed_nextDraw (resultKeepsFixed_cpuTurn { s with agenda := _ })
  · exact resultKeepsFixed_nextDraw (resultKeepsFixed_cpuTurn s)

/-- Settles O58: every turn keeps the fixed part of the state. -/
theorem programMemoryIsConstant : Obligations.ProgramMemoryIsConstant :=
  fun s t h => (fixedPart_eq_iff s t).1 (resultKeepsFixed_step s t h)

/-! The vector tables (20_memory.md R73). -/

/-- The address of a vector in a table at an even base, where pc can hold it. -/
theorem vectorAddress_toNat {s : State} {v base : Nat}
    (hbase : (if altivt s then s.dev.aivtBase else s.dev.ivtBase) = base) (heven : base % 2 = 0)
    (hwidth : base + 2 * v < 2 ^ 23) (hpc : base + 2 * v < 2 ^ s.dev.pcBits) :
    (vectorAddress s v).toNat = base + 2 * v := by
  have haddr : (BitVec.ofNat 23 (base + 2 * v)).toNat = base + 2 * v := by
    rw [BitVec.toNat_ofNat, Nat.mod_eq_of_lt hwidth]
  rw [vectorAddress, hbase, pcOf_toNat _ (by omega), haddr, Nat.mod_eq_of_lt hpc]

/-- Settles O43: the last vector of the table at 0x000104 lies below 2^9. -/
theorem vectorAddressFormula : Obligations.VectorAddressFormula := by
  intro s v hv hbits hivt haivt
  have hpow : 2 ^ 9 ≤ 2 ^ s.dev.pcBits := Nat.pow_le_pow_right (by decide) hbits
  have hbase : (if altivt s then s.dev.aivtBase else s.dev.ivtBase) =
      if s.intcon2.getLsbD 15 = true then 0x000104 else 0x000004 := by
    rw [hivt, haivt, altivt]
  apply vectorAddress_toNat hbase
  · split <;> rfl
  · split <;> omega
  · split <;> omega

end Sys2Proof.Machine
end

section
/-! The encoding (30_encoding.md R92, R93; log 1). `decode` reads R92's table row by row: what it reads from a word is what
the one row that the word matches reads from it. Both directions of the round trip then go by the rows. -/

namespace Sys2Proof

/-! The rows of R92's table. -/

/-- The rows of R92's table of encodings. -/
inductive EncodingRow where
  | nop
  | retfie
  | ret
  | disi
  | pwrsav
  | reset
  | goto
  | bra
  | pushF
  | popF
  | movLit
  | movToF
  | movFromF
  | bsetF
  | bclrF

namespace EncodingRow

/-- The rows in the order of R92's table. -/
def all : List EncodingRow :=
  [nop, retfie, ret, disi, pwrsav, reset, goto, bra, pushF, popF, movLit, movToF, movFromF, bsetF, bclrF]

/-- The mask and match of a row's first word (R92). -/
def pattern : EncodingRow → ProgWord × ProgWord
  | nop => (0xFF0000#24, 0x000000#24)
  | retfie => (0xFFFFFF#24, 0x064000#24)
  | ret => (0xFFFFFF#24, 0x060000#24)
  | disi => (0xFFC000#24, 0xFC0000#24)
  | pwrsav => (0xFFFFFE#24, 0xFE4000#24)
  | reset => (0xFFFFFF#24, 0xFE0000#24)
  | goto => (0xFF0001#24, 0x040000#24)
  | bra => (0xFF0000#24, 0x370000#24)
  | pushF => (0xFF0001#24, 0xF80000#24)
  | popF => (0xFF0001#24, 0xF90000#24)
  | movLit => (0xF00000#24, 0x200000#24)
  | movToF => (0xF80000#24, 0x880000#24)
  | movFromF => (0xF80000#24, 0x800000#24)
  | bsetF => (0xFF0000#24, 0xA80000#24)
  | bclrF => (0xFF0000#24, 0xA90000#24)

/-- GOTO is read from its two words (R92); the second word has bits 23:7 clear. -/
def readGoto (w : ProgWord) : Option ProgWord → Except DecodeError Instr
  | some w2 => if w2 &&& 0xFFFF80#24 = 0x000000#24 then .ok (.goto (gotoTarget w w2)) else .error .gotoSecondWord
  | none => .error .gotoSecondWord

/-- What `decode` reads from a word that matches the row. -/
def decodeWord (w : ProgWord) (next : Option ProgWord) : EncodingRow → Except DecodeError Instr
  | nop => .ok .nop
  | retfie => .ok .retfie
  | ret => .ok .ret
  | disi => .ok (.disi (w.extractLsb' 0 14))
  | pwrsav => .ok (.pwrsav (if w = 0xFE4000#24 then .sleep else .idle))
  | reset => .ok .reset
  | goto => readGoto w next
  | bra => .ok (.bra (w.extractLsb' 0 16))
  | pushF => .ok (.pushF (addrOfField15 (w.extractLsb' 1 15)))
  | popF => .ok (.popF (addrOfField15 (w.extractLsb' 1 15)))
  | movLit => .ok (.movLit (w.extractLsb' 4 16) (regOfField (w.extractLsb' 0 4)))
  | movToF => .ok (.movToF (regOfField (w.extractLsb' 0 4)) (addrOfField15 (w.extractLsb' 4 15)))
  | movFromF => .ok (.movFromF (addrOfField15 (w.extractLsb' 4 15)) (regOfField (w.extractLsb' 0 4)))
  | bsetF => .ok (.bsetF (addrOfField12 (w.extractLsb' 1 12)) (bitNumber w))
  | bclrF => .ok (.bclrF (addrOfField12 (w.extractLsb' 1 12)) (bitNumber w))

/-- The word has the row's match under the row's mask. -/
def Matches (r : EncodingRow) (w : ProgWord) : Prop := w &&& r.pattern.1 = r.pattern.2

theorem mem_all (r : EncodingRow) : r ∈ all := by
  cases r <;> simp [all]

theorem map_pattern_all : all.map pattern = rowPatterns := rfl

theorem mem_rowPatterns_iff {p : ProgWord × ProgWord} : p ∈ rowPatterns ↔ ∃ r : EncodingRow, r.pattern = p := by
  simp [← map_pattern_all, mem_all]

theorem pattern_injective {r q : EncodingRow} (h : r.pattern = q.pattern) : r = q :=
  List.inj_on_of_nodup_map (f := pattern) (by rw [map_pattern_all]; decide) (mem_all r) (mem_all q) h

/-- The matches of two rows differ in a bit that both masks cover. -/
theorem rowPatterns_pairwise : rowPatterns.Pairwise fun p q => p.2 &&& q.1 ≠ q.2 &&& p.1 := by decide

theorem rowPatterns_disjoint {p q : ProgWord × ProgWord} (hp : p ∈ rowPatterns) (hq : q ∈ rowPatterns) (hne : p ≠ q) :
    p.2 &&& q.1 ≠ q.2 &&& p.1 := by
  have hsymm : Std.Symm fun p q : ProgWord × ProgWord => p.2 &&& q.1 ≠ q.2 &&& p.1 := ⟨fun _ _ => Ne.symm⟩
  exact rowPatterns_pairwise.forall hp hq hne

/-- No word matches two rows. -/
theorem eq_of_matches {r q : EncodingRow} {w : ProgWord} (hr : r.Matches w) (hq : q.Matches w) : r = q := by
  apply pattern_injective
  by_contra hne
  apply rowPatterns_disjoint (mem_rowPatterns_iff.2 ⟨r, rfl⟩) (mem_rowPatterns_iff.2 ⟨q, rfl⟩) hne
  calc r.pattern.2 &&& q.pattern.1 = w &&& r.pattern.1 &&& q.pattern.1 := by rw [hr]
    _ = w &&& q.pattern.1 &&& r.pattern.1 := by rw [BitVec.and_assoc, BitVec.and_comm r.pattern.1, ← BitVec.and_assoc]
    _ = q.pattern.2 &&& r.pattern.1 := by rw [hq]

/-- The bits that the row's mask leaves open lie in one field: its lowest bit and its length. -/
def openField : EncodingRow → Nat × Nat
  | nop => (0, 16)
  | retfie => (0, 0)
  | ret => (0, 0)
  | disi => (0, 14)
  | pwrsav => (0, 1)
  | reset => (0, 0)
  | goto => (1, 15)
  | bra => (0, 16)
  | pushF => (1, 15)
  | popF => (1, 15)
  | movLit => (0, 20)
  | movToF => (0, 19)
  | movFromF => (0, 19)
  | bsetF => (0, 16)
  | bclrF => (0, 16)

theorem openField_of_mask_clear (r : EncodingRow) :
    ∀ b < 24, r.pattern.1.getLsbD b = false → r.openField.1 ≤ b ∧ b < r.openField.1 + r.openField.2 := by
  cases r <;> decide

/-- A word of a row is given by its open field. -/
theorem word_eq_of_openField {r : EncodingRow} {v w : ProgWord} (hv : r.Matches v) (hw : r.Matches w)
    (h : v.extractLsb' r.openField.1 r.openField.2 = w.extractLsb' r.openField.1 r.openField.2) : v = w := by
  apply BitVec.eq_of_getLsbD_eq
  intro b hb
  cases hmask : r.pattern.1.getLsbD b with
  | false =>
    obtain ⟨hlo, hhi⟩ := openField_of_mask_clear r b hb hmask
    have hbit := congrArg (fun x => x.getLsbD (b - r.openField.1)) h
    have hin : b - r.openField.1 < r.openField.2 := by omega
    simpa only [BitVec.getLsbD_extractLsb', hin, decide_true, Bool.true_and, Nat.add_sub_cancel' hlo] using hbit
  | true =>
    have hbit : (v &&& r.pattern.1).getLsbD b = (w &&& r.pattern.1).getLsbD b := by rw [hv, hw]
    simpa only [BitVec.getLsbD_and, hmask, Bool.and_true] using hbit

/-- PWRSAV's two words are those of its two operands. -/
theorem pwrsav_matches_iff {w : ProgWord} : pwrsav.Matches w ↔ w = 0xFE4000#24 ∨ w = 0xFE4001#24 := by
  constructor
  · intro h
    rcases BitVec.eq_zero_or_eq_one (w.extractLsb' 0 1) with hbit | hbit
    · exact .inl (word_eq_of_openField (r := pwrsav) h rfl hbit)
    · exact .inr (word_eq_of_openField (r := pwrsav) h rfl hbit)
  · rintro (rfl | rfl) <;> rfl

/-! `decode` by rows. -/

/-- The first of the rows that the word matches reads it. -/
def readFirst (w : ProgWord) (next : Option ProgWord) : List EncodingRow → Except DecodeError Instr
  | [] => .error .noRow
  | r :: rs => if w &&& r.pattern.1 = r.pattern.2 then r.decodeWord w next else readFirst w next rs

theorem readFirst_of_matches {w : ProgWord} {r : EncodingRow} (next : Option ProgWord) (hr : r.Matches w)
    {rs : List EncodingRow} (hmem : r ∈ rs) : readFirst w next rs = r.decodeWord w next := by
  induction rs with
  | nil => cases hmem
  | cons q rs ih =>
    rw [readFirst]
    by_cases hq : q.Matches w
    · rw [eq_of_matches hr hq]
      exact if_pos hq
    · refine (if_neg hq).trans (ih ?_)
      exact (List.mem_cons.1 hmem).resolve_left fun heq => hq (heq ▸ hr)

theorem readFirst_of_no_match {w : ProgWord} (next : Option ProgWord) (h : ∀ r : EncodingRow, ¬ r.Matches w)
    (rs : List EncodingRow) : readFirst w next rs = .error .noRow := by
  induction rs with
  | nil => rfl
  | cons q rs ih => exact (if_neg (h q)).trans ih

theorem and_full (w : ProgWord) : w &&& 0xFFFFFF#24 = w := BitVec.and_allOnes

/-- The two words that `decode` reads as PWRSAV are those of PWRSAV's row. -/
theorem pwrsav_words_eq_row (w : ProgWord) (next : Option ProgWord) (other : Except DecodeError Instr) :
    (if w = 0xFE4000#24 then .ok (.pwrsav .sleep) else if w = 0xFE4001#24 then .ok (.pwrsav .idle) else other) =
      if w &&& 0xFFFFFE#24 = 0xFE4000#24 then pwrsav.decodeWord w next else other := by
  have hiff : w &&& 0xFFFFFE#24 = 0xFE4000#24 ↔ w = 0xFE4000#24 ∨ w = 0xFE4001#24 := pwrsav_matches_iff
  simp only [hiff, decodeWord]
  by_cases hsleep : w = 0xFE4000#24
  · simp [hsleep]
  · simp [hsleep]

/-- `decode` tries the rows in the order of R92's table. -/
theorem decode_eq_readFirst (w : ProgWord) (next : Option ProgWord) : decode w next = readFirst w next all := by
  simp only [all, readFirst, pattern, and_full, decode, pwrsav_words_eq_row w next]
  rfl

theorem decode_of_matches {r : EncodingRow} {w : ProgWord} (next : Option ProgWord) (h : r.Matches w) :
    decode w next = r.decodeWord w next := by
  rw [decode_eq_readFirst, readFirst_of_matches next h (mem_all r)]

/-- What `decode` can do: read the word by the row it matches, or refuse a word of no row. -/
theorem decode_cases (w : ProgWord) (next : Option ProgWord) :
    (∃ r : EncodingRow, r.Matches w ∧ decode w next = r.decodeWord w next) ∨
    ((∀ r : EncodingRow, ¬ r.Matches w) ∧ decode w next = .error .noRow) := by
  by_cases h : ∃ r : EncodingRow, r.Matches w
  · obtain ⟨r, hr⟩ := h
    exact .inl ⟨r, hr, decode_of_matches next hr⟩
  · have hnone : ∀ r : EncodingRow, ¬ r.Matches w := not_exists.1 h
    exact .inr ⟨hnone, (decode_eq_readFirst w next).trans (readFirst_of_no_match next hnone all)⟩

/-! Refusals at decode (R93(d), 92_eei_decisions.md D31). -/

theorem readGoto_eq_gotoSecondWord_iff (w : ProgWord) (next : Option ProgWord) :
    readGoto w next = .error .gotoSecondWord ↔ ∀ v, next = some v → v &&& 0xFFFF80#24 ≠ 0#24 := by
  cases next with
  | none => simp [readGoto]
  | some v => simp [readGoto]

theorem readGoto_ne_noRow (w : ProgWord) (next : Option ProgWord) : readGoto w next ≠ .error .noRow := by
  cases next with
  | none => simp [readGoto]
  | some v => by_cases h : v &&& 0xFFFF80#24 = 0x000000#24 <;> simp [readGoto, h]

theorem decodeWord_ne_noRow (r : EncodingRow) (w : ProgWord) (next : Option ProgWord) :
    r.decodeWord w next ≠ .error .noRow := by
  cases r
  case goto => exact readGoto_ne_noRow w next
  all_goals simp [decodeWord]

/-- Only GOTO's row refuses a word for the word after it. -/
theorem eq_goto_of_decodeWord {r : EncodingRow} {w : ProgWord} {next : Option ProgWord}
    (h : r.decodeWord w next = .error .gotoSecondWord) : r = goto := by
  cases r
  case goto => rfl
  all_goals cases h

theorem decode_eq_noRow_iff (w : ProgWord) (next : Option ProgWord) :
    decode w next = .error .noRow ↔ ∀ r : EncodingRow, ¬ r.Matches w := by
  obtain ⟨r, hr, hread⟩ | ⟨hnone, hread⟩ := decode_cases w next
  · rw [hread]
    exact iff_of_false (decodeWord_ne_noRow r w next) fun hnone => hnone r hr
  · exact iff_of_true hread hnone

theorem decode_eq_gotoSecondWord_iff (w : ProgWord) (next : Option ProgWord) :
    decode w next = .error .gotoSecondWord ↔ goto.Matches w ∧ readGoto w next = .error .gotoSecondWord := by
  constructor
  · intro h
    obtain ⟨r, hr, hread⟩ | ⟨-, hread⟩ := decode_cases w next
    · obtain rfl : r = goto := eq_goto_of_decodeWord (hread.symm.trans h)
      exact ⟨hr, hread.symm.trans h⟩
    · rw [h] at hread
      cases hread
  · rintro ⟨hgoto, hread⟩
    exact (decode_of_matches next hgoto).trans hread

end EncodingRow

open EncodingRow

/-- Settles O3: a word matches at most one row, and `decode` reads it by that row. -/
theorem encodingRowsPartitionWords : Obligations.EncodingRowsPartitionWords := by
  intro w next
  refine ⟨?_, ?_, ?_⟩
  · intro p hp q hq hwp hwq
    obtain ⟨r, rfl⟩ := mem_rowPatterns_iff.1 hp
    obtain ⟨r', rfl⟩ := mem_rowPatterns_iff.1 hq
    exact congrArg pattern (eq_of_matches hwp hwq)
  · rw [decode_eq_noRow_iff, ← map_pattern_all]
    simp [mem_all, Matches]
  · rw [decode_eq_gotoSecondWord_iff, readGoto_eq_gotoSecondWord_iff]
    rfl

/-! Operands and the fields that hold them (R92). -/

@[simp] theorem regOfField_fieldOfReg (r : WReg) : regOfField (fieldOfReg r) = r := by
  apply Fin.ext
  simp only [regOfField, fieldOfReg, BitVec.toNat_ofNat]
  exact Nat.mod_eq_of_lt r.isLt

@[simp] theorem fieldOfReg_regOfField (b : BitVec 4) : fieldOfReg (regOfField b) = b := by
  simp [regOfField, fieldOfReg]

section Fields

variable {u v w : Nat} (x : BitVec u) (y : BitVec v) (z : BitVec w)

/-- The middle one of three fields. -/
theorem extractLsb'_middle : (x ++ y ++ z).extractLsb' w v = y := by
  apply BitVec.eq_of_getLsbD_eq
  intro i hi
  simp [BitVec.getLsbD_append, hi]

/-- The lower two of three fields. -/
theorem extractLsb'_lower : (x ++ y ++ z).extractLsb' 0 (v + w) = y ++ z := by
  apply BitVec.eq_of_getLsbD_eq
  intro i hi
  have hmiddle : ¬ i < w → i - w < v := by omega
  by_cases hlow : i < w
  · simp only [BitVec.getLsbD_extractLsb', BitVec.getLsbD_append, Nat.zero_add, hi, hlow, decide_true, Bool.true_and,
      if_true]
  · simp only [BitVec.getLsbD_extractLsb', BitVec.getLsbD_append, Nat.zero_add, hi, hlow, hmiddle hlow, decide_true,
      Bool.true_and, if_true, if_false]

/-- The upper one of three fields. -/
theorem extractLsb'_upper : (x ++ y ++ z).extractLsb' (v + w) u = x := by
  apply BitVec.eq_of_getLsbD_eq
  intro i hi
  have hw : ¬ v + w + i < w := by omega
  have hv : ¬ v + w + i - w < v := by omega
  have hsub : v + w + i - w - v = i := by omega
  simp [BitVec.getLsbD_append, hi, hw, hv, hsub]

end Fields

@[simp] theorem evenAddr_addrOfField15 (x : BitVec 15) : evenAddr (addrOfField15 x) = true := by
  rw [evenAddr, addrOfField15, BitVec.getLsbD_append]
  rfl

@[simp] theorem extractLsb'_addrOfField15 (x : BitVec 15) : (addrOfField15 x).extractLsb' 1 15 = x :=
  BitVec.extractLsb'_append_eq_left

theorem addrOfField15_extractLsb' {f : DataAddr} (h : evenAddr f = true) : addrOfField15 (f.extractLsb' 1 15) = f := by
  have h0 : f.getLsbD 0 = false := by simpa [evenAddr] using h
  apply BitVec.eq_of_getLsbD_eq
  intro i hi
  rw [addrOfField15, BitVec.getLsbD_append]
  cases i with
  | zero => simpa using h0.symm
  | succ i => simp [Nat.lt_of_succ_lt_succ hi, Nat.add_comm]

theorem toNat_addrOfField12 (x : BitVec 12) : (addrOfField12 x).toNat = 2 * x.toNat := by
  rw [addrOfField12, BitVec.toNat_append, BitVec.toNat_append]
  simp [Nat.shiftLeft_eq, Nat.mul_comm]

@[simp] theorem bitAddr_addrOfField12 (x : BitVec 12) : bitAddr (addrOfField12 x) = true := by
  have hx := x.isLt
  have hlt : 2 * x.toNat < 0x2000 := by omega
  simp [bitAddr, evenAddr, BitVec.getLsbD, toNat_addrOfField12, hlt]

@[simp] theorem extractLsb'_addrOfField12 (x : BitVec 12) : (addrOfField12 x).extractLsb' 1 12 = x :=
  extractLsb'_middle _ x _

theorem addrOfField12_extractLsb' {f : DataAddr} (h : bitAddr f = true) : addrOfField12 (f.extractLsb' 1 12) = f := by
  simp only [bitAddr, evenAddr, Bool.and_eq_true, beq_iff_eq, decide_eq_true_eq] at h
  obtain ⟨h0, hlt⟩ := h
  have heven : f.toNat % 2 = 0 := by simpa [BitVec.getLsbD, Nat.testBit_zero] using h0
  apply BitVec.eq_of_toNat_eq
  rw [toNat_addrOfField12, BitVec.extractLsb'_toNat, Nat.shiftRight_eq_div_pow]
  omega

/-- The low 16 bits of a word of BSET or BCLR. -/
theorem bitWord_extractLsb' (opcode : BitVec 8) (f : DataAddr) (b : BitVec 4) :
    (bitWord opcode f b).extractLsb' 0 16 = b.extractLsb' 0 3 ++ f.extractLsb' 1 12 ++ b.extractLsb' 3 1 := by
  apply BitVec.eq_of_getLsbD_eq
  intro i hi
  simp only [bitWord, BitVec.getLsbD_append, BitVec.getLsbD_extractLsb']
  interval_cases i <;> rfl

@[simp] theorem bitNumber_bitWord (opcode : BitVec 8) (f : DataAddr) (b : BitVec 4) :
    bitNumber (bitWord opcode f b) = b := by
  apply BitVec.eq_of_getLsbD_eq
  intro i hi
  simp only [bitNumber, bitWord, BitVec.getLsbD_append, BitVec.getLsbD_extractLsb']
  interval_cases i <;> simp

/-- GOTO's second word is its low 7 bits (R92). -/
theorem gotoSecondWord_iff (v : ProgWord) : v &&& 0xFFFF80#24 = 0#24 ↔ 0#17 ++ v.extractLsb' 0 7 = v := by
  have hmask : ∀ b < 24, (0xFFFF80#24).getLsbD b = decide (7 ≤ b) := by decide
  constructor
  · intro h
    apply BitVec.eq_of_getLsbD_eq
    intro b hb
    have hbit := congrArg (fun x => x.getLsbD b) h
    simp only [BitVec.getLsbD_and, hmask b hb, BitVec.getLsbD_zero] at hbit
    rw [BitVec.getLsbD_append]
    by_cases hlt : b < 7 <;> simp_all
  · intro h
    rw [← h]
    apply BitVec.eq_of_getLsbD_eq
    intro b hb
    rw [BitVec.getLsbD_and, hmask b hb, BitVec.getLsbD_append]
    by_cases hlt : b < 7 <;> simp [hlt]

theorem gotoTarget_encode {a : ProgAddr} (h : a.getLsbD 0 = false) :
    gotoTarget (0x04#8 ++ a.extractLsb' 1 15 ++ 0#1) (0#17 ++ a.extractLsb' 16 7) = a := by
  apply BitVec.eq_of_getLsbD_eq
  intro i hi
  rw [gotoTarget, extractLsb'_middle, BitVec.extractLsb'_append_eq_right]
  simp only [BitVec.getLsbD_append, BitVec.getLsbD_extractLsb']
  interval_cases i <;> simp_all

/-! Decoding what was encoded. -/

/-- An instruction with words matches its row (30_encoding.md R92). -/
theorem matchesTable (i : Instr) : Laws.MatchesTable.Statement i := by
  cases i with
  | nop => exact Laws.MatchesTable.nop
  | retfie => exact Laws.MatchesTable.retfie
  | ret => exact Laws.MatchesTable.ret
  | disi k => exact Laws.MatchesTable.disi k
  | pwrsav m => exact Laws.MatchesTable.pwrsav m
  | reset => exact Laws.MatchesTable.reset
  | goto a => exact Laws.MatchesTable.goto a
  | bra n => exact Laws.MatchesTable.bra n
  | pushF f => exact Laws.MatchesTable.pushF f
  | popF f => exact Laws.MatchesTable.popF f
  | movLit k d => exact Laws.MatchesTable.movLit k d
  | movToF x f => exact Laws.MatchesTable.movToF x f
  | movFromF f d => exact Laws.MatchesTable.movFromF f d
  | bsetF f b => exact Laws.MatchesTable.bsetF f b
  | bclrF f b => exact Laws.MatchesTable.bclrF f b
  | sftac acc c => exact Laws.MatchesTable.sftac acc c
  | repeatDivide m n q x => exact Laws.MatchesTable.repeatDivide m n q x
  | macClass acc x y => exact Laws.MatchesTable.macClass acc x y
  | movD form => exact Laws.MatchesTable.movD form
  | btsc src b => exact Laws.MatchesTable.btsc src b
  | btss src b => exact Laws.MatchesTable.btss src b
  | bitIndirect op p b => exact Laws.MatchesTable.bitIndirect op p b

/-- The first word of an instruction matches the instruction's row. -/
theorem matches_encode {i : Instr} {r : EncodingRow} (hrow : Laws.MatchesTable.row i = some r.pattern) {w : ProgWord}
    {ws : List ProgWord} (he : encode i = w :: ws) : r.Matches w := by
  obtain ⟨-, hword⟩ := matchesTable i
  exact (hword r.pattern hrow).2 w (by simp [he])

/-- An instruction decodes back where its row reads it from its words. -/
theorem decode_encode_of_row {i : Instr} {next : Option ProgWord} (r : EncodingRow)
    (hrow : Laws.MatchesTable.row i = some r.pattern) {w : ProgWord} {ws : List ProgWord} (he : encode i = w :: ws)
    (hread : r.decodeWord w (ws[0]?.or next) = .ok i) :
    decode ((encode i).headD 0#24) (((encode i)[1]?).or next) = .ok i := by
  rw [he]
  exact (decode_of_matches _ (matches_encode hrow he)).trans hread

theorem decode_encode (i : Instr) (next : Option ProgWord) (hwf : i.wellFormed = true) (henc : i.encoded = true) :
    decode ((encode i).headD 0#24) (((encode i)[1]?).or next) = .ok i := by
  cases i with
  | nop => exact decode_encode_of_row .nop rfl rfl rfl
  | retfie => exact decode_encode_of_row .retfie rfl rfl rfl
  | ret => exact decode_encode_of_row .ret rfl rfl rfl
  | disi k =>
    refine decode_encode_of_row .disi rfl rfl ?_
    rw [decodeWord, BitVec.extractLsb'_append_eq_right]
  | pwrsav m => cases m <;> exact decode_encode_of_row .pwrsav rfl rfl rfl
  | reset => exact decode_encode_of_row .reset rfl rfl rfl
  | goto a =>
    have ha : a.getLsbD 0 = false := by simpa [Instr.wellFormed] using hwf
    have hsecond := (gotoSecondWord_iff (0#17 ++ a.extractLsb' 16 7)).2 (by rw [BitVec.extractLsb'_append_eq_right])
    refine decode_encode_of_row .goto rfl rfl ((if_pos hsecond).trans ?_)
    rw [gotoTarget_encode ha]
  | bra n =>
    refine decode_encode_of_row .bra rfl rfl ?_
    rw [decodeWord, BitVec.extractLsb'_append_eq_right]
  | pushF f =>
    refine decode_encode_of_row .pushF rfl rfl ?_
    rw [decodeWord, extractLsb'_middle, addrOfField15_extractLsb' hwf]
  | popF f =>
    refine decode_encode_of_row .popF rfl rfl ?_
    rw [decodeWord, extractLsb'_middle, addrOfField15_extractLsb' hwf]
  | movLit k d =>
    refine decode_encode_of_row .movLit rfl rfl ?_
    rw [decodeWord, extractLsb'_middle, BitVec.extractLsb'_append_eq_right, regOfField_fieldOfReg]
  | movToF x f =>
    refine decode_encode_of_row .movToF rfl rfl ?_
    rw [decodeWord, extractLsb'_middle, BitVec.extractLsb'_append_eq_right, regOfField_fieldOfReg,
      addrOfField15_extractLsb' hwf]
  | movFromF f d =>
    refine decode_encode_of_row .movFromF rfl rfl ?_
    rw [decodeWord, extractLsb'_middle, BitVec.extractLsb'_append_eq_right, regOfField_fieldOfReg,
      addrOfField15_extractLsb' hwf]
  | bsetF f b =>
    refine decode_encode_of_row .bsetF rfl rfl ?_
    rw [decodeWord, bitNumber_bitWord, bitWord, extractLsb'_middle, addrOfField12_extractLsb' hwf]
  | bclrF f b =>
    refine decode_encode_of_row .bclrF rfl rfl ?_
    rw [decodeWord, bitNumber_bitWord, bitWord, extractLsb'_middle, addrOfField12_extractLsb' hwf]
  | sftac | repeatDivide | macClass | movD | btsc | btss | bitIndirect => cases henc

theorem length_encode {i : Instr} (henc : i.encoded = true) : (encode i).length = i.length := by
  have hne : encode i ≠ [] := by simpa [Instr.encoded] using henc
  have hpos : 0 < (encode i).length := List.length_pos_iff.2 hne
  rw [Instr.length, max_eq_right hpos]

/-- Settles O1, by the row of each encoded instruction. -/
theorem decodeEncode : Obligations.DecodeEncode :=
  fun i next hwf henc => ⟨length_encode henc, decode_encode i next hwf henc⟩

/-! Encoding what was decoded. -/

/-- The word, with the word after it, is the instruction's encoding, but for the bits that NOP ignores (R92). -/
def ReadsAs (w : ProgWord) (next : Option ProgWord) (i : Instr) : Prop :=
  i.wellFormed = true ∧ i.encoded = true ∧ (i ≠ .nop → (encode i)[0]? = some w) ∧
    (i = .nop → w.extractLsb' 16 8 = 0#8) ∧ (i.length = 2 → (encode i)[1]? = next)

theorem readsAs_of_encode {i : Instr} {w : ProgWord} {ws : List ProgWord} {next : Option ProgWord}
    (hwf : i.wellFormed = true) (he : encode i = w :: ws) (hnext : i.length = 2 → ws[0]? = next) : ReadsAs w next i := by
  refine ⟨hwf, by rw [Instr.encoded, he]; rfl, fun _ => by rw [he]; rfl, ?_, ?_⟩
  · rintro rfl
    cases he
    rfl
  · rw [he]
    exact hnext

theorem readsAs_of_word {i : Instr} {w : ProgWord} {next : Option ProgWord} (hwf : i.wellFormed = true)
    (he : encode i = [w]) : ReadsAs w next i := by
  apply readsAs_of_encode hwf he
  intro hlength
  simp [Instr.length, he] at hlength

/-- A word of a row with one word is the encoding of an instruction of that row whose word has the same open field. -/
theorem readsAs_of_openField {w e : ProgWord} {i : Instr} {next : Option ProgWord} {r : EncodingRow} (hw : r.Matches w)
    (hrow : Laws.MatchesTable.row i = some r.pattern) (he : encode i = [e]) (hwf : i.wellFormed = true)
    (hfield : e.extractLsb' r.openField.1 r.openField.2 = w.extractLsb' r.openField.1 r.openField.2) :
    ReadsAs w next i := by
  obtain rfl : e = w := word_eq_of_openField (matches_encode hrow he) hw hfield
  exact readsAs_of_word hwf he

theorem readsAs_nop {w : ProgWord} {next : Option ProgWord} (hw : EncodingRow.nop.Matches w) : ReadsAs w next .nop := by
  have hzero : w.extractLsb' 16 8 = 0#8 := by
    calc w.extractLsb' 16 8 = (w &&& 0xFF0000#24).extractLsb' 16 8 := by
          apply BitVec.eq_of_getLsbD_eq
          intro b hb
          interval_cases b <;> simp
      _ = (0#24).extractLsb' 16 8 := congrArg (BitVec.extractLsb' 16 8) hw
      _ = 0#8 := rfl
  exact ⟨rfl, rfl, fun hne => absurd rfl hne, fun _ => hzero, fun hlength => absurd hlength (by decide)⟩

theorem readGoto_ok {w : ProgWord} {next : Option ProgWord} {i : Instr} (h : readGoto w next = .ok i) :
    ∃ w2, next = some w2 ∧ w2 &&& 0xFFFF80#24 = 0#24 ∧ i = .goto (gotoTarget w w2) := by
  cases next with
  | none => cases h
  | some w2 =>
    rw [readGoto] at h
    split at h
    · rename_i hw2
      cases h
      exact ⟨w2, rfl, hw2, rfl⟩
    · cases h

theorem gotoTarget_even (w w2 : ProgWord) : (gotoTarget w w2).getLsbD 0 = false := by
  rw [gotoTarget, BitVec.getLsbD_append]
  rfl

theorem encode_gotoTarget {w w2 : ProgWord} (hw : goto.Matches w) (hw2 : w2 &&& 0xFFFF80#24 = 0#24) :
    encode (.goto (gotoTarget w w2)) = [w, w2] := by
  have hlow : (gotoTarget w w2).extractLsb' 1 15 = w.extractLsb' 1 15 := extractLsb'_middle _ _ _
  have hhigh : (gotoTarget w w2).extractLsb' 16 7 = w2.extractLsb' 0 7 := extractLsb'_upper _ _ _
  have hfirst : 0x04#8 ++ (gotoTarget w w2).extractLsb' 1 15 ++ 0#1 = w := by
    apply word_eq_of_openField (matches_encode (i := .goto (gotoTarget w w2)) rfl rfl) hw
    exact (extractLsb'_middle _ _ _).trans hlow
  rw [encode, hfirst, hhigh, (gotoSecondWord_iff w2).1 hw2]

theorem readsAs_goto {w : ProgWord} {next : Option ProgWord} {i : Instr} (hw : goto.Matches w)
    (hread : readGoto w next = .ok i) : ReadsAs w next i := by
  obtain ⟨w2, rfl, hw2, rfl⟩ := readGoto_ok hread
  refine readsAs_of_encode ?_ (encode_gotoTarget hw hw2) fun _ => rfl
  rw [Instr.wellFormed, gotoTarget_even]
  rfl

/-- The open field of a word that holds a 15-bit address field above a register field (MOV, R92). -/
theorem extractLsb'_moveFields (opcode : BitVec 5) (w : ProgWord) :
    (opcode ++ w.extractLsb' 4 15 ++ w.extractLsb' 0 4).extractLsb' 0 19 = w.extractLsb' 0 19 :=
  (extractLsb'_lower _ _ _).trans (BitVec.extractLsb'_append_extractLsb'_eq_extractLsb' rfl)

/-- A word of BSET or BCLR keeps the open field of the word whose operands it holds. -/
theorem extractLsb'_bitWord (opcode : BitVec 8) (w : ProgWord) :
    (bitWord opcode (addrOfField12 (w.extractLsb' 1 12)) (bitNumber w)).extractLsb' 0 16 = w.extractLsb' 0 16 := by
  have hhigh : (bitNumber w).extractLsb' 0 3 = w.extractLsb' 13 3 := BitVec.extractLsb'_append_eq_right
  have hlow : (bitNumber w).extractLsb' 3 1 = w.extractLsb' 0 1 := BitVec.extractLsb'_append_eq_left
  have hupper : w.extractLsb' 13 3 ++ w.extractLsb' 1 12 = w.extractLsb' 1 15 :=
    BitVec.extractLsb'_append_extractLsb'_eq_extractLsb' rfl
  rw [bitWord_extractLsb', extractLsb'_addrOfField12, hhigh, hlow, hupper]
  exact BitVec.extractLsb'_append_extractLsb'_eq_extractLsb' rfl

theorem readsAs_of_decodeWord {r : EncodingRow} {w : ProgWord} {next : Option ProgWord} {i : Instr} (hw : r.Matches w)
    (hread : r.decodeWord w next = .ok i) : ReadsAs w next i := by
  cases r with
  | nop =>
    cases hread
    exact readsAs_nop hw
  | retfie =>
    cases hread
    exact readsAs_of_openField hw rfl rfl rfl (BitVec.eq_of_zero_length rfl)
  | ret =>
    cases hread
    exact readsAs_of_openField hw rfl rfl rfl (BitVec.eq_of_zero_length rfl)
  | disi =>
    cases hread
    exact readsAs_of_openField hw rfl rfl rfl BitVec.extractLsb'_append_eq_right
  | pwrsav =>
    cases hread
    obtain rfl | rfl := pwrsav_matches_iff.1 hw <;> exact readsAs_of_word rfl rfl
  | reset =>
    cases hread
    exact readsAs_of_openField hw rfl rfl rfl (BitVec.eq_of_zero_length rfl)
  | goto => exact readsAs_goto hw hread
  | bra =>
    cases hread
    exact readsAs_of_openField hw rfl rfl rfl BitVec.extractLsb'_append_eq_right
  | pushF =>
    cases hread
    refine readsAs_of_openField hw rfl rfl (evenAddr_addrOfField15 _) ?_
    exact (extractLsb'_middle _ _ _).trans (extractLsb'_addrOfField15 _)
  | popF =>
    cases hread
    refine readsAs_of_openField hw rfl rfl (evenAddr_addrOfField15 _) ?_
    exact (extractLsb'_middle _ _ _).trans (extractLsb'_addrOfField15 _)
  | movLit =>
    cases hread
    refine readsAs_of_openField hw rfl rfl rfl ?_
    rw [fieldOfReg_regOfField]
    exact (extractLsb'_lower _ _ _).trans (BitVec.extractLsb'_append_extractLsb'_eq_extractLsb' rfl)
  | movToF =>
    cases hread
    refine readsAs_of_openField hw rfl rfl (evenAddr_addrOfField15 _) ?_
    rw [fieldOfReg_regOfField, extractLsb'_addrOfField15]
    exact extractLsb'_moveFields _ w
  | movFromF =>
    cases hread
    refine readsAs_of_openField hw rfl rfl (evenAddr_addrOfField15 _) ?_
    rw [fieldOfReg_regOfField, extractLsb'_addrOfField15]
    exact extractLsb'_moveFields _ w
  | bsetF =>
    cases hread
    exact readsAs_of_openField hw rfl rfl (bitAddr_addrOfField12 _) (extractLsb'_bitWord _ w)
  | bclrF =>
    cases hread
    exact readsAs_of_openField hw rfl rfl (bitAddr_addrOfField12 _) (extractLsb'_bitWord _ w)

/-- Settles O2, by the row that the word matches. -/
theorem encodeDecode : Obligations.EncodeDecode := by
  intro w next i h
  obtain ⟨r, hr, hread⟩ | ⟨-, hread⟩ := decode_cases w next
  · exact readsAs_of_decodeWord hr (hread.symm.trans h)
  · cases hread.symm.trans h

/-- Settles O4, by evaluating `decode` at each word. -/
theorem specWordsDecode : Obligations.SpecWordsDecode := by
  unfold Obligations.SpecWordsDecode
  decide

end Sys2Proof
end

section
/-! Bits of RAM words (30_encoding.md R92, 20_memory.md R75; log 28). -/

namespace Sys2Proof.Machine

/-- The byte of the word at `f` that holds bit `b` (R75). -/
theorem bitByte_eq (f : DataAddr) (b : BitVec 4) : bitByte f b = f + BitVec.ofNat 16 (b.toNat / 8) := by
  have hb := b.isLt
  have hbit : b.getLsbD 3 = decide (b.toNat / 8 = 1) := by
    rw [BitVec.getLsbD, Nat.testBit_eq_decide_div_mod_eq]
    congr 1
    simp only [eq_iff_iff]
    omega
  rw [bitByte, hbit]
  by_cases h : b.toNat / 8 = 1
  · rw [h]; rfl
  · have h0 : b.toNat / 8 = 0 := by omega
    rw [h0]
    simp

/-- A byte with one bit given a value. -/
theorem byteBit_getLsbD (x : Byte) {j : Nat} (hj : j < 8) (v : Bool) (k : Nat) :
    (lowByte (setBit (wordOfBytes x 0#8) j v)).getLsbD k = if k = j then v else x.getLsbD k := by
  rw [lowByte, BitVec.getLsbD_extractLsb', Nat.zero_add, setBit_getLsbD _ (by omega), wordOfBytes, BitVec.getLsbD_append]
  by_cases hk : k < 8
  · simp [hk]
  · have hne : k ≠ j := by omega
    simp [hk, hne, BitVec.getLsbD_of_ge x k (by omega)]

/-- Either byte of a RAM word is RAM, and no register is there. -/
theorem bitByte_ram {s : State} {f : DataAddr} (b : BitVec 4) (h : ramWordAt s f = true) :
    isRam s.dev (bitByte f b) = true ∧ sfrAt s.dev (evenPart (bitByte f b)) = none := by
  obtain ⟨⟨-, heven⟩, hsfr, hlow, hhigh⟩ := (ramWordAt_iff s f).1 h
  obtain ⟨helow, hehigh⟩ := even_cases heven
  rw [bitByte]
  split
  · rw [hehigh]
    exact ⟨hhigh, hsfr⟩
  · rw [helow]
    exact ⟨hlow, hsfr⟩

/-- A change of one bit of a RAM word is a store of the byte that holds it (log 28). -/
theorem modifyBit_ram {s : State} {f : DataAddr} (b : BitVec 4) (v : Bool) (h : ramWordAt s f = true) :
    modifyBit s f b v = .ok (ramWrite s (bitByte f b)
      (lowByte (setBit (wordOfBytes (ramRead s (bitByte f b)) 0#8) (b.toNat % 8) v)), quiet) := by
  obtain ⟨-, hsfr, -, -⟩ := (ramWordAt_iff s f).1 h
  obtain ⟨hram, hnone⟩ := bitByte_ram b h
  have himpl := impl_of_ram hram
  simp [modifyBit, hsfr, modifyByteBit, byteReadFaults, himpl, writeByte, byteWriteFaults, hnone, readByte, hram]

/-- The bits of RAM after a change of one bit of a RAM word. -/
theorem modifyBit_ram_reads {s : State} {f : DataAddr} (b : BitVec 4) (v : Bool) (h : ramWordAt s f = true) :
    ∃ t, modifyBit s f b v = .ok (t, quiet) ∧ t = { s with mem := t.mem } ∧
      ∀ (a : DataAddr) (k : Nat), (ramRead t a).getLsbD k =
        if a = f + BitVec.ofNat 16 (b.toNat / 8) ∧ k = b.toNat % 8 then v else (ramRead s a).getLsbD k := by
  refine ⟨_, modifyBit_ram b v h, ramWrite_eq _ _ _, ?_⟩
  intro a k
  obtain ⟨hram, -⟩ := bitByte_ram b h
  have hj : b.toNat % 8 < 8 := Nat.mod_lt _ (by decide)
  rw [ramRead_ramWrite, ← bitByte_eq, eaOf_of_ram h, eaOf_of_ram h]
  by_cases ha : a = bitByte f b
  · subst ha
    simp only [hram, and_self, if_true, true_and, byteBit_getLsbD _ hj]
  · simp only [ha, false_and, if_false]

/-- An operation of one word that ends in a store to RAM. -/
theorem finishAccess_ram {s t : State} {r : Except Refusal (State × Events)} (hr : r = .ok (t, quiet))
    (ht : t = { s with mem := t.mem }) :
    finishAccess r advance quiet = .next (advance t) ∧ advance t = { s with pc := nextPc s, mem := (advance t).mem } := by
  subst hr
  refine ⟨finish_quiet _, ?_⟩
  rw [ht]
  rfl

/-- Settles O28: BSET and BCLR are `modifyBit` with the value 1 and 0. -/
theorem bitWriteInRam : Obligations.BitWriteInRam := by
  intro s i f b v hi h
  obtain ⟨t, hmodify, ht, hbits⟩ := modifyBit_ram_reads b v h
  obtain ⟨hnext, hframe⟩ := finishAccess_ram hmodify ht
  have hexec : exec i s = finishAccess (modifyBit s f b v) advance quiet := by
    rcases hi with ⟨rfl, rfl⟩ | ⟨rfl, rfl⟩ <;> rfl
  refine ⟨advance t, hexec.trans hnext, hframe, ?_⟩
  intro a k
  rw [ramRead_congr (advance_mem t) (advance_ramEpoch t) (advance_dev t), hbits]

end Sys2Proof.Machine
end

section
/-! The system instructions (40_system_instructions.md): NOP, DISI, PWRSAV, RESET, GOTO and BRA, and the ticks of
R101. -/

namespace Sys2Proof.Machine

/-! The meaning of each instruction, and of BRA, which shares GOTO's jump. -/

theorem exec_nop (s : State) : exec .nop s = .next (advance s) := rfl

theorem exec_disi (k : DisiCount) (s : State) : exec (.disi k) s = .next (advance (loadDisicnt s k)) := rfl

theorem exec_pwrsav (m : SleepMode) (s : State) :
    exec (.pwrsav m) s = .next (advance { s with power := .asleep m }) := rfl

theorem exec_reset (s : State) : exec .reset s = .next (deviceReset .software s) := rfl

theorem exec_goto (a : ProgAddr) (s : State) : exec (.goto a) s = jump a s := rfl

theorem exec_bra (n : BitVec 16) (s : State) : exec (.bra n) s = jump (s.pc + 2#23 + branchOffset n) s := rfl

theorem exec_retfie (s : State) : exec .retfie s = returnFromException s := rfl

/-! NOP (R105). -/

/-- Every instruction takes at least one tick (R107). -/
theorem one_le_cycles (t : Nat) (i : Instr) : 1 ≤ cycles t i := by
  unfold cycles
  split <;> omega

/-- Settles O6: NOP is `advance`. -/
theorem nopAdvances : Obligations.NopAdvances :=
  fun s t => ⟨exec_nop s, nextPc_toNat, one_le_cycles t .nop⟩

/-! Ticks (R101, R107) and DISI (R100). -/

/-- The ticks of the operation that loaded DISICNT are not counted. -/
theorem elapse_of_loaded (n : Nat) {s : State} (h : s.disiLoaded = true) :
    elapse n s = { s with disiLoaded := false } := by
  simp [elapse, h]

/-- The count after `n` ticks, for a counter that is active exactly while it is not 0. -/
theorem countdown_eq (n : Nat) (c : DisiCount) :
    countdown n c (c != 0#14) = (BitVec.ofNat 14 (c.toNat - n), decide (n < c.toNat)) := by
  induction n generalizing c with
  | zero =>
    have hpos : (c != 0#14) = decide (0 < c.toNat) := by
      rw [Bool.eq_iff_iff]
      simp only [bne_iff_ne, decide_eq_true_eq]
      bv_omega
    simp [countdown, hpos]
  | succ n ih =>
    by_cases hc : c = 0#14
    · simp [hc, countdown]
    · have hpred : (c - 1#14).toNat = c.toNat - 1 := by bv_omega
      have hact : (c != 0#14) = true := by simp [hc]
      rw [countdown, if_pos hact, ih, hpred]
      congr 2
      · omega
      · simp only [eq_iff_iff]; omega

/-- The latch of DISI in its two spellings: a Boolean test, and a decided inequality. -/
theorem bne_eq_decide_ne (c : DisiCount) : (c != 0#14) = decide (c ≠ 0#14) := by
  rw [Bool.eq_iff_iff, bne_iff_ne, decide_eq_true_eq]

/-- The ticks of any other operation are counted. -/
theorem elapse_of_not_loaded (n : Nat) {s : State} (h : s.disiLoaded = false) :
    elapse n s = { s with
      disicnt := (countdown n s.disicnt s.disiActive).1
      disiActive := (countdown n s.disicnt s.disiActive).2 } := by
  cases hact : s.disiActive with
  | true => simp [elapse, h, hact]
  | false =>
    have hkept : elapse n s = s := by simp [elapse, h, hact]
    rw [countdown_inactive, hkept, ← hact]

/-- Settles O50: the closed form of the countdown. -/
theorem ticksCountDown : Obligations.TicksCountDown := by
  intro n s
  refine ⟨fun hloaded hactive => ?_, elapse_of_loaded n⟩
  have hlatch : s.disiActive = (s.disicnt != 0#14) := hactive.trans (bne_eq_decide_ne _).symm
  rw [elapse_of_not_loaded n hloaded, hlatch, countdown_eq]

/-- What passes the mask while DISI's latch says whether its count is not 0 (R138). -/
theorem passesMask_iff {s : State} {c : DisiCount} (h : s.disiActive = decide (c ≠ 0#14)) (l : Nat) :
    passesMask s l = true ↔ cpuIPL s < l ∧ (c = 0#14 ∨ l = 7) := by
  simp [passesMask, h]

/-- DISI as one update of the state. -/
theorem exec_disi_eq (k : DisiCount) (s : State) :
    exec (.disi k) s = .next { s with
      pc := nextPc s
      disicnt := narrow s.dev.disicntBits k
      disiActive := decide (narrow s.dev.disicntBits k ≠ 0#14)
      disiLoaded := true } := by
  rw [exec_disi, ← bne_eq_decide_ne]
  rfl

/-- Settles O7: the instruction's own ticks only clear the mark of the load. -/
theorem disiLoadsTheCount : Obligations.DisiLoadsTheCount := by
  intro s k n c
  refine ⟨narrow_of_le k, exec_disi_eq k s, fun t ht => ?_⟩
  rw [exec_disi_eq] at ht
  cases ht
  rw [elapse_of_loaded n rfl]
  exact ⟨rfl, rfl, passesMask_iff rfl, fun _ => rfl⟩

/-! RESET (R104, R200). -/

/-- After a reset every source has priority 4 (R34, R58). -/
theorem priorityReset_field {d : Device} {n : Nat} (h : implemented d n = true) :
    (priorityReset d (n / 4)).extractLsb' (4 * (n % 4)) 3 = 4#3 := by
  apply BitVec.eq_of_getLsbD_eq
  intro i hi
  have hbit : 4 * (n % 4) + i < 16 := by omega
  have hrem : (4 * (n % 4) + i) % 4 = i := by omega
  have hsource : 4 * (n / 4) + (4 * (n % 4) + i) / 4 = n := by omega
  simp only [BitVec.getLsbD_extractLsb', priorityReset, maskOf_getLsbD, hi, hbit, hrem, hsource, h]
  interval_cases i <;> rfl

theorem irqPriority_deviceReset (c : ResetCause) {s : State} {n : Nat} (h : implemented s.dev n = true) :
    irqPriority (deviceReset c s) n = 4 := by
  have hn : n / 4 < 30 := by have := implemented_lt h; omega
  simp [irqPriority, h, hn, priorityReset_field h]

/-- Settles O8: RESET is the device reset of R200. -/
theorem resetInstructionResets : Obligations.ResetInstructionResets := by
  intro s
  refine ⟨_, exec_reset s, rfl, sp_deviceReset _ s, rfl, rfl, rfl, rfl, rfl, rfl, rfl, fun x => ?_,
    fun n hn => irqPriority_deviceReset _ hn, rfl, rfl, rfl, rfl, rfl, rfl, by decide, by decide⟩
  simp

/-! PWRSAV (R103) and the wake-up (R165). -/

/-- A flag that is set belongs to a source of R131. -/
theorem mem_irqTable_of_irqFlag {s : State} {n : Nat} (h : irqFlag s n = true) : n ∈ irqTable := by
  simp only [irqFlag, implemented, Bool.and_eq_true, List.contains_iff_mem] at h
  exact h.1.1.1

/-- The wake-up condition over every IRQ number (R165). -/
theorem wakes_iff (s : State) :
    wakes s = true ↔ ∃ n, irqFlag s n = true ∧ irqEnable s n = true ∧ 1 ≤ irqPriority s n := by
  simp only [wakes, requests, List.any_eq_true, Bool.and_eq_true, decide_eq_true_eq, and_assoc]
  exact ⟨fun ⟨n, _, h⟩ => ⟨n, h⟩, fun ⟨n, h⟩ => ⟨n, mem_irqTable_of_irqFlag h.1, h⟩⟩

theorem cpuTurn_asleep {s : State} {m : SleepMode} (h : s.power = .asleep m) : cpuTurn s = .next (asleepTurn s) := by
  simp [cpuTurn, h]

/-- Settles O53: the turn of a sleeping device is decided by the wake-up condition. -/
theorem sleepAndWake : Obligations.SleepAndWake := by
  intro s m
  refine ⟨exec_pwrsav m s, fun hasleep => ?_⟩
  rw [cpuTurn_asleep hasleep, asleepTurn]
  constructor
  · intro hsource
    rw [if_pos ((wakes_iff s).2 hsource)]
    exact ⟨_, rfl⟩
  · intro hnone
    have hsleeps : ¬ wakes s = true := by
      rw [wakes_iff]
      rintro ⟨n, hflag, henable, hpriority⟩
      have := hnone n hflag henable
      omega
    rw [if_neg hsleeps]

/-! GOTO (R106) and BRA (R111). -/

/-- The target of BRA is pc, two for itself and twice its signed offset (R92). -/
theorem branchTarget_eq (pc : ProgAddr) (n : BitVec 16) :
    pc + 2#23 + branchOffset n = BitVec.ofInt 23 (pc.toNat + 2 + 2 * n.toInt) := by
  have hoffset : branchOffset n = 2#23 * BitVec.ofInt 23 n.toInt := by
    rw [branchOffset, BitVec.shiftLeft_eq_mul_twoPow, BitVec.mul_comm]
    rfl
  rw [BitVec.ofInt_add, BitVec.ofInt_add, BitVec.ofInt_mul, hoffset, BitVec.ofInt_natCast, BitVec.ofNat_toNat,
    BitVec.setWidth_eq]
  rfl

theorem exec_bra_eq (n : BitVec 16) (s : State) :
    exec (.bra n) s = jump (BitVec.ofInt 23 (s.pc.toNat + 2 + 2 * n.toInt)) s := by
  rw [exec_bra, branchTarget_eq]

/-- A jump to an implemented address only loads pc. -/
theorem jump_implemented {s : State} {a : ProgAddr} (h : progImplemented s.dev (pcOf s.dev a) = true) :
    jump a s = .next { s with pc := pcOf s.dev a } := by
  rw [jump, h]
  exact finish_quiet (setPc s a)

/-- A jump to an unimplemented address loads pc and raises the address error, marked as a bad fetch (R150 cause 4). -/
theorem jump_unimplemented {s : State} {a : ProgAddr} (h : progImplemented s.dev (pcOf s.dev a) = false) :
    jump a s = raiseHard .addressError { s with pc := pcOf s.dev a, badFetch := true } := by
  rw [jump, h]
  simp [finish, jumpEvent, raiseSoft, markFetch, setPc]

/-- Settles O9: both are `jump`, BRA with the target of `branchTarget_eq`. -/
theorem jumpsLoadPc : Obligations.JumpsLoadPc := by
  intro s
  refine ⟨fun a h => ?_, fun n h => ?_, fun a heven => ⟨?_, fun hwidth => ?_⟩⟩
  · rw [exec_goto, jump_implemented h]
  · rw [exec_bra_eq, jump_implemented h]
  · exact pcOf_toNat s.dev (by simpa [BitVec.getLsbD, Nat.testBit_zero] using heven)
  · rw [pcOf_full hwidth, evenPc_of_even heven]

/-! The three answers of R146 to a hard trap event. -/

theorem raiseHard_of_admitsTrap {t : Trap} {s : State} (h : admitsTrap s t) :
    raiseHard t s = .next { s with intcon1 := setBit s.intcon1 (trapFlagBit t) true } := by
  obtain ⟨hhigher, hlevel⟩ := h
  have hpending := (not_higherTrapPending_iff s t).2 hhigher
  have hle : ¬ trapLevel s.dev t < cpuIPL s := by omega
  have hne : cpuIPL s ≠ trapLevel s.dev t := by omega
  simp [raiseHard, hpending, hle, hne]

theorem raiseHard_of_conflicts {t : Trap} {s : State} (h : conflicts s t) :
    raiseHard t s = .next (deviceReset .trapConflict s) := by
  rw [raiseHard, if_pos ((conflicts_iff s t).1 h)]

theorem raiseHard_of_meetsOwnHandler {t : Trap} {s : State} (h : meetsOwnHandler s t) :
    raiseHard t s = .fault (.hardTrapInOwnHandler t) := by
  obtain ⟨hhigher, hlevel⟩ := h
  have hpending := (not_higherTrapPending_iff s t).2 hhigher
  simp [raiseHard, hpending, hlevel]

/-- Settles O10: the jump's address error meets one of the three answers of R146, which do not read pc or the mark. -/
theorem jumpToUnimplementedTraps : Obligations.JumpToUnimplementedTraps := by
  intro s i a hi himpl
  have hexec : exec i s = raiseHard .addressError { s with pc := a, badFetch := true } := by
    rcases hi with ⟨v, rfl, rfl⟩ | ⟨n, rfl, rfl⟩
    · rw [exec_goto, jump_unimplemented himpl]
    · rw [exec_bra_eq, jump_unimplemented himpl]
  rw [hexec]
  refine ⟨fun h => ?_, fun h => ?_, fun h => raiseHard_of_meetsOwnHandler h⟩
  · exact raiseHard_of_admitsTrap h
  · exact raiseHard_of_conflicts h

end Sys2Proof.Machine
end

section
/-! RETFIE (40_system_instructions.md R102) of a frame that lies in RAM, and after an exception entry
(60_exceptions.md R144, R177). -/

namespace Sys2Proof.Machine

/-! Stack events (20_memory.md R79). -/

@[simp] theorem joinEvents_stackEvent (c d : Bool) :
    joinEvents (stackEvent c) (stackEvent d) = stackEvent (c || d) := by
  simp [joinEvents, stackEvent]

/-- An operation whose only events are stack events ends in its effect, with STKERR by the checks. -/
theorem finish_stackEvent (c : Bool) (s : State) :
    finish (stackEvent c) s = .next { s with intcon1 := s.intcon1 ||| stkerrIf c } := by
  rw [finish_of_no_addr s rfl]
  cases c <;> simp [raiseSoft, stackEvent, stkerrIf]

theorem stkerrIf_getLsbD (c : Bool) (b : Nat) : (stkerrIf c).getLsbD b = (c && decide (b = 2)) := by
  cases c with
  | false => simp [stkerrIf]
  | true =>
    by_cases hb : b < 16
    · interval_cases b <;> rfl
    · have hne : b ≠ 2 := by omega
      simp [stkerrIf, hne, BitVec.getLsbD_of_ge _ b (by omega : 16 ≤ b)]

/-! Two pops from RAM. -/

theorem sub_two_sub_two (x : Word) : x - 2#16 - 2#16 = x - 4#16 := by bv_omega

/-- The second word of a frame is RAM after the pop of the first. -/
theorem ramWordAt_second {s : State} (h2 : ramWordAt s (sp s - 2#16) = true)
    (h4 : ramWordAt s (sp s - 4#16) = true) : ramWordAt (popState s) (sp (popState s) - 2#16) = true := by
  rw [sp_popState_ram h2, sub_two_sub_two, ramWordAt_congr (popState_dev s)]
  exact h4

theorem popState_twice_ram {s : State} (h2 : ramWordAt s (sp s - 2#16) = true)
    (h4 : ramWordAt s (sp s - 4#16) = true) :
    popState (popState s) = { s with w := s.w.set 15 (sp s - 4#16) } := by
  rw [popState_ram (ramWordAt_second h2 h4), sp_popState_ram h2, sub_two_sub_two, popState_ram h2]
  simp [Vector.set_set]

theorem popValue_second_ram {s : State} (h2 : ramWordAt s (sp s - 2#16) = true)
    (h4 : ramWordAt s (sp s - 4#16) = true) : popValue (popState s) = ramWord s (sp s - 4#16) := by
  rw [popValue_ram (ramWordAt_second h2 h4), sp_popState_ram h2, sub_two_sub_two]
  exact ramWord_congr rfl rfl rfl _

/-- The events of two pops: R79's checks of each. -/
theorem popEvents_twice_ram {s : State} (h2 : ramWordAt s (sp s - 2#16) = true)
    (h4 : ramWordAt s (sp s - 4#16) = true) :
    joinEvents (popEvents s) (popEvents (popState s)) =
      stackEvent (popStackError s (sp s) || popStackError s (sp s - 2#16)) := by
  rw [popEvents_ram h2, popEvents_ram (ramWordAt_second h2 h4), joinEvents_stackEvent, sp_popState_ram h2]
  rfl

/-! RETFIE. -/

/-- The state after RETFIE pops `hi` and then `lo` from RAM (R102). -/
def afterRetfie (s : State) (lo hi : Word) : State :=
  { s with
    pc := pcOf s.dev (framePcOf s.dev.frame lo hi)
    w := s.w.set 15 (sp s - 4#16)
    sr := withSrl s.sr (frameSrlOf s.dev.frame lo hi)
    corcon := setBit s.corcon 3 (frameIpl3Of s.dev.frame lo hi)
    intcon1 := s.intcon1 ||| stkerrIf (popStackError s (sp s) || popStackError s (sp s - 2#16))
    inttregFresh := false }

theorem exec_retfie_ram {s : State} (h2 : ramWordAt s (sp s - 2#16) = true)
    (h4 : ramWordAt s (sp s - 4#16) = true) :
    exec .retfie s = .next (afterRetfie s (ramWord s (sp s - 4#16)) (ramWord s (sp s - 2#16))) := by
  rw [exec_retfie, returnFromException]
  simp only [popValue_ram h2, popValue_second_ram h2 h4, popState_twice_ram h2 h4, popEvents_twice_ram h2 h4,
    finish_stackEvent]
  rfl

section
variable (s : State) (lo hi : Word)

theorem srl_afterRetfie : srl (afterRetfie s lo hi) = frameSrlOf s.dev.frame lo hi := withSrl_srl _ _

theorem srHigh_afterRetfie : (afterRetfie s lo hi).sr.extractLsb' 8 8 = s.sr.extractLsb' 8 8 := withSrl_high _ _

theorem corcon_afterRetfie (b : Nat) : (afterRetfie s lo hi).corcon.getLsbD b =
    if b = 3 then frameIpl3Of s.dev.frame lo hi else s.corcon.getLsbD b :=
  setBit_getLsbD _ (by decide) _ b

theorem ipl3_afterRetfie : ipl3 (afterRetfie s lo hi) = frameIpl3Of s.dev.frame lo hi := by
  rw [ipl3, corcon_afterRetfie, if_pos rfl]

theorem corcon_afterRetfie_ne {b : Nat} (h : b ≠ 3) :
    (afterRetfie s lo hi).corcon.getLsbD b = s.corcon.getLsbD b := by
  rw [corcon_afterRetfie, if_neg h]

theorem intcon1_afterRetfie_ne {b : Nat} (h : b ≠ 2) :
    (afterRetfie s lo hi).intcon1.getLsbD b = s.intcon1.getLsbD b := by
  simp [afterRetfie, stkerrIf_getLsbD, h]

theorem sp_afterRetfie : sp (afterRetfie s lo hi) = sp s - 4#16 := by
  simp [sp, afterRetfie]

end

/-- Settles O11: RETFIE is `afterRetfie`, read by the layout of the device or of D3. -/
theorem retfieRestores : Obligations.RetfieRestores := by
  intro s h2 h4
  refine ⟨_, exec_retfie_ram h2 h4, rfl, rfl, srl_afterRetfie s _ _, ipl3_afterRetfie s _ _, fun hframe => ?_,
    srHigh_afterRetfie s _ _, fun b hb => corcon_afterRetfie_ne s _ _ hb⟩
  refine ⟨?_, ?_, ?_⟩
  · rw [afterRetfie, hframe, framePcOf_default, framePc]
  · rw [srl_afterRetfie, hframe, frameSrlOf_default]
  · rw [ipl3_afterRetfie, hframe, frameIpl3Of_default]

/-! RETFIE after an entry. -/

/-- What an entry whose frame lies in RAM leaves for the RETFIE: the device, W15 past the frame, and its two words. -/
theorem enterException_frame {x : Exception} {s u : State} (h0 : ramWordAt s (sp s) = true)
    (h2 : ramWordAt s (sp s + 2#16) = true) (h : enterException x s = .next u) :
    u.dev = s.dev ∧ sp u = sp s + 4#16 ∧ ramWord u (sp s) = frameFirst s (returnAddress s x) ∧
    ramWord u (sp s + 2#16) = frameSecond s (returnAddress s x) := by
  obtain ⟨t, hpush, ht, hsp, hmem⟩ := pushFrame_ram (returnAddress s x) h0 h2
  obtain ⟨a, hu⟩ : ∃ a, finish (stackEvent (pushStackError s (sp s) || pushStackError s (sp s + 2#16)))
      (handlerState s t x a) = .next u := by
    simp only [enterException, hpush] at h
    split at h
    · cases h
    · cases h
    · exact ⟨_, h⟩
  rw [finish_stackEvent] at hu
  cases hu
  have hword : ∀ b, ramWord t b = wordOfBytes (ramRead t b) (ramRead t (b + 1#16)) := fun _ => rfl
  have hthird : sp s + 2#16 + 1#16 = sp s + 3#16 := by bv_omega
  have hdev : t.dev = s.dev := by rw [ht]
  refine ⟨hdev, hsp, ?_, ?_⟩
  · refine (ramWord_congr (s := t) rfl rfl rfl _).trans ?_
    simp [hword, hmem]
  · refine (ramWord_congr (s := t) rfl rfl rfl _).trans ?_
    simp [hword, hmem, hthird]

/-- A word of RAM is its two bytes. -/
theorem ramWord_of_reads {s t : State} {a : DataAddr} (hlow : ramRead t a = ramRead s a)
    (hhigh : ramRead t (a + 1#16) = ramRead s (a + 1#16)) : ramWord t a = ramWord s a := by
  rw [ramWord, ramWord, hlow, hhigh]

/-- The return address of an entry is one that pc can hold. -/
theorem pcOf_returnAddress {s : State} (h : pcOf s.dev s.pc = s.pc) (x : Exception) :
    pcOf s.dev (returnAddress s x) = returnAddress s x := by
  unfold returnAddress
  split
  · split
    · exact pcOf_pcOf s.dev _
    · exact h
  · exact h

/-- The CPU priority level is read from SRL and IPL3 (R135). -/
theorem cpuIPL_congr {s t : State} (hsrl : srl t = srl s) (hipl3 : ipl3 t = ipl3 s) : cpuIPL t = cpuIPL s := by
  have hipl : ∀ r : State, ipl r = (srl r).extractLsb' 5 3 := by
    intro r
    apply BitVec.eq_of_getLsbD_eq
    intro i hi
    simp [ipl, srl]
  rw [cpuIPL, cpuIPL, hipl, hipl, hsrl, hipl3]

/-- RETFIE pops the frame that the entry from `s` pushed, where the handler has kept its words and W15. -/
theorem exec_retfie_of_frame {s h : State} {ret : ProgAddr} (hdev : h.dev = s.dev) (hsp : sp h = sp s + 4#16)
    (h0 : ramWordAt s (sp s) = true) (h2 : ramWordAt s (sp s + 2#16) = true)
    (hfirst : ramWord h (sp s) = frameFirst s ret) (hsecond : ramWord h (sp s + 2#16) = frameSecond s ret) :
    exec .retfie h = .next (afterRetfie h (frameFirst s ret) (frameSecond s ret)) := by
  have hsp4 : sp h - 4#16 = sp s := by rw [hsp]; bv_omega
  have hsp2 : sp h - 2#16 = sp s + 2#16 := by rw [hsp]; bv_omega
  rw [exec_retfie_ram, hsp4, hsp2, hfirst, hsecond]
  · rw [hsp2, ramWordAt_congr hdev]; exact h2
  · rw [hsp4, ramWordAt_congr hdev]; exact h0

/-- What a complete layout gives back of the frame that the entry from `s` pushed (R102, R177). -/
theorem afterRetfie_frame {s h : State} {ret : ProgAddr} (hcomplete : frameComplete s.dev.frame = true)
    (hdev : h.dev = s.dev) (hret : pcOf s.dev ret = ret) :
    (afterRetfie h (frameFirst s ret) (frameSecond s ret)).pc = ret ∧
    srl (afterRetfie h (frameFirst s ret) (frameSecond s ret)) = srl s ∧
    ipl3 (afterRetfie h (frameFirst s ret) (frameSecond s ret)) = ipl3 s := by
  have heven : ret.getLsbD 0 = false := by
    rw [← hret]
    exact pcOf_getLsbD_zero _ _
  refine ⟨?_, ?_, ?_⟩
  · rw [afterRetfie, hdev, frameFirst, frameSecond, framePcOf_frameWord hcomplete _ _ heven]
    exact hret
  · rw [srl_afterRetfie, hdev, frameFirst, frameSecond, frameSrlOf_frameWord hcomplete]
  · rw [ipl3_afterRetfie, hdev, frameFirst, frameSecond, frameIpl3Of_frameWord hcomplete]

/-- Settles O46: the handler kept the two words of the frame, from which a complete layout gives back what it stored. -/
theorem retfieUndoesEntry : Obligations.RetfieUndoesEntry := by
  intro x s u h hpc hcomplete h0 h2 henter hsp hdev hkept
  obtain ⟨hudev, husp, hfirst, hsecond⟩ := enterException_frame h0 h2 henter
  have hhdev : h.dev = s.dev := hdev.trans hudev
  have hhsp : sp h = sp s + 4#16 := hsp.trans husp
  have hsp4 : sp h - 4#16 = sp s := by rw [hhsp]; bv_omega
  have hthird : sp s + 2#16 + 1#16 = sp s + 3#16 := by bv_omega
  have hlo : ramWord h (sp s) = ramWord u (sp s) :=
    ramWord_of_reads (by simpa using hkept 0#16 (by decide)) (hkept 1#16 (by decide))
  have hhi : ramWord h (sp s + 2#16) = ramWord u (sp s + 2#16) :=
    ramWord_of_reads (hkept 2#16 (by decide)) (by rw [hthird]; exact hkept 3#16 (by decide))
  have hexec := exec_retfie_of_frame hhdev hhsp h0 h2 (hlo.trans hfirst) (hhi.trans hsecond)
  obtain ⟨hretpc, hsrl, hipl3⟩ := afterRetfie_frame hcomplete hhdev (pcOf_returnAddress hpc x)
  refine ⟨_, hexec, hretpc, hsrl, hipl3, cpuIPL_congr hsrl hipl3, (sp_afterRetfie h _ _).trans hsp4, ?_,
    srHigh_afterRetfie h _ _, fun b hb => corcon_afterRetfie_ne h _ _ hb, fun b hb => intcon1_afterRetfie_ne h _ _ hb⟩
  rw [← hsp4]
  rfl

end Sys2Proof.Machine
end

section
/-! What the endings of the instructions of 41_named_instructions.md have in common: the events of an operation that raises
no address error, the free flags, and the checks of R79 on the working registers. -/

namespace Sys2Proof.Machine

/-! Events (60_exceptions.md R148, R150). -/

theorem quiet_eq_stackEvent : quiet = stackEvent false := rfl

theorem addrEvent_false : addrEvent false = quiet := rfl

@[simp] theorem joinEvents_quiet_left (e : Events) : joinEvents quiet e = e := by
  simp [joinEvents, quiet]

@[simp] theorem joinEvents_quiet_right (e : Events) : joinEvents e quiet = e := by
  simp [joinEvents, quiet]

@[simp] theorem or_stkerrIf_false (x : Word) : x ||| stkerrIf false = x := by
  simp [stkerrIf]

/-- An operation that raises no address error ends in its effect, with its math error bits and with STKERR by the checks. -/
theorem finish_soft {e : Events} (s : State) (h : e.addr = false) :
    finish e s = .next { s with intcon1 := s.intcon1 ||| e.math ||| stkerrIf e.stack } :=
  finish_of_no_addr s h

/-- An operation of one word whose access and whose address raise stack events only. -/
theorem finishAccess_stackEvent (t : State) (c d : Bool) :
    finishAccess (.ok (t, stackEvent d)) advance (stackEvent c) =
      .next { t with pc := nextPc t, intcon1 := t.intcon1 ||| stkerrIf (c || d) } := by
  rw [finishAccess, joinEvents_stackEvent, finish_stackEvent]
  rfl

/-- A stack event is seen in STKERR, unless the operation ends in the reset of a trap conflict (R146, R148). -/
theorem finish_of_stack {e : Events} {s t : State} {d : Device} (he : e.stack = true) (h : finish e s = .next t)
    (hdev : s.dev = d) : trapPending t .stackError = true ∨ (t.traprSet = true ∧ t.pc = resetPc d) := by
  subst hdev
  have hflag : trapPending (raiseSoft e s) .stackError = true := by
    simp [trapPending, trapFlagBit, he]
  rcases finish_cases h with ⟨-, rfl⟩ | ⟨-, hraise⟩
  · exact .inl hflag
  · rcases raiseHard_cases hraise with ⟨-, rfl⟩ | ⟨-, -, rfl⟩
    · exact .inr ⟨rfl, rfl⟩
    · left
      rw [trapPending, setBit_getLsbD _ (by decide), if_neg (by decide)]
      exact hflag

/-! The free flags (N18). -/

/-- IPL<2:0> is read from bits 5 to 7 of SR (R15). -/
theorem ipl_congr {s t : State} (h : ∀ b, 5 ≤ b → b < 8 → t.sr.getLsbD b = s.sr.getLsbD b) : ipl t = ipl s := by
  apply BitVec.eq_of_getLsbD_eq
  intro i hi
  simp only [ipl, BitVec.getLsbD_extractLsb', hi, decide_true, Bool.true_and]
  exact h (5 + i) (by omega) (by omega)

/-- A bit of SR that is no open flag is kept. -/
theorem freeFlags_getLsbD (s : State) {b : Nat} (h : openFlags.getLsbD b = false) :
    (freeFlags s).sr.getLsbD b = s.sr.getLsbD b := by
  by_cases hb : b < 16
  · simp only [freeFlags_sr, BitVec.getLsbD_or, BitVec.getLsbD_and, BitVec.getLsbD_not, h, hb]
    simp
  · rw [BitVec.getLsbD_of_ge _ b (by omega), BitVec.getLsbD_of_ge _ b (by omega)]

/-- IPL<2:0> is no open flag. -/
theorem openFlags_ipl {b : Nat} (h5 : 5 ≤ b) (h8 : b < 8) : openFlags.getLsbD b = false := by
  interval_cases b <;> decide

theorem keptFlags_freeFlags (s : State) : keptFlags s (freeFlags s) :=
  ⟨ipl_congr fun _ h5 h8 => freeFlags_getLsbD s (openFlags_ipl h5 h8), freeFlags_getLsbD s (by decide),
    freeFlags_getLsbD s (by decide), freeFlags_getLsbD s (by decide), freeFlags_getLsbD s (by decide)⟩

theorem keptFlags_refl (s : State) : keptFlags s s := ⟨rfl, rfl, rfl, rfl, rfl⟩

/-! The working registers (10_state.md R11, 20_memory.md R79). -/

theorem putW_w_ne (s : State) {i j : WReg} (v : Word) (h : j ≠ i) : (putW s i v).w[j] = s.w[j] := by
  have hval : i.val ≠ j.val := fun e => h (Fin.ext e.symm)
  simp [hval]

/-- W15 is checked when it is one of the two registers written. -/
theorem putWEvents_pair (s : State) (i j : WReg) :
    joinEvents (putWEvents s i) (putWEvents s j) = stackEvent ((i == 15 || j == 15) && stackLow s) := by
  rw [putWEvents, putWEvents, joinEvents_stackEvent, ← Bool.and_or_distrib_right]
  rfl

/-- The overflow check of an access through W`p`: only W15 is checked. -/
theorem baseEvents_eq (s : State) (p : WReg) :
    baseEvents s p s.w[p] = stackEvent (p == 15 && s.splimWritten && decide (s.splim < eaOf s.dev (sp s))) := by
  rw [baseEvents]
  by_cases h : p = 15
  · subst h
    rfl
  · have hne : (p == 15) = false := by simp [h]
    rw [decide_eq_false h, hne, Bool.false_and, Bool.false_and, Bool.false_and]

end Sys2Proof.Machine
end

section
/-! MOV #lit16, RETURN, PUSH and POP (41_named_instructions.md R110, R112, R113). -/

namespace Sys2Proof.Machine

/-! MOV #lit16 (R110, R125). -/

theorem exec_movLit (k : Word) (d : WReg) (s : State) :
    exec (.movLit k d) s = finish (putWEvents (putW s d k) d) (advance (putW s d k)) := rfl

theorem evenPart_getLsbD (a : Word) (b : Nat) : (evenPart a).getLsbD b = (decide (b ≠ 0) && a.getLsbD b) := by
  by_cases hb : b < 16
  · interval_cases b <;> simp [evenPart]
  · simp [BitVec.getLsbD_of_ge _ b (by omega : 16 ≤ b)]

/-- W15 takes the even part of the literal, and is checked. -/
theorem exec_movLit_stack (k : Word) (s : State) : ∃ t, exec (.movLit k 15) s = .next t ∧ sp t = evenPart k ∧
    t = { s with
      pc := nextPc s
      w := s.w.set 15 (evenPart k)
      intcon1 := s.intcon1 ||| stkerrIf (decide (evenPart k < s.dev.stackBase)) } := by
  refine ⟨_, (exec_movLit k 15 s).trans (finish_stackEvent _ _), sp_putW_self s k, ?_⟩
  rw [stackLow, sp_putW_self]
  rfl

/-- Settles O25: the register takes `putW`'s value, and only W15 is checked. -/
theorem movLiteralWritesItsRegister : Obligations.MovLiteralWritesItsRegister := by
  refine fun s k d => ⟨fun hd => ?_, ?_⟩
  · have hquiet : putWEvents (putW s d k) d = quiet := by simp [putWEvents, hd, quiet_eq_stackEvent]
    rw [exec_movLit, hquiet, finish_quiet]
    simp [advance, putW, nextPc, hd]
  · obtain ⟨t, hexec, hsp, ht⟩ := exec_movLit_stack k s
    refine ⟨t, hexec, ?_, ?_⟩
    · rw [hsp]
      exact ht
    · rw [hsp]
      exact evenPart_getLsbD k

/-! RETURN (R112), and the underflow of a double pop (R79, R148). -/

/-- The events of the two pops of RETURN and RETFIE. -/
def popTwiceEvents (s : State) : Events := joinEvents (popEvents s) (popEvents (popState s))

theorem exec_ret (s : State) : exec .ret s = finish (popTwiceEvents s)
    { popState (popState s) with pc := pcOf s.dev (framePc (popValue s) (popValue (popState s))) } := rfl

/-- Two pops check W15 after each. -/
theorem popTwiceEvents_stack {s : State} (heven : (sp s).getLsbD 0 = false)
    (h : sp s - 2#16 < s.dev.stackBase ∨ sp s - 4#16 < s.dev.stackBase) : (popTwiceEvents s).stack = true := by
  have h2 : sp (popState s) = sp s - 2#16 := by rw [sp_popState, evenPart_sub_two heven]
  have heven2 : (sp s - 2#16).getLsbD 0 = false := by rw [← h2, sp_popState]; exact evenPart_getLsbD_zero _
  have h4 : sp (popState (popState s)) = sp s - 4#16 := by
    rw [sp_popState, h2, evenPart_sub_two heven2, sub_two_sub_two]
  have hlow : (stackLow (popState s) || stackLow (popState (popState s))) = true := by
    simpa [stackLow, h2, h4] using h
  have hstack (t : State) : (popEvents t).stack =
      (aboveLimit (popState t) (sp (popState t)) || decide (eaOf t.dev (sp t) < 2#16) || stackLow (popState t)) := rfl
  rw [popTwiceEvents, joinEvents, hstack, hstack]
  rcases Bool.or_eq_true_iff.1 hlow with hl | hl <;> simp [hl]

/-- Settles O12: RETURN is two pops; RETFIE raises the events of the same two pops. -/
theorem returnPopsPc : Obligations.ReturnPopsPc := by
  refine fun s => ⟨fun h2 h4 => ?_, fun t i hi heven hlow ht => ?_⟩
  · rw [exec_ret, popTwiceEvents, popEvents_twice_ram h2 h4, popValue_ram h2, popValue_second_ram h2 h4,
      popState_twice_ram h2 h4, finish_stackEvent]
    rfl
  · have hstack := popTwiceEvents_stack heven hlow
    rcases hi with rfl | rfl
    · exact finish_of_stack hstack ht rfl
    · exact finish_of_stack hstack ht rfl

/-! PUSH f and PUSH_SR (R113). -/

theorem exec_pushF {s : State} {f : DataAddr} (h : wordReadFaults s f = false) :
    exec (.pushF f) s = finishAccess (push16 s (readWord s f) false) advance quiet := by
  rw [exec, execPushF, h, addrEvent_false]

theorem execAbs_pushSr (s : State) : execAbs .pushSr s = finishAccess (push16 s s.sr false) advance quiet := rfl

/-- A push to RAM is the whole of the operation's effect. -/
theorem finishAccess_push16_ram {s : State} (v : Word) (h : ramWordAt s (sp s) = true) :
    ∃ t, finishAccess (push16 s v false) advance quiet = .next t ∧ pushes s t v := by
  obtain ⟨t, hpush, ht, -, hmem⟩ := push16_ram v h
  rw [hpush]
  generalize t.mem = m at ht
  subst ht
  exact ⟨_, finishAccess_stackEvent _ false _, rfl, hmem⟩

/-- Settles O13: both are the push of a word. -/
theorem pushStoresAtW15 : Obligations.PushStoresAtW15 := by
  refine fun s h => ⟨fun f hf => ?_, ?_⟩
  · rw [exec_pushF hf]
    exact finishAccess_push16_ram _ h
  · rw [execAbs_pushSr]
    exact finishAccess_push16_ram s.sr h

/-! POP f and POP_SR (R113). -/

theorem addr_popEvents_ram {s : State} (h : ramWordAt s (sp s - 2#16) = true) : (popEvents s).addr = false := by
  rw [popEvents_ram h]
  rfl

/-- POP f of a word of RAM. -/
theorem exec_popF_ram {s : State} (f : DataAddr) (h : ramWordAt s (sp s - 2#16) = true) :
    exec (.popF f) s = finishAccess (writeWord (popState s) f (ramWord s (sp s - 2#16))) advance
      (stackEvent (popStackError s (sp s))) := by
  rw [exec, execPopF, if_neg (by simp [addr_popEvents_ram h]), popValue_ram h, popEvents_ram h]

/-- POP_SR of a word of RAM. -/
theorem execAbs_popSr_ram {s : State} (h : ramWordAt s (sp s - 2#16) = true) :
    execAbs .popSr s = finishAccess (sfrWrite (popState s) .sr (ramWord s (sp s - 2#16)) 0xFFFF#16) advance
      (stackEvent (popStackError s (sp s))) := by
  rw [execAbs, if_neg (by simp [addr_popEvents_ram h]), popValue_ram h, popEvents_ram h]

/-- Settles O14: the store of the popped word, in the state after the pop. -/
theorem popStoresAtF : Obligations.PopStoresAtF := by
  intro s f hf h
  have hf' : ramWordAt (popState s) f = true := (ramWordAt_congr (popState_dev s) f).trans hf
  have hnext : sp s - 2#16 + 1#16 = sp s - 1#16 := by bv_omega
  have hpop (a : DataAddr) : ramRead (popState s) a = ramRead s a := ramRead_congr rfl rfl rfl a
  rw [exec_popF_ram f h, ram_write _ hf']
  refine ⟨_, finishAccess_stackEvent _ _ false, ?_, fun a => ?_⟩
  · rw [ram2_eq, popState_ram h, Bool.or_false]
    rfl
  · refine (ramRead_congr rfl rfl rfl a).trans ((ram2_read _ hf' a).trans ?_)
    rw [ramWord, lowByte_wordOfBytes, highByte_wordOfBytes, hnext, hpop]

/-- The word write of SR (42_sfr_access.md R123). -/
theorem sfrWrite_sr_word (s : State) (v : Word) : sfrWrite s .sr v 0xFFFF#16 = .ok ({ s with
    sr := mergeWrite s.sr v 0xFFFF#16 (if nstdis s then 0x000F#16 else 0x00EF#16) 0x3400#16 }, quiet) := rfl

/-- The bits of SR after its word write: writable, clear-only and read-only ones (R123). -/
theorem srWord_getLsbD (old v : Word) (locked : Bool) (b : Nat) :
    (mergeWrite old v 0xFFFF#16 (if locked then 0x000F#16 else 0x00EF#16) 0x3400#16).getLsbD b =
      if b ∈ [0, 1, 2, 3] ∨ (b ∈ [5, 6, 7] ∧ locked = false) then v.getLsbD b
      else if b ∈ [10, 12, 13] then old.getLsbD b && v.getLsbD b
      else old.getLsbD b := by
  by_cases hb : b < 16
  · rw [mergeWrite_getLsbD]
    cases locked <;> interval_cases b <;> simp
  · simp [BitVec.getLsbD_of_ge _ b (by omega : 16 ≤ b)]

/-- A word write at a register's even address is the register's write (R121). -/
theorem writeWord_sfr {s : State} {f : DataAddr} {r : Sfr} (v : Word) (heven : f.getLsbD 0 = false)
    (h : sfrAt s.dev f = some r) : writeWord s f v = sfrWrite s r v 0xFFFF#16 := by
  have hgood : wordWriteFaults s f = false := by
    rw [wordWriteFaults, heven, byteWriteFaults, dataImplemented, evenPart_of_even heven, h]
    rfl
  rw [writeWord, hgood]
  simp [h]

/-- Settles O15: POP at SR's address is POP_SR, the word write of SR in the state after the pop. -/
theorem popSrRestoresWritableBits : Obligations.PopSrRestoresWritableBits := by
  intro s h
  rw [execAbs_popSr_ram h, sfrWrite_sr_word]
  refine ⟨_, finishAccess_stackEvent _ _ false, fun f heven hf => ?_, ?_, srWord_getLsbD s.sr _ (nstdis s)⟩
  · rw [exec_popF_ram f h, writeWord_sfr (s := popState s) _ heven hf, sfrWrite_sr_word]
    exact finishAccess_stackEvent _ _ false
  · rw [popState_ram h, Bool.or_false]
    rfl

end Sys2Proof.Machine
end

section
/-! SFTAC and the MAC class (41_named_instructions.md R114, R116; 60_exceptions.md R153, R154, R156). -/

namespace Sys2Proof.Machine

/-- An operation whose events are a math error and a stack error. -/
theorem finish_stack_math (c : Bool) (bits : Word) (s : State) :
    finish (joinEvents (stackEvent c) (mathEvent bits)) s =
      .next { s with intcon1 := s.intcon1 ||| bits ||| stkerrIf c } := by
  have hjoin : joinEvents (stackEvent c) (mathEvent bits) = ⟨c, false, bits, false⟩ := by
    simp [joinEvents, stackEvent, mathEvent]
  rw [hjoin, finish_soft s rfl]

theorem finish_mathEvent (bits : Word) (s : State) :
    finish (mathEvent bits) s = .next { s with intcon1 := s.intcon1 ||| bits } := by
  rw [← joinEvents_quiet_left (mathEvent bits), quiet_eq_stackEvent, finish_stack_math, or_stkerrIf_false]

/-! Writing an accumulator. -/

theorem putAcc_getLsbD (s : State) (acc : Acc) (v : BitVec 40) (c : Bool) (b : Nat) :
    (putAcc s acc v c).sr.getLsbD b = if b = overflowStatusBit acc then c else s.sr.getLsbD b := by
  rw [putAcc_sr, setBit_getLsbD _ (by cases acc <;> decide)]

/-- A bit of SR that is no open flag and neither OA nor OB is kept by the write of an accumulator. -/
theorem putAcc_freeFlags_getLsbD (s : State) (acc : Acc) (v : BitVec 40) (c : Bool) {b : Nat}
    (hopen : openFlags.getLsbD b = false) (hb : b < 14) :
    (putAcc (freeFlags s) acc v c).sr.getLsbD b = s.sr.getLsbD b := by
  have hne : b ≠ overflowStatusBit acc := by cases acc <;> (simp only [overflowStatusBit]; omega)
  rw [putAcc_getLsbD, if_neg hne, freeFlags_getLsbD s hopen]

/-- `t` is how an instruction ends from `s` that writes the accumulator `acc` with the carries `c31` and `c39`, and whose
operand fetches raise the stack error if `stack` holds (R116). -/
def accumulates (s t : State) (acc : Acc) (c31 c39 stack : Bool) : Prop :=
  t = { s with
    pc := nextPc s
    sr := t.sr
    accA := if acc = .a then t.accA else s.accA
    accB := if acc = .b then t.accB else s.accB
    intcon1 := s.intcon1 ||| accumulatorErrors s acc c31 c39 ||| stkerrIf stack } ∧
  ipl t = ipl s ∧ t.sr.getLsbD 4 = s.sr.getLsbD 4 ∧ t.sr.getLsbD 9 = s.sr.getLsbD 9 ∧
  t.sr.getLsbD 15 = (if acc = .a then c31 else s.sr.getLsbD 15) ∧
  t.sr.getLsbD 14 = (if acc = .b then c31 else s.sr.getLsbD 14)

/-- The state after such an instruction, with the value `v`. -/
def afterAccumulator (s : State) (acc : Acc) (v : BitVec 40) (c31 c39 stack : Bool) : State :=
  { putAcc (freeFlags s) acc v c31 with
    pc := nextPc s
    intcon1 := s.intcon1 ||| accumulatorErrors s acc c31 c39 ||| stkerrIf stack }

/-- The value and the carries are free. -/
theorem writeAccumulator_eq (acc : Acc) (stack : Bool) (s : State) : writeAccumulator acc (stackEvent stack) s =
    .next (afterAccumulator s acc (Config.resultAcc s.draws) (Config.carry31 s.draws) (Config.carry39 s.draws)
      stack) := by
  rw [writeAccumulator, finish_stack_math]
  cases acc <;> rfl

/-- OA or OB follows the carry of bit 31, and the other accumulator stays. -/
theorem accumulates_afterAccumulator (s : State) (acc : Acc) (v : BitVec 40) (c31 c39 stack : Bool) :
    accumulates s (afterAccumulator s acc v c31 c39 stack) acc c31 c39 stack := by
  have hkept (b : Nat) (hopen : openFlags.getLsbD b = false) (hb : b < 14) :=
    putAcc_freeFlags_getLsbD s acc v c31 hopen hb
  have hstatus (b : Nat) (hopen : openFlags.getLsbD b = false) :
      (putAcc (freeFlags s) acc v c31).sr.getLsbD b = if b = overflowStatusBit acc then c31 else s.sr.getLsbD b := by
    rw [putAcc_getLsbD, freeFlags_getLsbD s hopen]
  refine ⟨by cases acc <;> rfl, ipl_congr fun b h5 h8 => hkept b (openFlags_ipl h5 h8) (by omega),
    hkept 4 (by decide) (by decide), hkept 9 (by decide) (by decide), (hstatus 15 (by decide)).trans ?_,
    (hstatus 14 (by decide)).trans ?_⟩
  · cases acc <;> rfl
  · cases acc <;> rfl

theorem writeAccumulator_accumulates (acc : Acc) (stack : Bool) (s : State) :
    ∃ t c31 c39, writeAccumulator acc (stackEvent stack) s = .next t ∧ accumulates s t acc c31 c39 stack :=
  ⟨_, _, _, writeAccumulator_eq acc stack s, accumulates_afterAccumulator s acc _ _ _ stack⟩

/-! SFTAC. -/

theorem exec_sftac (acc : Acc) (c : ShiftCount) (s : State) : exec (.sftac acc c) s = execSftac acc c s := rfl

theorem badShiftCount_iff (k : Int) : badShiftCount k = true ↔ 16 < k ∨ k < -16 := by
  simp [badShiftCount]

/-- Settles O16: beyond ±16 the math error alone, else the write of the accumulator. -/
theorem sftacShiftsOrTraps : Obligations.SftacShiftsOrTraps := by
  refine fun s acc c => ⟨fun hbad => ?_, fun hlow hhigh => ?_⟩
  · rw [exec_sftac, execSftac, if_pos ((badShiftCount_iff _).2 hbad)]
    exact ⟨_, finish_mathEvent _ _, rfl, keptFlags_freeFlags s⟩
  · have hgood : ¬ badShiftCount (shiftCount s c) = true := by
      rw [badShiftCount_iff]
      omega
    obtain ⟨t, c31, c39, hexec, hacc⟩ := writeAccumulator_accumulates acc false s
    rw [accumulates, or_stkerrIf_false] at hacc
    rw [exec_sftac, execSftac, if_neg hgood]
    exact ⟨t, c31, c39, hexec, hacc⟩

/-! The MAC class. -/

theorem exec_macClass (acc : Acc) (x y : Option WReg) (s : State) : exec (.macClass acc x y) s =
    writeAccumulator acc (joinEvents (optionalFetch s x false) (optionalFetch s y true)) s := rfl

/-- A fetch of the right space at a readable word raises no address error; one through W15 is checked (R79). -/
theorem optionalFetch_good {s : State} {x : Option WReg} {fromY : Bool}
    (h : ∀ p, x = some p → wordReadFaults s s.w[p] = false ∧ inYSpace s.dev s.w[p] = fromY) :
    optionalFetch s x fromY =
      stackEvent (x == some 15 && s.splimWritten && decide (s.splim < eaOf s.dev (sp s))) := by
  cases x with
  | none => rfl
  | some p =>
    obtain ⟨hread, hspace⟩ := h p rfl
    have haddr : (wordReadFaults s s.w[p] || inYSpace s.dev s.w[p] != fromY) = false := by
      rw [hread, hspace, bne_self_eq_false]
      rfl
    rw [optionalFetch, fetchEvents, haddr, addrEvent_false, joinEvents_quiet_right, baseEvents_eq]
    rfl

/-- Settles O18: with good fetches only the write of the accumulator and R79's check remain. -/
theorem macClassWritesItsAccumulator : Obligations.MacClassWritesItsAccumulator := by
  intro s acc x y hx hy
  rw [exec_macClass, optionalFetch_good hx, optionalFetch_good hy, joinEvents_stackEvent,
    ← Bool.and_or_distrib_right, ← Bool.and_or_distrib_right]
  exact writeAccumulator_accumulates acc _ s

end Sys2Proof.Machine
end

section
/-! The divide under REPEAT (41_named_instructions.md R115, 60_exceptions.md R155; log 24). -/

namespace Sys2Proof.Machine

/-- The state after one iteration with quotient `u` and remainder `v`; `goesOn` says that it is not the last of its loop. -/
def afterDivide (s : State) (n q r : WReg) (u v : Word) (goesOn : Bool) : State :=
  let results := putW (putW s q u) r v
  let zero := firstIteration s && s.w[n] == 0#16
  { setRepeatActive (freeFlags results) goesOn with
    pc := if goesOn then s.pc else nextPc s
    intcon1 := s.intcon1 ||| (if zero then divideErrorBits else 0#16) |||
      stkerrIf ((q == 15 || r == 15) && stackLow results)
    divideLoops :=
      if goesOn then ⟨sp results, s.pc, true⟩ :: endLoop s.divideLoops (sp s) s.pc
      else endLoop s.divideLoops (sp s) s.pc }

/-- The results and the end of the loop are free. -/
theorem exec_repeatDivide (m n q r : WReg) (s : State) : exec (.repeatDivide m n q r) s =
    .next (afterDivide s n q r (Config.resultWord s.draws 0) (Config.resultWord s.draws 1)
      (!Config.lastIteration s.draws)) := by
  rw [exec, execRepeatDivide, putWEvents_pair, finish_stack_math]
  cases Config.lastIteration s.draws <;> rfl

section
variable (s : State) (n q r : WReg) (u v : Word) (goesOn : Bool)

theorem afterDivide_sr : (afterDivide s n q r u v goesOn).sr = setBit (freeFlags s).sr 4 goesOn := rfl

theorem sp_afterDivide : sp (afterDivide s n q r u v goesOn) = sp (putW (putW s q u) r v) := rfl

theorem afterDivide_getLsbD (b : Nat) : (afterDivide s n q r u v goesOn).sr.getLsbD b =
    if b = 4 then goesOn else (freeFlags s).sr.getLsbD b := by
  rw [afterDivide_sr, setBit_getLsbD _ (by decide)]

/-- SR.RA says whether the loop goes on. -/
theorem afterDivide_ra : (afterDivide s n q r u v goesOn).sr.getLsbD 4 = goesOn := by
  rw [afterDivide_getLsbD, if_pos rfl]

theorem afterDivide_kept {b : Nat} (hopen : openFlags.getLsbD b = false) (hb : b ≠ 4) :
    (afterDivide s n q r u v goesOn).sr.getLsbD b = s.sr.getLsbD b := by
  rw [afterDivide_getLsbD, if_neg hb, freeFlags_getLsbD s hopen]

/-- After an iteration that is not the last, the mark of the loop says that it has begun. -/
theorem firstIteration_afterDivide : firstIteration (afterDivide s n q r u v true) = false := by
  have hmark : findLoop (afterDivide s n q r u v true).divideLoops (sp (afterDivide s n q r u v true))
      (afterDivide s n q r u v true).pc = some ⟨sp (putW (putW s q u) r v), s.pc, true⟩ :=
    findLoop_cons_same _ ⟨sp (putW (putW s q u) r v), s.pc, true⟩
  rw [firstIteration, repeatActive, afterDivide_ra, hmark]
  rfl

/-- The marks of the loops at other addresses are as before. -/
theorem findLoop_afterDivide (a : Word) {p : ProgAddr} (h : p ≠ s.pc) :
    findLoop (afterDivide s n q r u v goesOn).divideLoops a p = findLoop s.divideLoops a p := by
  have hend := findLoop_endLoop_ne s.divideLoops (sp s) a h
  cases goesOn with
  | true => exact (findLoop_cons _ _ a p h.symm).trans hend
  | false => exact hend

theorem afterDivide_w_ne {j : WReg} (hq : j ≠ q) (hr : j ≠ r) : (afterDivide s n q r u v goesOn).w[j] = s.w[j] :=
  (putW_w_ne (putW s q u) v hr).trans (putW_w_ne s u hq)

end

/-- Settles O19: an iteration is `afterDivide`, whatever the results and the end of the loop are. -/
theorem divideIteration : Obligations.DivideIteration := by
  intro s m n q r
  refine ⟨_, exec_repeatDivide m n q r s, ?_⟩
  generalize Config.resultWord s.draws 0 = u, Config.resultWord s.draws 1 = v, (!Config.lastIteration s.draws) = goesOn
  refine ⟨?_, fun hra => ?_, fun a p hp => findLoop_afterDivide s n q r u v goesOn a hp,
    fun j hq hr => afterDivide_w_ne s n q r u v goesOn hq hr,
    ipl_congr fun b h5 h8 => afterDivide_kept s n q r u v goesOn (openFlags_ipl h5 h8) (by omega),
    afterDivide_kept s n q r u v goesOn (by decide) (by decide),
    afterDivide_kept s n q r u v goesOn (by decide) (by decide)⟩
  · simp only [afterDivide_ra, sp_afterDivide]
    rfl
  · rw [afterDivide_ra] at hra
    subst hra
    exact firstIteration_afterDivide s n q r u v

end Sys2Proof.Machine
end

section
/-! MOV.D (41_named_instructions.md R117, R110; 20_memory.md R79; log 23). -/

namespace Sys2Proof.Machine

/-- The checks of R79 on the two addresses of a double word: only W15 is checked. -/
theorem doubleBaseEvents_eq (s : State) (p : WReg) : doubleBaseEvents s p = stackEvent (p == 15 &&
    ((s.splimWritten && (decide (s.splim < eaOf s.dev (sp s)) || decide (s.splim < eaOf s.dev (sp s + 2#16)))) ||
      decide (lastWord s.dev ≤ eaOf s.dev (sp s)))) := by
  rw [doubleBaseEvents, baseEvents, baseEvents, joinEvents_stackEvent, joinEvents_stackEvent]
  by_cases h : p = 15
  · subst h
    simp only [Bool.and_or_distrib_left, Bool.or_assoc]
    rfl
  · have hne : (p == 15) = false := by simp [h]
    rw [decide_eq_false h, hne]
    simp

/-! The load of a register pair. -/

theorem pairNext_val {d : WReg} (h : d.val < 15) : (pairNext d).val = d.val + 1 := by
  revert d
  decide

/-- Of the registers of a pair, only the second can be W15. -/
theorem pair_stack {d : WReg} (h : d.val < 15) : (d == 15 || pairNext d == 15) = (d == 14) := by
  revert d
  decide

theorem exec_movD_load (p d : WReg) (psv : Bool) (s : State) : exec (.movD (.load p d psv)) s =
    loadDouble p d psv s := rfl

/-- The state after a load of `u` and `v`, where `stack` says that an address is not within the stack's bounds. -/
def afterLoadDouble (s : State) (d : WReg) (u v : Word) (stack : Bool) : State :=
  let pair := putW (putW s d u) (pairNext d) v
  { freeFlags pair with
    pc := nextPc s
    intcon1 := s.intcon1 ||| stkerrIf (stack || (d == 14 && stackLow pair)) }

/-- A load without an address error. -/
theorem loadDouble_good {s : State} {p d : WReg} {psv stack : Bool} (hd : d.val < 15)
    (hread : doubleReadFaults s s.w[p] psv = false) (hstack : doubleBaseEvents s p = stackEvent stack) :
    loadDouble p d psv s =
      .next (afterLoadDouble s d (Config.resultWord s.draws 0) (Config.resultWord s.draws 1) stack) := by
  rw [loadDouble, hread, addrEvent_false, joinEvents_quiet_right, hstack, putWEvents_pair, pair_stack hd,
    joinEvents_stackEvent, finish_stackEvent]
  rfl

/-- The word reads of a load raise no address error: of data space, or through PSV at an even address. -/
theorem doubleReadFaults_good {s : State} {ea : DataAddr} {psv : Bool}
    (hdata : psv = false → wordReadFaults s ea = false ∧ wordReadFaults s (ea + 2#16) = false)
    (hpsv : psv = true → ea.getLsbD 0 = false) : doubleReadFaults s ea psv = false := by
  cases psv with
  | true => exact hpsv rfl
  | false =>
    obtain ⟨hlow, hhigh⟩ := hdata rfl
    rw [doubleReadFaults, hlow, hhigh]
    rfl

/-- Settles O20: `afterLoadDouble`, with R79's checks on an address from W15. -/
theorem movDLoadWritesItsPair : Obligations.MovDLoadWritesItsPair := by
  intro s p d psv hd hdata hpsv
  have hload := loadDouble_good hd (doubleReadFaults_good hdata hpsv) (doubleBaseEvents_eq s p)
  refine ⟨_, (exec_movD_load p d psv s).trans hload, rfl, fun j hj hnext => ?_, keptFlags_freeFlags s⟩
  have hfirst : j ≠ d := fun e => hj (congrArg Fin.val e)
  have hsecond : j ≠ pairNext d := fun e => hnext ((congrArg Fin.val e).trans (pairNext_val hd))
  exact (putW_w_ne (putW s d _) _ hsecond).trans (putW_w_ne s _ hfirst)

/-! The store of a register pair. -/

theorem exec_movD_store (src p : WReg) (s : State) : exec (.movD (.store src p)) s = storeDouble p s := rfl

/-- A word write to RAM stores two bytes. -/
theorem writeWord_ram {s : State} {a : DataAddr} (v : Word) (h : ramWordAt s a = true) :
    ∃ t, writeWord s a v = .ok (t, quiet) ∧ t = { s with mem := t.mem } ∧
      ∀ c, c ≠ a → c ≠ a + 1#16 → ramRead t c = ramRead s c := by
  refine ⟨_, ram_write v h, ram2_eq _ _ _ _ _, fun c h0 h1 => ?_⟩
  rw [ram2_read v h, if_neg h0, if_neg h1]

/-- Two word writes to RAM store four bytes. -/
theorem writeDouble_ram {s : State} {a : DataAddr} (u v : Word) (h : ramWordAt s a = true)
    (h2 : ramWordAt s (a + 2#16) = true) : ∃ t, writeDouble s a u v = .ok (t, quiet) ∧ t = { s with mem := t.mem } ∧
      ∀ c, c ≠ a → c ≠ a + 1#16 → c ≠ a + 2#16 → c ≠ a + 3#16 → ramRead t c = ramRead s c := by
  obtain ⟨s1, hwrite1, hs1, hmem1⟩ := writeWord_ram u h
  have hsecond : ramWordAt s1 (a + 2#16) = true := (ramWordAt_congr (by rw [hs1]) _).trans h2
  obtain ⟨t, hwrite2, ht, hmem2⟩ := writeWord_ram v hsecond
  have hthird : a + 2#16 + 1#16 = a + 3#16 := by bv_omega
  rw [hthird] at hmem2
  refine ⟨t, ?_, ?_, fun c h0 h1 h2 h3 => (hmem2 c h2 h3).trans (hmem1 c h0 h1)⟩
  · simp only [writeDouble, hwrite1, hwrite2, joinEvents_quiet_left]
  · rw [hs1] at ht
    exact ht

/-- A double word of RAM does not reach the end of data space, so that the check of its second address covers both. -/
theorem doubleBaseEvents_ram {s : State} {p : WReg} (h : ramWordAt s s.w[p] = true)
    (h2 : ramWordAt s (s.w[p] + 2#16) = true) : doubleBaseEvents s p =
      stackEvent (p == 15 && s.splimWritten && decide (s.splim < sp s + 2#16)) := by
  rw [doubleBaseEvents_eq]
  by_cases hp : p = 15
  · subst hp
    obtain ⟨-, -, heven⟩ := ramWordAt_bounds h
    obtain ⟨-, hlow, -⟩ := ramWordAt_bounds h2
    have hsp : (s.w[(15 : WReg)] : Word) = sp s := rfl
    rw [hsp] at heven hlow
    have hend : ¬ lastWord s.dev ≤ sp s := by
      rw [lastWord, eaOf_of_ram h]
      bv_omega
    have hboth : (decide (s.splim < sp s) || decide (s.splim < sp s + 2#16)) = decide (s.splim < sp s + 2#16) := by
      rw [← Bool.decide_or, decide_eq_decide]
      bv_omega
    rw [eaOf_of_ram h, eaOf_of_ram h, decide_eq_false hend, hboth, Bool.or_false, ← Bool.and_assoc]
  · have hne : (p == 15) = false := by simp [hp]
    simp [hne]

/-- Settles O21: no address error, then the four bytes. -/
theorem movDStoreWritesFourBytes : Obligations.MovDStoreWritesFourBytes := by
  intro s src p hsrc h h2
  obtain ⟨-, -, hw⟩ := ram_reads h
  obtain ⟨-, -, hw2⟩ := ram_reads h2
  obtain ⟨t, hwrite, ht, hmem⟩ := writeDouble_ram (s := freeFlags s) (Config.resultWord s.draws 0)
    (Config.resultWord s.draws 1) h h2
  rw [exec_movD_store, storeDouble, hw, hw2, hwrite, doubleBaseEvents_ram h h2]
  generalize t.mem = m at ht
  subst ht
  refine ⟨_, finishAccess_stackEvent _ _ false, ?_, keptFlags_freeFlags s, hmem⟩
  rw [Bool.or_false]
  rfl

end Sys2Proof.Machine
end

section
/-! BTSC and BTSS (41_named_instructions.md R117; log 26). -/

namespace Sys2Proof.Machine

theorem exec_bitTest {i : Instr} {src : BitSource} {b : BitVec 4} (h : i = .btsc src b ∨ i = .btss src b) (s : State) :
    exec i s = bitTestSkip src s := by
  rcases h with rfl | rfl <;> rfl

/-- The address of the next operation, or of the one after it. -/
def skipTarget (s : State) (skip : Bool) : ProgAddr :=
  if skip then pcOf s.dev (nextPc s + BitVec.ofNat 23 (2 * wordsAt s (nextPc s))) else nextPc s

/-- A bit test without an address error. -/
theorem bitTestSkip_good {s : State} {src : BitSource} {stack : Bool} (h : bitSourceEvents s src = stackEvent stack) :
    bitTestSkip src s = .next { freeFlags s with
      pc := skipTarget s (Config.skips s.draws)
      intcon1 := s.intcon1 ||| stkerrIf stack } := by
  rw [bitTestSkip, h, finish_stackEvent]
  rfl

theorem skipTarget_cases (s : State) (skip : Bool) : skipTarget s skip = nextPc s ∨
    skipTarget s skip = pcOf s.dev (nextPc s + BitVec.ofNat 23 (2 * wordsAt s (nextPc s))) := by
  cases skip with
  | true => exact .inr rfl
  | false => exact .inl rfl

/-- A readable source raises no address error; one through W15 is checked (R79). -/
theorem bitSourceEvents_good {s : State} {src : BitSource} (hfile : ∀ f, src = .file f → wordReadFaults s f = false)
    (hindirect : ∀ p, src = .indirect p → wordReadFaults s s.w[p] = false)
    (hpsv : ∀ p, src = .psv p → (s.w[p]).getLsbD 0 = false) :
    bitSourceEvents s src = stackEvent ((src == .indirect 15 || src == .psv 15) && s.splimWritten &&
      decide (s.splim < eaOf s.dev (sp s))) := by
  cases src with
  | file f =>
    rw [bitSourceEvents, hfile f rfl]
    rfl
  | indirect p =>
    have hsrc : (BitSource.indirect p == .indirect 15 || BitSource.indirect p == .psv 15) = (p == 15) := by
      rw [Bool.eq_iff_iff]
      simp
    rw [bitSourceEvents, hindirect p rfl, addrEvent_false, joinEvents_quiet_right, baseEvents_eq, hsrc]
  | psv p =>
    have hsrc : (BitSource.psv p == .indirect 15 || BitSource.psv p == .psv 15) = (p == 15) := by
      rw [Bool.eq_iff_iff]
      simp
    rw [bitSourceEvents, hpsv p rfl, addrEvent_false, joinEvents_quiet_right, baseEvents_eq, hsrc]

theorem wordsAt_instr {s : State} {a : ProgAddr} {j : Instr} (h : progAt s a = some (.instr j)) :
    wordsAt s a = j.length := by
  rw [wordsAt, h]

/-- A word of GOTO's row is the first of two (30_encoding.md R92). -/
theorem wordsAt_goto {s : State} {a : ProgAddr} {w : ProgWord} (h : progAt s a = some (.word w))
    (hw : w &&& 0xFF0001#24 = 0x040000#24) : wordsAt s a = 2 := by
  have hdecode : decode w (some 0#24) = .ok (.goto (gotoTarget w 0#24)) :=
    EncodingRow.decode_of_matches (r := .goto) (some 0#24) hw
  rw [wordsAt, h]
  simp only [hdecode]
  rfl

/-- Settles O22: flags and pc, with R79's check on an address from W15. -/
theorem bitTestSkips : Obligations.BitTestSkips := by
  intro s i src b hi hfile hindirect hpsv
  have hexec := (exec_bitTest hi s).trans (bitTestSkip_good (bitSourceEvents_good hfile hindirect hpsv))
  exact ⟨_, hexec, rfl, keptFlags_freeFlags s, skipTarget_cases s _, fun _ => wordsAt_instr, fun _ => wordsAt_goto⟩

end Sys2Proof.Machine
end

section
/-! Bit manipulation with indirect addressing (41_named_instructions.md R119; log 28), and how an operation ends that raises
the address error (60_exceptions.md R146, R150). -/

namespace Sys2Proof.Machine

/-! The address error of an operation. -/

/-- With R134's levels only the oscillator failure stands above the address error. -/
theorem higherTrapPending_addressError {s : State} (h : trapLevelsOrdered s.dev = true) :
    higherTrapPending s .addressError = s.intcon1.getLsbD 1 := by
  simp only [trapLevelsOrdered, Bool.and_eq_true, decide_eq_true_eq] at h
  obtain ⟨⟨⟨⟨-, hmath⟩, hstack⟩, hosc⟩, -⟩ := h
  have hbelow : ¬ s.dev.levelAddressError < s.dev.levelMathError := by omega
  have hstack' : ¬ s.dev.levelAddressError < s.dev.levelStackError := by omega
  simp [higherTrapPending, trapsByLevel, trapLevel, hosc, hbelow, hstack', trapPending, trapFlagBit]

/-- The answers of R146 depend on the device, the CPU priority level and the greater traps that are pending. -/
theorem trapAnswers_congr {s u : State} {t : Trap} (hdev : u.dev = s.dev) (hlevel : cpuIPL u = cpuIPL s)
    (hpending : higherTrapPending u t = higherTrapPending s t) :
    (admitsTrap u t ↔ admitsTrap s t) ∧ (conflicts u t ↔ conflicts s t) ∧
    (meetsOwnHandler u t ↔ meetsOwnHandler s t) := by
  simp only [admitsTrap_iff, conflicts_iff, meetsOwnHandler_iff, hdev, hlevel, hpending, and_self]

/-- An operation from `s` that raises the address error, with effect `u` and soft events that set no flag of a greater trap:
the three answers of R146 in `s`. -/
theorem finish_addressError {s u : State} {e : Events} (haddr : e.addr = true) (hmath : e.math.getLsbD 1 = false)
    (hordered : trapLevelsOrdered s.dev = true) (hdev : u.dev = s.dev) (hlevel : cpuIPL u = cpuIPL s)
    (hintcon1 : u.intcon1 = s.intcon1) :
    (admitsTrap s .addressError → finish e u = .next { u with
      badFetch := e.fetch
      intcon1 := s.intcon1 ||| 0x0008#16 ||| e.math ||| stkerrIf e.stack }) ∧
    (conflicts s .addressError → ∃ t, finish e u = .next t ∧ t.traprSet = true ∧ t.pc = resetPc s.dev) ∧
    (meetsOwnHandler s .addressError → finish e u = .fault (.hardTrapInOwnHandler .addressError)) := by
  have hfinish : finish e u = raiseHard .addressError (markFetch e.fetch (raiseSoft e u)) := by
    rw [finish, if_pos haddr]
  have hordered' : trapLevelsOrdered (markFetch e.fetch (raiseSoft e u)).dev = true := by
    rw [markFetch_dev, raiseSoft_dev, hdev]
    exact hordered
  have hosc : (raiseSoft e u).intcon1.getLsbD 1 = s.intcon1.getLsbD 1 := by
    have hstk : (if e.stack then 0x0004#16 else 0#16).getLsbD 1 = false := by cases e.stack <;> rfl
    rw [raiseSoft_intcon1, hintcon1, BitVec.getLsbD_or, BitVec.getLsbD_or, hmath, hstk, Bool.or_false, Bool.or_false]
  have hpending : higherTrapPending (markFetch e.fetch (raiseSoft e u)) .addressError =
      higherTrapPending s .addressError := by
    rw [higherTrapPending_addressError hordered, higherTrapPending_addressError hordered']
    exact hosc
  obtain ⟨hadmits, hconflicts, hmeets⟩ :=
    trapAnswers_congr (u := markFetch e.fetch (raiseSoft e u)) hdev hlevel hpending
  rw [hfinish]
  refine ⟨fun h => ?_, fun h => ?_, fun h => raiseHard_of_meetsOwnHandler (hmeets.2 h)⟩
  · have hflag : setBit (s.intcon1 ||| e.math ||| stkerrIf e.stack) 3 true =
        s.intcon1 ||| 0x0008#16 ||| e.math ||| stkerrIf e.stack := by
      have hbit : 1#16 <<< 3 = 0x0008#16 := rfl
      rw [setBit, if_pos rfl, hbit]
      ac_rfl
    rw [raiseHard_of_admitsTrap (hadmits.2 h), ← hflag, ← hintcon1]
    rfl
  · exact ⟨_, raiseHard_of_conflicts (hconflicts.2 h), rfl, congrArg resetPc hdev⟩

/-! The bit manipulation. -/

theorem exec_bitIndirect (op : BitOp) (p : WReg) (b : BitVec 4) (s : State) :
    exec (.bitIndirect op p b) s = execBitIndirect op p b s := rfl

/-- Beside its bit a manipulation changes free flags alone, and set and clear not even those (log 28). -/
theorem bitOpFlags_cases (s : State) (op : BitOp) : ∃ f, bitOpFlags s op = { s with sr := f } ∧
    keptFlags s { s with sr := f } ∧ (op ≠ .other → f = s.sr) := by
  cases op with
  | set => exact ⟨s.sr, rfl, keptFlags_refl s, fun _ => rfl⟩
  | clear => exact ⟨s.sr, rfl, keptFlags_refl s, fun _ => rfl⟩
  | other => exact ⟨(freeFlags s).sr, rfl, keptFlags_freeFlags s, fun h => absurd rfl h⟩

/-- The CPU priority level is no flag. -/
theorem cpuIPL_of_keptFlags {s t : State} (h : keptFlags s t) (hcorcon : t.corcon = s.corcon) :
    cpuIPL t = cpuIPL s := by
  obtain ⟨hipl, -⟩ := h
  rw [cpuIPL, cpuIPL, hipl, ipl3, ipl3, hcorcon]

theorem execBitIndirect_odd {s : State} {op : BitOp} {p : WReg} {b : BitVec 4} (h : (s.w[p]).getLsbD 0 = true) :
    execBitIndirect op p b s = finish (joinEvents (stackEvent (p == 15 && s.splimWritten &&
      decide (s.splim < eaOf s.dev (sp s)))) (addrEvent true)) (advance (bitOpFlags s op)) := by
  rw [execBitIndirect, if_pos h, baseEvents_eq]

/-- Settles O23: the address error with the flags of the manipulation, and R79's check on an address from W15. -/
theorem indirectBitAtOddAddressTraps : Obligations.IndirectBitAtOddAddressTraps := by
  intro s op p b hodd hordered
  obtain ⟨f, hflags, hkept, hnamed⟩ := bitOpFlags_cases s op
  rw [exec_bitIndirect, execBitIndirect_odd hodd, hflags]
  generalize (p == 15 && s.splimWritten && decide (s.splim < eaOf s.dev (sp s))) = stack
  have hjoin : joinEvents (stackEvent stack) (addrEvent true) = ⟨stack, true, 0#16, false⟩ := by
    simp [joinEvents, stackEvent, addrEvent]
  have hlevel : cpuIPL (advance { s with sr := f }) = cpuIPL s := cpuIPL_of_keptFlags hkept rfl
  obtain ⟨hadmits, hanswers⟩ := finish_addressError (s := s) (u := advance { s with sr := f })
    (e := ⟨stack, true, 0#16, false⟩) rfl BitVec.getLsbD_zero hordered rfl hlevel rfl
  rw [hjoin]
  refine ⟨fun h => ⟨_, hadmits h, ?_, hkept, hnamed⟩, hanswers⟩
  rw [BitVec.or_zero]
  rfl

/-- Settles O24: `modifyBit` at RAM, with the flags of the manipulation. -/
theorem indirectBitInRam : Obligations.IndirectBitInRam := by
  intro s op p b h
  obtain ⟨heven, -, -⟩ := ramWordAt_bounds h
  obtain ⟨f, hflags, hkept, hnamed⟩ := bitOpFlags_cases s op
  obtain ⟨t, hmodify, ht, hbits⟩ := modifyBit_ram_reads (s := { s with sr := f }) b (bitOpValue s op) h
  rw [exec_bitIndirect, execBitIndirect, if_neg (ne_true_of_eq_false heven), hflags, hmodify, baseEvents_eq,
    eaOf_of_ram h]
  generalize t.mem = m at ht
  subst ht
  refine ⟨_, bitOpValue s op, finishAccess_stackEvent _ _ false, ?_, ?_, ?_, hkept, hbits⟩
  · rintro rfl
    exact ⟨rfl, hnamed (by decide)⟩
  · rintro rfl
    exact ⟨rfl, hnamed (by decide)⟩
  · rw [Bool.or_false]
    rfl

end Sys2Proof.Machine
end

section
/-! Status that operations do not set (41_named_instructions.md R110 item 5; 42_sfr_access.md R124, R128; 60_exceptions.md
R171): IPL3, the latch of DISI, and INTTREG. An access keeps the status, and a result keeps it or is the state of a device
reset. One lemma per operation composes. -/

namespace Sys2Proof.Machine

/-- From `s` to `t` neither IPL3 nor the latch of DISI is set, and INTTREG is as before. -/
structure StatusKept (s t : State) : Prop where
  keepsIpl3 : ipl3 t = true → ipl3 s = true
  keepsDisi : t.disiActive = true → s.disiActive = true
  keepsInttreg : t.inttreg = s.inttreg

theorem StatusKept.of_eq {s t : State} (hcorcon : t.corcon = s.corcon) (hdisi : t.disiActive = s.disiActive)
    (hinttreg : t.inttreg = s.inttreg) : StatusKept s t where
  keepsIpl3 h := by rw [ipl3, ← hcorcon]; exact h
  keepsDisi h := hdisi ▸ h
  keepsInttreg := hinttreg

theorem StatusKept.refl (s : State) : StatusKept s s := .of_eq rfl rfl rfl

theorem StatusKept.trans {s t u : State} (hst : StatusKept s t) (htu : StatusKept t u) : StatusKept s u where
  keepsIpl3 h := hst.keepsIpl3 (htu.keepsIpl3 h)
  keepsDisi h := hst.keepsDisi (htu.keepsDisi h)
  keepsInttreg := htu.keepsInttreg.trans hst.keepsInttreg

theorem statusKept_ramWrite (s : State) (a : DataAddr) (b : Byte) : StatusKept s (ramWrite s a b) :=
  .of_eq (ramWrite_corcon s a b) (ramWrite_disiActive s a b) (ramWrite_inttreg s a b)

theorem statusKept_putAcc (s : State) (acc : Acc) (v : BitVec 40) (c : Bool) : StatusKept s (putAcc s acc v c) :=
  .of_eq (putAcc_corcon s acc v c) (putAcc_disiActive s acc v c) (putAcc_inttreg s acc v c)

theorem statusKept_beginLoop (s : State) : StatusKept s (beginLoop s) :=
  .of_eq (beginLoop_corcon s) (beginLoop_disiActive s) (beginLoop_inttreg s)

theorem statusKept_bitOpFlags (s : State) (op : BitOp) : StatusKept s (bitOpFlags s op) := by
  obtain ⟨f, hflags, -⟩ := bitOpFlags_cases s op
  rw [hflags]
  exact .of_eq rfl rfl rfl

/-- An access from `s` that is not refused keeps the status. -/
def AccessKeepsStatus (s : State) (r : Except Refusal (State × Events)) : Prop :=
  ∀ t e, r = .ok (t, e) → StatusKept s t

/-- The state of a device reset (70_reset_and_hazards.md R200). -/
def IsReset (t : State) : Prop := ∃ c u, t = deviceReset c u

/-- A result from `s` that is a next state keeps the status or is a device reset. -/
def ResultKeepsStatus (s : State) (r : Res) : Prop := ∀ t, r = .next t → StatusKept s t ∨ IsReset t

theorem accessKeepsStatus_ok {s t : State} {e : Events} (h : StatusKept s t) : AccessKeepsStatus s (.ok (t, e)) := by
  intro u f hu
  cases hu
  exact h

theorem accessKeepsStatus_of_kept {s s1 : State} {r : Except Refusal (State × Events)} (h : StatusKept s s1)
    (hr : AccessKeepsStatus s1 r) : AccessKeepsStatus s r :=
  fun t e ht => h.trans (hr t e ht)

theorem resultKeepsStatus_next {s t : State} (h : StatusKept s t) : ResultKeepsStatus s (.next t) := by
  intro u hu
  cases hu
  exact .inl h

/-- The trap events of an operation set flags of INTCON1, or reset the device. -/
theorem resultKeepsStatus_finish {s t : State} (e : Events) (h : StatusKept s t) : ResultKeepsStatus s (finish e t) := by
  intro u hu
  rcases finish_cases hu with ⟨-, rfl⟩ | ⟨-, hraise⟩
  · exact .inl (h.trans (.of_eq rfl rfl rfl))
  · rcases raiseHard_cases hraise with ⟨-, rfl⟩ | ⟨-, -, rfl⟩
    · exact .inr ⟨_, _, rfl⟩
    · exact .inl (h.trans (.of_eq rfl rfl rfl))

theorem resultKeepsStatus_finishAccess {s : State} {r : Except Refusal (State × Events)} {after : State → State}
    (e : Events) (hr : AccessKeepsStatus s r) (hafter : ∀ t, StatusKept t (after t)) :
    ResultKeepsStatus s (finishAccess r after e) := by
  intro u hu
  obtain ⟨t, f, hok, hf⟩ := finishAccess_cases hu
  exact resultKeepsStatus_finish _ ((hr t f hok).trans (hafter t)) u hf

/-- An operation of one program word whose effect is an access. -/
theorem resultKeepsStatus_access {s : State} {r : Except Refusal (State × Events)} (e : Events)
    (hr : AccessKeepsStatus s r) : ResultKeepsStatus s (finishAccess r advance e) :=
  resultKeepsStatus_finishAccess e hr (fun _ => .of_eq rfl rfl rfl)

/-! The accesses. -/

/-- CORCON.IPL3 is clear-only (R124). -/
theorem statusKept_corconWrite (s : State) (v sel : Word) :
    StatusKept s { s with corcon := mergeWrite s.corcon v sel 0x18F7#16 0x0008#16 } where
  keepsIpl3 h := by
    rw [ipl3, mergeWrite_getLsbD, Bool.and_eq_true] at h
    exact h.1
  keepsDisi h := h
  keepsInttreg := rfl

/-- A write of DISICNT is dropped while DISI is not active (R126). -/
theorem statusKept_writeDisicnt (s : State) (v : DisiCount) : StatusKept s (writeDisicnt s v) := by
  rw [writeDisicnt]
  split
  · rename_i hactive
    exact ⟨fun h => h, fun _ => hactive, rfl⟩
  · exact .refl s

theorem accessKeepsStatus_sfrWrite (s : State) (r : Sfr) (v sel : Word) : AccessKeepsStatus s (sfrWrite s r v sel) := by
  cases r with
  | corcon => exact accessKeepsStatus_ok (statusKept_corconWrite s v sel)
  | disicnt => exact accessKeepsStatus_ok (statusKept_writeDisicnt s _)
  | intcon1 =>
    rw [sfrWrite]
    split
    · exact accessKeepsStatus_ok (.of_eq rfl rfl rfl)
    · exact fun t e ht => nomatch ht
  | ipc x =>
    rw [sfrWrite]
    split
    · exact fun t e ht => nomatch ht
    · exact accessKeepsStatus_ok (.of_eq rfl rfl rfl)
  | w | splim | sr | intcon2 | inttreg | rcon | osccon | ifs | iec => exact accessKeepsStatus_ok (.of_eq rfl rfl rfl)

theorem accessKeepsStatus_writeWord (s : State) (a : DataAddr) (v : Word) : AccessKeepsStatus s (writeWord s a v) := by
  intro t e hw
  rcases writeWord_cases hw with ⟨-, rfl, -⟩ | ⟨-, r, -, hr⟩ | ⟨-, -, -, rfl⟩
  · exact .refl t
  · exact accessKeepsStatus_sfrWrite s r _ _ t e hr
  · exact (statusKept_ramWrite s _ _).trans (statusKept_ramWrite _ _ _)

theorem accessKeepsStatus_writeByte (s : State) (a : DataAddr) (v : Byte) : AccessKeepsStatus s (writeByte s a v) := by
  intro t e hw
  rcases writeByte_cases hw with ⟨-, rfl, -⟩ | ⟨-, r, -, hr⟩ | ⟨-, -, -, rfl⟩
  · exact .refl t
  · exact accessKeepsStatus_sfrWrite s r _ _ t e hr
  · exact statusKept_ramWrite s _ _

theorem accessKeepsStatus_modifyBit (s : State) (f : DataAddr) (b : BitVec 4) (v : Bool) :
    AccessKeepsStatus s (modifyBit s f b v) := by
  intro t e hw
  rcases modifyBit_cases hw with ⟨r, -, hr⟩ | ⟨rfl, -⟩ | ⟨a, u, hr⟩
  · exact accessKeepsStatus_sfrWrite s r _ _ t e hr
  · exact .refl t
  · exact accessKeepsStatus_writeByte s a u t e hr

theorem accessKeepsStatus_push16 (s : State) (v : Word) (inhibit : Bool) :
    AccessKeepsStatus s (push16 s v inhibit) := by
  intro t e hp
  rcases push16_cases hp with ⟨-, rfl⟩ | ⟨-, s1, e1, hw, rfl⟩
  · exact .of_eq rfl rfl rfl
  · exact (accessKeepsStatus_writeWord s _ _ s1 e1 hw).trans (.of_eq rfl rfl rfl)

theorem accessKeepsStatus_writeDouble (s : State) (ea : DataAddr) (u v : Word) :
    AccessKeepsStatus s (writeDouble s ea u v) := by
  intro t e hw
  unfold writeDouble at hw
  split at hw
  · cases hw
  · rename_i s1 e1 hw1
    split at hw
    · cases hw
    · rename_i s2 e2 hw2
      cases hw
      exact (accessKeepsStatus_writeWord s _ _ s1 e1 hw1).trans (accessKeepsStatus_writeWord s1 _ _ _ e2 hw2)

/-! The actions of an instruction of the surrounding instruction set (R110). -/

/-- A data-space write of an action, which an address error of its instruction inhibits (60_exceptions.md R151). -/
theorem accessKeepsStatus_actionWrite {s : State} {r : Except Refusal (State × Events)} (inhibit : Bool) (e : Events)
    (hr : AccessKeepsStatus s r) : AccessKeepsStatus s (withEvents e (if inhibit then .ok (s, quiet) else r)) := by
  cases inhibit with
  | true => exact accessKeepsStatus_ok (.refl s)
  | false =>
    cases r with
    | error x => exact fun t f ht => nomatch ht
    | ok p => exact accessKeepsStatus_ok (hr p.1 p.2 rfl)

theorem accessKeepsStatus_runAction (inhibit : Bool) (s : State) (a : Action) :
    AccessKeepsStatus s (runAction inhibit s a) := by
  cases a with
  | writeWord a v base => exact accessKeepsStatus_actionWrite inhibit _ (accessKeepsStatus_writeWord s a v)
  | writeByte a v base => exact accessKeepsStatus_actionWrite inhibit _ (accessKeepsStatus_writeByte s a v)
  | bitIndirect a b v base => exact accessKeepsStatus_actionWrite inhibit _ (accessKeepsStatus_modifyBit s a b v)
  | writeAcc acc v c31 c39 => exact accessKeepsStatus_ok (statusKept_putAcc s acc v c31)
  | setW | setFlags | readWord | readByte | divideByZero | badShift | jump =>
    exact accessKeepsStatus_ok (.of_eq rfl rfl rfl)

theorem accessKeepsStatus_runActions (inhibit : Bool) (as : List Action) (s : State) (e : Events) :
    AccessKeepsStatus s (runActions inhibit as s e) := by
  induction as generalizing s e with
  | nil => exact accessKeepsStatus_ok (.refl s)
  | cons a as ih =>
    rw [runActions]
    split
    · exact fun t f ht => nomatch ht
    · rename_i s1 e1 ha
      exact accessKeepsStatus_of_kept (accessKeepsStatus_runAction inhibit s a s1 e1 ha) (ih s1 _)

/-! The operations of 30_encoding.md R91 that are no rows of the opcode table. -/

theorem resultKeepsStatus_execOther (k : Nat) (s : State) : ResultKeepsStatus s (execOther k s) := by
  have hbegin : StatusKept s (beginLoop (advanceBy (absLength (.other k)) s)) :=
    .trans (t := advanceBy (absLength (.other k)) s) (.of_eq rfl rfl rfl) (statusKept_beginLoop _)
  exact resultKeepsStatus_finishAccess _ (accessKeepsStatus_of_kept hbegin (accessKeepsStatus_runActions _ _ _ _))
    StatusKept.refl

/-- A pop whose word is written somewhere, or not (60_exceptions.md R151). -/
theorem resultKeepsStatus_popThen {s : State} {r : Except Refusal (State × Events)}
    (hr : AccessKeepsStatus (popState s) r) :
    ResultKeepsStatus s (if (popEvents s).addr then finish (popEvents s) (advance (popState s))
      else finishAccess r advance (popEvents s)) := by
  have hpop : StatusKept s (popState s) := .of_eq rfl rfl rfl
  split
  · exact resultKeepsStatus_finish _ (hpop.trans (.of_eq rfl rfl rfl))
  · exact resultKeepsStatus_access _ (accessKeepsStatus_of_kept hpop hr)

theorem resultKeepsStatus_execAbs (o : AbsOp) (s : State) : ResultKeepsStatus s (execAbs o s) := by
  cases o with
  | sfrRead r => exact resultKeepsStatus_next (.of_eq rfl rfl rfl)
  | sfrWrite | sfrWriteByte | sfrBset | sfrBclr | field =>
    exact resultKeepsStatus_access _ (accessKeepsStatus_sfrWrite s _ _ _)
  | pushSr => exact resultKeepsStatus_access _ (accessKeepsStatus_push16 s _ _)
  | popSr => exact resultKeepsStatus_popThen (accessKeepsStatus_sfrWrite _ .sr _ _)
  | other k => exact resultKeepsStatus_execOther k s

/-! The instructions. RETFIE sets IPL3 and DISI its latch, and nothing else of the status: each keeps the status of a state
that differs from the first one in that alone. -/

theorem resultKeepsStatus_writeAccumulator (acc : Acc) (e : Events) (s : State) :
    ResultKeepsStatus s (writeAccumulator acc e s) := by
  have hflags : StatusKept s (freeFlags s) := .of_eq rfl rfl rfl
  exact resultKeepsStatus_finish _ ((hflags.trans (statusKept_putAcc _ acc _ _)).trans (.of_eq rfl rfl rfl))

theorem resultKeepsStatus_execSftac (acc : Acc) (c : ShiftCount) (s : State) :
    ResultKeepsStatus s (execSftac acc c s) := by
  rw [execSftac]
  split
  · exact resultKeepsStatus_finish _ (.of_eq rfl rfl rfl)
  · exact resultKeepsStatus_writeAccumulator acc quiet s

theorem resultKeepsStatus_execMovD (form : DoubleForm) (s : State) : ResultKeepsStatus s (execMovD form s) := by
  cases form with
  | load p d psv => exact resultKeepsStatus_finish _ (.of_eq rfl rfl rfl)
  | store r p =>
    rw [execMovD, storeDouble]
    split
    · exact resultKeepsStatus_finish _ (.of_eq rfl rfl rfl)
    · have hflags : StatusKept s (freeFlags s) := .of_eq rfl rfl rfl
      exact resultKeepsStatus_access _
        (accessKeepsStatus_of_kept hflags (accessKeepsStatus_writeDouble (freeFlags s) _ _ _))

theorem resultKeepsStatus_execBitIndirect (op : BitOp) (p : WReg) (b : BitVec 4) (s : State) :
    ResultKeepsStatus s (execBitIndirect op p b s) := by
  have hflags := statusKept_bitOpFlags s op
  rw [execBitIndirect]
  split
  · exact resultKeepsStatus_finish _ (hflags.trans (.of_eq rfl rfl rfl))
  · exact resultKeepsStatus_access _ (accessKeepsStatus_of_kept hflags (accessKeepsStatus_modifyBit _ _ b _))

theorem resultKeepsStatus_exec_retfie (s : State) :
    ∃ c, ResultKeepsStatus { s with corcon := c } (exec .retfie s) :=
  ⟨_, resultKeepsStatus_finish _ (.of_eq rfl rfl rfl)⟩

theorem resultKeepsStatus_exec_disi (k : DisiCount) (s : State) :
    ResultKeepsStatus (loadDisicnt s k) (exec (.disi k) s) :=
  resultKeepsStatus_next (.of_eq rfl rfl rfl)

theorem resultKeepsStatus_exec {i : Instr} (hretfie : i ≠ .retfie) (hdisi : ∀ k, i ≠ .disi k) (s : State) :
    ResultKeepsStatus s (exec i s) := by
  cases i with
  | retfie => exact absurd rfl hretfie
  | disi k => exact absurd rfl (hdisi k)
  | nop | pwrsav => exact resultKeepsStatus_next (.of_eq rfl rfl rfl)
  | reset =>
    intro t ht
    cases ht
    exact .inr ⟨_, _, rfl⟩
  | ret | goto | bra | movFromF | btsc | btss => exact resultKeepsStatus_finish _ (.of_eq rfl rfl rfl)
  | movLit k d =>
    rw [exec_movLit]
    exact resultKeepsStatus_finish _ (.of_eq rfl rfl rfl)
  | repeatDivide m n q r =>
    rw [exec_repeatDivide]
    exact resultKeepsStatus_next (.of_eq rfl rfl rfl)
  | pushF f => exact resultKeepsStatus_access _ (accessKeepsStatus_push16 s _ _)
  | popF f => exact resultKeepsStatus_popThen (accessKeepsStatus_writeWord _ f _)
  | movToF r f => exact resultKeepsStatus_access _ (accessKeepsStatus_writeWord s f _)
  | bsetF f b => exact resultKeepsStatus_access _ (accessKeepsStatus_modifyBit s f b true)
  | bclrF f b => exact resultKeepsStatus_access _ (accessKeepsStatus_modifyBit s f b false)
  | sftac acc c => exact resultKeepsStatus_execSftac acc c s
  | macClass acc x y => exact resultKeepsStatus_writeAccumulator acc _ s
  | movD form => exact resultKeepsStatus_execMovD form s
  | bitIndirect op p b => exact resultKeepsStatus_execBitIndirect op p b s

/-- What a device reset is to the status: IPL3 and the latch of DISI are clear, and INTTREG is 0 (R200). -/
theorem IsReset.status {t : State} (h : IsReset t) :
    ipl3 t = false ∧ t.disiActive = false ∧ t.inttreg = 0#16 ∧ t.pc = resetPc t.dev := by
  obtain ⟨c, u, rfl⟩ := h
  have hipl3 : ipl3 (deviceReset c u) = false := by
    rw [ipl3, deviceReset_corcon]
    decide
  exact ⟨hipl3, rfl, rfl, rfl⟩

/-- The status after an operation, from its two outcomes; no operation changes the device. -/
theorem ResultKeepsStatus.status {s t : State} {r : Res} (h : ResultKeepsStatus s r) (ht : r = .next t)
    (hdev : t.dev = s.dev) : (ipl3 t = true → ipl3 s = true) ∧ (t.disiActive = true → s.disiActive = true) ∧
      (t.inttreg = s.inttreg ∨ (t.inttreg = 0#16 ∧ t.pc = resetPc s.dev)) := by
  rcases h t ht with hkept | hreset
  · exact ⟨hkept.keepsIpl3, hkept.keepsDisi, .inl hkept.keepsInttreg⟩
  · obtain ⟨hipl3, hdisi, hinttreg, hpc⟩ := hreset.status
    exact ⟨by simp [hipl3], by simp [hdisi], .inr ⟨hinttreg, hdev ▸ hpc⟩⟩

/-- Settles O54: every operation keeps the status, but for what RETFIE and DISI each set. -/
theorem readOnlyStatus : Obligations.ReadOnlyStatus := by
  refine fun s t => ⟨fun i ht => ?_, fun o ht => ?_⟩
  · obtain ⟨-, hdev⟩ := (fixedPart_eq_iff s t).1 (resultKeepsFixed_exec i s t ht)
    by_cases hretfie : i = .retfie
    · subst hretfie
      obtain ⟨c, hr⟩ := resultKeepsStatus_exec_retfie s
      obtain ⟨-, hdisi, hinttreg⟩ := hr.status ht hdev
      exact ⟨fun h => absurd rfl h, fun _ => hdisi, hinttreg⟩
    · by_cases hload : ∃ k, i = .disi k
      · obtain ⟨k, rfl⟩ := hload
        obtain ⟨hipl3, -, hinttreg⟩ := (resultKeepsStatus_exec_disi k s).status ht hdev
        exact ⟨fun _ => hipl3, fun h => absurd rfl (h k), hinttreg⟩
      · obtain ⟨hipl3, hdisi, hinttreg⟩ := (resultKeepsStatus_exec hretfie (not_exists.1 hload) s).status ht hdev
        exact ⟨fun _ => hipl3, fun _ => hdisi, hinttreg⟩
  · obtain ⟨-, hdev⟩ := (fixedPart_eq_iff s t).1 (resultKeepsFixed_execAbs o s t ht)
    exact (resultKeepsStatus_execAbs o s).status ht hdev

end Sys2Proof.Machine
end

section
/-! Writes of the registers, bit by bit (42_sfr_access.md R121, R123 to R129). A write treats the bits it covers in one of
three ways (`mergeWrite_bit`); each register says by its masks which bits are treated how. -/

namespace Sys2Proof.Machine

/-! The bits of a write (R121). -/

/-- A bit beyond the 16 of a register is covered by no write. -/
theorem lt_of_covered {sel : Word} {b : Nat} (h : sel.getLsbD b ≠ false) : b < 16 :=
  BitVec.lt_of_getLsbD (by simpa using h)

/-- A mask by the predicate that its bits satisfy. -/
theorem getLsbD_of_eq_maskOf {m : Word} {p : Nat → Bool} (h : m = maskOf p) {b : Nat} (hb : b < 16) :
    m.getLsbD b = p b := by
  rw [h, maskOf_getLsbD, decide_eq_true hb, Bool.true_and]

/-- A bit after a write: kept where it is not covered, else written, cleared by a 0, or read-only. -/
theorem mergeWrite_bit (old v sel wm co : Word) (b : Nat) :
    (mergeWrite old v sel wm co).getLsbD b =
      if sel.getLsbD b = false then old.getLsbD b
      else if wm.getLsbD b then v.getLsbD b
      else if co.getLsbD b then old.getLsbD b && v.getLsbD b
      else old.getLsbD b := by
  rw [mergeWrite_getLsbD]
  cases sel.getLsbD b with
  | false => simp
  | true =>
    cases wm.getLsbD b with
    | false => cases co.getLsbD b <;> simp
    | true => cases v.getLsbD b <;> simp

/-- A bit after a write that clears no bit by a 0 alone. -/
theorem mergeWrite_bit_writable (old v sel wm : Word) (b : Nat) :
    (mergeWrite old v sel wm 0#16).getLsbD b =
      if wm.getLsbD b && sel.getLsbD b then v.getLsbD b else old.getLsbD b := by
  simp [mergeWrite_getLsbD]

theorem allBits_getLsbD {b : Nat} (hb : b < 16) : (0xFFFF#16).getLsbD b = true :=
  getLsbD_of_eq_maskOf (p := fun _ => true) (by decide) hb

/-- A word write of a register all of whose bits are writable replaces it. -/
theorem mergeWrite_all (old v : Word) : mergeWrite old v 0xFFFF#16 0xFFFF#16 0#16 = v := by
  apply BitVec.eq_of_getLsbD_eq
  intro b hb
  rw [mergeWrite_bit_writable, allBits_getLsbD hb, Bool.and_self, if_pos rfl]

/-- The word whose covered bits come from `v` and whose other bits come from `old`. -/
def replaceBits (old v sel : Word) : Word := (v &&& sel) ||| (old &&& ~~~sel)

/-- A writable bit after a write. -/
theorem mergeWrite_bit_replaced {wm : Word} (old v sel : Word) {b : Nat} (h : wm.getLsbD b = true) :
    (mergeWrite old v sel wm 0#16).getLsbD b = (replaceBits old v sel).getLsbD b := by
  have hb : b < 16 := BitVec.lt_of_getLsbD h
  rw [mergeWrite_bit_writable, h, Bool.true_and, replaceBits, BitVec.getLsbD_or, BitVec.getLsbD_and, BitVec.getLsbD_and,
    BitVec.getLsbD_not]
  cases sel.getLsbD b <;> simp [hb]

/-! SR (R123), CORCON (R124) and INTCON2, INTTREG (R128). -/

theorem sfrWrite_sr (s : State) (v sel : Word) : sfrWrite s .sr v sel = .ok ({ s with
    sr := mergeWrite s.sr v sel (if nstdis s then 0x000F#16 else 0x00EF#16) 0x3400#16 }, quiet) := rfl

/-- The writable bits of SR: N, OV, Z and C, and with NSTDIS = 0 IPL<2:0>. -/
theorem srMask_getLsbD (locked : Bool) {b : Nat} (hb : b < 16) :
    (if locked then 0x000F#16 else 0x00EF#16).getLsbD b =
      decide (b ∈ [0, 1, 2, 3] ∨ (b ∈ [5, 6, 7] ∧ locked = false)) := by
  apply getLsbD_of_eq_maskOf (p := fun b => decide (b ∈ [0, 1, 2, 3] ∨ (b ∈ [5, 6, 7] ∧ locked = false))) _ hb
  cases locked <;> decide

/-- SA, SB and SAB: the clear-only bits of SR. -/
theorem srClearOnly_getLsbD {b : Nat} (hb : b < 16) : (0x3400#16).getLsbD b = decide (b ∈ [10, 12, 13]) :=
  getLsbD_of_eq_maskOf (p := fun b => decide (b ∈ [10, 12, 13])) (by decide) hb

/-- Settles O32: the masks of SR. -/
theorem srWrites : Obligations.SrWrites := by
  intro s v sel
  refine ⟨_, sfrWrite_sr s v sel, rfl, fun b => ?_⟩
  refine (mergeWrite_bit s.sr v sel _ _ b).trans (ite_congr rfl (fun _ => rfl) fun hsel => ?_)
  have hb := lt_of_covered hsel
  simp only [srMask_getLsbD _ hb, srClearOnly_getLsbD hb, decide_eq_true_eq]

theorem sfrWrite_corcon (s : State) (v sel : Word) : sfrWrite s .corcon v sel =
    .ok ({ s with corcon := mergeWrite s.corcon v sel 0x18F7#16 0x0008#16 }, quiet) := rfl

/-- The writable bits of CORCON. -/
theorem corconMask_getLsbD {b : Nat} (hb : b < 16) :
    (0x18F7#16).getLsbD b = decide (b ∈ [0, 1, 2, 4, 5, 6, 7, 11, 12]) :=
  getLsbD_of_eq_maskOf (p := fun b => decide (b ∈ [0, 1, 2, 4, 5, 6, 7, 11, 12])) (by decide) hb

/-- IPL3 is the clear-only bit of CORCON. -/
theorem corconClearOnly_getLsbD {b : Nat} (hb : b < 16) : (0x0008#16).getLsbD b = decide (b = 3) :=
  getLsbD_of_eq_maskOf (p := fun b => decide (b = 3)) (by decide) hb

theorem corconWrite_getLsbD (old v sel : Word) (b : Nat) :
    (mergeWrite old v sel 0x18F7#16 0x0008#16).getLsbD b =
      if sel.getLsbD b = false then old.getLsbD b
      else if b ∈ [0, 1, 2, 4, 5, 6, 7, 11, 12] then v.getLsbD b
      else if b = 3 then old.getLsbD 3 && v.getLsbD 3
      else old.getLsbD b := by
  refine (mergeWrite_bit old v sel _ _ b).trans (ite_congr rfl (fun _ => rfl) fun hsel => ?_)
  have hb := lt_of_covered hsel
  simp only [corconMask_getLsbD hb, corconClearOnly_getLsbD hb, decide_eq_true_eq]
  refine ite_congr rfl (fun _ => rfl) fun _ => ite_congr rfl (fun hipl3 => ?_) fun _ => rfl
  rw [hipl3]

theorem sfrWrite_intcon2 (s : State) (v sel : Word) : sfrWrite s .intcon2 v sel =
    .ok ({ s with intcon2 := mergeWrite s.intcon2 v sel 0x8007#16 0#16 }, quiet) := rfl

/-- ALTIVT and INTxEP are the writable bits of INTCON2. -/
theorem intcon2Mask_getLsbD (b : Nat) : (0x8007#16).getLsbD b = decide (b ∈ [15, 2, 1, 0]) := by
  by_cases hb : b < 16
  · exact getLsbD_of_eq_maskOf (p := fun b => decide (b ∈ [15, 2, 1, 0])) (by decide) hb
  · have hout : b ∉ [15, 2, 1, 0] := by simp; omega
    rw [decide_eq_false hout]
    exact BitVec.getLsbD_of_ge _ b (by omega)

/-- Settles O33: the masks of CORCON and INTCON2; INTTREG has no writable bit. -/
theorem controlRegisterWrites : Obligations.ControlRegisterWrites := by
  intro s v sel
  refine ⟨⟨_, sfrWrite_corcon s v sel, rfl, corconWrite_getLsbD s.corcon v sel⟩,
    ⟨_, sfrWrite_intcon2 s v sel, rfl, fun b => ?_⟩, rfl⟩
  refine (mergeWrite_bit_writable s.intcon2 v sel 0x8007#16 b).trans ?_
  simp only [intcon2Mask_getLsbD, Bool.and_eq_true, decide_eq_true_eq]

/-! SPLIM and W15 (R125, R79). -/

theorem sfrWrite_splim (s : State) (v sel : Word) : sfrWrite s .splim v sel =
    .ok ({ s with splim := mergeWrite s.splim v sel 0xFFFF#16 0#16,
                  splimWritten := s.splimWritten || sel == 0xFFFF#16 }, quiet) := rfl

/-- A byte write is no word write: it leaves the latch of the overflow check (R125). -/
theorem sfrWriteByte_splim (s : State) (h : Half) (c : Byte) : sfrWriteByte s .splim h c =
    .ok ({ s with splim := mergeWrite s.splim (halfValue h c) (halfMask h) 0xFFFF#16 0#16 }, quiet) := by
  have hbyte : (halfMask h == 0xFFFF#16) = false := by cases h <;> rfl
  rw [sfrWriteByte, sfrWrite_splim, hbyte, Bool.or_false]

theorem wordOfBytes_getLsbD (lo hi : Byte) (b : Nat) :
    (wordOfBytes lo hi).getLsbD b = if b < 8 then lo.getLsbD b else hi.getLsbD (b - 8) :=
  BitVec.getLsbD_append

theorem halfMask_getLsbD (h : Half) {b : Nat} (hb : b < 16) :
    (halfMask h).getLsbD b = decide (h = .lo ↔ b < 8) := by
  cases h with
  | lo => exact getLsbD_of_eq_maskOf (p := fun b => decide (Half.lo = .lo ↔ b < 8)) (by decide) hb
  | hi => exact getLsbD_of_eq_maskOf (p := fun b => decide (Half.hi = .lo ↔ b < 8)) (by decide) hb

/-- A byte write of a register all of whose bits are writable stores the byte and keeps the other. -/
theorem mergeWrite_half (lo hi : Byte) (h : Half) (c : Byte) :
    mergeWrite (wordOfBytes lo hi) (halfValue h c) (halfMask h) 0xFFFF#16 0#16 =
      wordOfBytes (if h = .lo then c else lo) (if h = .lo then hi else c) := by
  apply BitVec.eq_of_getLsbD_eq
  intro b hb
  rw [mergeWrite_bit_writable, allBits_getLsbD hb, Bool.true_and, halfMask_getLsbD h hb]
  cases h with
  | lo => by_cases h8 : b < 8 <;> simp [halfValue, wordOfBytes_getLsbD, h8]
  | hi => by_cases h8 : b < 8 <;> simp [halfValue, wordOfBytes_getLsbD, h8]

/-- The bytes of SPLIM after a byte write. -/
theorem splimWrite_half (old : Word) (h : Half) (c : Byte) :
    mergeWrite old (halfValue h c) (halfMask h) 0xFFFF#16 0#16 =
      wordOfBytes (if h = .lo then c else lowByte old) (if h = .lo then highByte old else c) := by
  rw [← mergeWrite_half, wordOfBytes_lowByte_highByte]

/-- A write of W15 reports W15 below STACK_BASE. -/
theorem putWEvents_w15 (s : State) (v : Word) :
    putWEvents (putW s 15 v) 15 = stackEvent (decide (evenPart v < s.dev.stackBase)) := by
  rw [putWEvents, stackLow, sp_putW_self]
  rfl

theorem sfrWrite_w15 (s : State) (v : Word) : sfrWrite s (.w 15) v 0xFFFF#16 =
    .ok ({ s with w := s.w.set 15 (evenPart v) }, stackEvent (decide (evenPart v < s.dev.stackBase))) := by
  rw [sfrWrite, mergeWrite_all, putWEvents_w15]
  rfl

/-- Settles O34: SPLIM and W15 are writable in every bit but bit 0 of W15. -/
theorem stackRegisterWrites : Obligations.StackRegisterWrites := by
  intro s v h c
  refine ⟨?_, ⟨_, sfrWriteByte_splim s h c, rfl, ?_, ?_⟩, sfrWrite_w15 s v⟩
  · rw [sfrWrite_splim, mergeWrite_all, beq_self_eq_true, Bool.or_true]
  · rintro rfl
    simp [splimWrite_half]
  · rintro rfl
    simp [splimWrite_half]

/-! DISICNT (R126). -/

/-- The count that a write of DISICNT gives it. -/
theorem disicntWrite_eq (c : DisiCount) (v sel : Word) :
    (mergeWrite (c.setWidth 16) v sel 0x3FFF#16 0#16).setWidth 14 =
      (replaceBits (c.setWidth 16) v sel).extractLsb' 0 14 := by
  apply BitVec.eq_of_getLsbD_eq
  intro b hb
  have hmask : (0x3FFF#16).getLsbD b = true := by
    rw [getLsbD_of_eq_maskOf (p := fun b => decide (b < 14)) (by decide) (by omega)]
    exact decide_eq_true hb
  rw [BitVec.getLsbD_setWidth, BitVec.getLsbD_extractLsb', Nat.zero_add, mergeWrite_bit_replaced _ v sel hmask]

theorem sfrWrite_disicnt (s : State) (v sel : Word) : sfrWrite s .disicnt v sel =
    .ok (writeDisicnt s ((replaceBits (s.disicnt.setWidth 16) v sel).extractLsb' 0 14), quiet) := by
  rw [sfrWrite, disicntWrite_eq]

/-- Settles O35: the write is `loadDisicnt` while DISI is active, whose ticks only clear the mark of the load. -/
theorem disicntWrites : Obligations.DisicntWrites := by
  intro s v sel n u c
  refine ⟨narrow_of_le _, fun hactive => ⟨loadDisicnt s (u.extractLsb' 0 14), ?_, ?_, ?_⟩, fun hinactive => ?_⟩
  · rw [sfrWrite_disicnt, writeDisicnt, if_pos hactive]
    rfl
  · rw [loadDisicnt, bne_eq_decide_ne]
  · rw [elapse_of_loaded n rfl]
    rfl
  · rw [sfrWrite_disicnt, writeDisicnt, if_neg (ne_true_of_eq_false hinactive)]

/-! INTCON1 (R127, 92_eei_decisions.md D14). -/

/-- The implemented bits of INTCON1. -/
theorem intcon1Mask_getLsbD {b : Nat} (hb : b < 16) : (0xFFDE#16).getLsbD b = decide (b ≠ 0 ∧ b ≠ 5) :=
  getLsbD_of_eq_maskOf (p := fun b => decide (b ≠ 0 ∧ b ≠ 5)) (by decide) hb

theorem intcon1Write_getLsbD (old v sel : Word) (b : Nat) :
    (mergeWrite old v sel 0xFFDE#16 0#16).getLsbD b =
      if b = 0 ∨ b = 5 ∨ sel.getLsbD b = false then old.getLsbD b else v.getLsbD b := by
  rw [mergeWrite_bit_writable]
  cases hsel : sel.getLsbD b with
  | false => simp
  | true =>
    rw [intcon1Mask_getLsbD (BitVec.lt_of_getLsbD hsel)]
    by_cases hbit : b = 0 ∨ b = 5
    · have hnot : ¬ (b ≠ 0 ∧ b ≠ 5) := by omega
      rw [decide_eq_false hnot]
      simp [hbit]
    · have hboth : b ≠ 0 ∧ b ≠ 5 := by omega
      simp [hboth]

theorem trapFlagMask_getLsbD {b : Nat} (hb : b < 16) : trapFlagMask.getLsbD b = decide (b ∈ [1, 2, 3, 4]) :=
  getLsbD_of_eq_maskOf (p := fun b => decide (b ∈ [1, 2, 3, 4])) (by decide) hb

/-- The test of R127: no trap flag changes from 0 to 1. -/
theorem setsNoTrapFlag_iff (old v sel : Word) :
    mergeWrite old v sel 0xFFDE#16 0#16 &&& ~~~old &&& trapFlagMask = 0#16 ↔
      ∀ b ∈ [1, 2, 3, 4], sel.getLsbD b = true → v.getLsbD b = true → old.getLsbD b = true := by
  have hbit (b : Nat) (hb : b < 16) :
      (mergeWrite old v sel 0xFFDE#16 0#16 &&& ~~~old &&& trapFlagMask).getLsbD b = false ↔
        (b ∈ [1, 2, 3, 4] → sel.getLsbD b = true → v.getLsbD b = true → old.getLsbD b = true) := by
    rw [BitVec.getLsbD_and, BitVec.getLsbD_and, BitVec.getLsbD_not, trapFlagMask_getLsbD hb, intcon1Write_getLsbD]
    by_cases hflag : b ∈ [1, 2, 3, 4]
    · have h0 : b ≠ 0 := by rintro rfl; simp at hflag
      have h5 : b ≠ 5 := by rintro rfl; simp at hflag
      cases hsel : sel.getLsbD b <;> cases hold : old.getLsbD b <;> simp [hflag, h0, h5, hb]
    · simp [hflag]
  constructor
  · intro h b hb
    have hlt : b < 16 := by simp at hb; omega
    exact (hbit b hlt).1 (by rw [h, BitVec.getLsbD_zero]) hb
  · intro h
    apply BitVec.eq_of_getLsbD_eq
    intro b hb
    rw [BitVec.getLsbD_zero]
    exact (hbit b hb).2 (h b)

/-- Settles O36: the refusal of R127, and the implemented bits of INTCON1. -/
theorem intcon1Writes : Obligations.Intcon1Writes := by
  intro s v sel
  constructor
  · rintro ⟨b, hb, hsel, hv, hold⟩
    rw [sfrWrite, if_neg]
    rw [setsNoTrapFlag_iff]
    intro hkept
    exact Bool.false_ne_true (hold.symm.trans (hkept b hb hsel hv))
  · intro hkept
    have hwrite : sfrWrite s .intcon1 v sel =
        .ok ({ s with intcon1 := mergeWrite s.intcon1 v sel 0xFFDE#16 0#16 }, quiet) := by
      rw [sfrWrite, if_pos ((setsNoTrapFlag_iff _ _ _).2 hkept)]
    exact ⟨_, hwrite, rfl, intcon1Write_getLsbD s.intcon1 v sel⟩

end Sys2Proof.Machine
end

section
/-! The registers of the sources: what a write of IFSx, IECx or IPCx does (42_sfr_access.md R121, R129;
70_reset_and_hazards.md R204). -/

namespace Sys2Proof.Machine

theorem vector_getElem_set_ne {α : Type} {n : Nat} (xs : Vector α n) {x y : Fin n} (a : α) (h : y ≠ x) :
    (xs.set x a)[y] = xs[y] :=
  Vector.getElem_set_ne x.isLt y.isLt fun e => h (Fin.ext e.symm)

theorem vector_getElem_set_self {α : Type} {n : Nat} (xs : Vector α n) (x : Fin n) (a : α) : (xs.set x a)[x] = a :=
  Vector.getElem_set_self x.isLt

/-! Flags and enables (R129). -/

theorem flagMask_getLsbD (d : Device) (x b : Nat) :
    (flagMask d x).getLsbD b = (decide (b < 16) && implemented d (16 * x + b)) :=
  maskOf_getLsbD _ b

/-- The bits of IFSx and of IECx after a write. -/
theorem flagWrite_getLsbD (d : Device) (x : Nat) (old v sel : Word) (b : Nat) :
    (mergeWrite old v sel (flagMask d x) 0#16).getLsbD b =
      if implemented d (16 * x + b) && sel.getLsbD b then v.getLsbD b else old.getLsbD b := by
  rw [mergeWrite_bit_writable, flagMask_getLsbD]
  cases hsel : sel.getLsbD b with
  | false => rw [Bool.and_false, Bool.and_false]
  | true => rw [decide_eq_true (BitVec.lt_of_getLsbD hsel), Bool.true_and]

theorem sfrWrite_ifs (s : State) (x : Fin 8) (v sel : Word) : sfrWrite s (.ifs x) v sel =
    .ok ({ s with ifs := s.ifs.set x (mergeWrite s.ifs[x] v sel (flagMask s.dev x.val) 0#16) }, quiet) := rfl

theorem sfrWrite_iec (s : State) (x : Fin 8) (v sel : Word) : sfrWrite s (.iec x) v sel =
    .ok ({ s with iec := s.iec.set x (mergeWrite s.iec[x] v sel (flagMask s.dev x.val) 0#16) }, quiet) := rfl

/-- Settles O30: the implemented bits are the writable ones. -/
theorem flagAndEnableWrites : Obligations.FlagAndEnableWrites := by
  intro s x v sel
  refine ⟨⟨_, sfrWrite_ifs s x v sel, rfl, fun _ => vector_getElem_set_ne s.ifs _, fun b => ?_⟩,
    ⟨_, sfrWrite_iec s x v sel, rfl, fun _ => vector_getElem_set_ne s.iec _, fun b => ?_⟩⟩
  · rw [vector_getElem_set_self, flagWrite_getLsbD]
  · rw [vector_getElem_set_self, flagWrite_getLsbD]

/-! Priorities (R129(c), R204). -/

theorem priorityMask_getLsbD (d : Device) (x b : Nat) :
    (priorityMask d x).getLsbD b = (decide (b < 16) && (b % 4 != 3 && implemented d (4 * x + b / 4))) :=
  maskOf_getLsbD _ b

/-- The bits of a source's priority are writable. -/
theorem priorityMask_field {d : Device} {x j i : Nat} (hj : j < 4) (hi : i < 3) (h : implemented d (4 * x + j) = true) :
    (priorityMask d x).getLsbD (4 * j + i) = true := by
  have hlt : 4 * j + i < 16 := by omega
  have hrem : i % 4 ≠ 3 := by omega
  have hdiv : (4 * j + i) / 4 = j := by omega
  rw [priorityMask_getLsbD, hdiv, h]
  simp [hlt, hrem]

/-- The priority of a source after a write of its IPCx. -/
theorem priorityWrite_field {d : Device} {x j : Nat} (old v sel : Word) (hj : j < 4)
    (h : implemented d (4 * x + j) = true) :
    (mergeWrite old v sel (priorityMask d x) 0#16).extractLsb' (4 * j) 3 =
      (replaceBits old v sel).extractLsb' (4 * j) 3 := by
  apply BitVec.eq_of_getLsbD_eq
  intro i hi
  rw [BitVec.getLsbD_extractLsb', BitVec.getLsbD_extractLsb',
    mergeWrite_bit_replaced old v sel (priorityMask_field hj hi h)]

/-- A source that requests is implemented (10_state.md R33). -/
theorem implemented_of_requests {s : State} {n : Nat} (h : requests s n = true) : implemented s.dev n = true := by
  simp only [requests, irqFlag, Bool.and_eq_true] at h
  exact h.1.1

/-- A write of IPCx that gives source `j` of the register another priority, while the source's request is live before or
after it (R204). -/
def changesLive (s : State) (x : Fin 30) (u : Word) (j : Nat) : Prop :=
  irqPriority s (4 * x.val + j) ≠ (u.extractLsb' (4 * j) 3).toNat ∧ requests s (4 * x.val + j) = true ∧
    (passesMask s (irqPriority s (4 * x.val + j)) = true ∨ passesMask s (u.extractLsb' (4 * j) 3).toNat = true)

theorem changesLivePriority_iff (s : State) (x : Fin 30) (u : Word) :
    changesLivePriority s x.val u = true ↔ ∃ j, j < 4 ∧ changesLive s x u j := by
  simp only [changesLivePriority, changesLive, List.any_eq_true, List.mem_range, Bool.and_eq_true, Bool.or_eq_true,
    bne_iff_ne, and_assoc]

/-- Only the bits that the write covers decide its refusal. -/
theorem changesLivePriority_write_iff (s : State) (x : Fin 30) (v sel : Word) :
    changesLivePriority s x.val (mergeWrite s.ipc[x] v sel (priorityMask s.dev x.val) 0#16) = true ↔
      ∃ j, j < 4 ∧ changesLive s x (replaceBits s.ipc[x] v sel) j := by
  rw [changesLivePriority_iff]
  refine exists_congr fun j => and_congr_right fun hj => ?_
  by_cases himpl : implemented s.dev (4 * x.val + j) = true
  · rw [changesLive, priorityWrite_field _ v sel hj himpl]
    rfl
  · have hnone (u : Word) : ¬ changesLive s x u j := fun ⟨_, hrequests, _⟩ => himpl (implemented_of_requests hrequests)
    exact iff_of_false (hnone _) (hnone _)

/-- The priorities after IPCx is replaced (10_state.md R33). -/
theorem irqPriority_set_ipc (s : State) (x : Fin 30) (u : Word) (n : Nat) :
    irqPriority { s with ipc := s.ipc.set x u } n =
      if n / 4 = x.val ∧ implemented s.dev n = true then (u.extractLsb' (4 * (n % 4)) 3).toNat else irqPriority s n := by
  by_cases himpl : implemented s.dev n = true
  · have hlt : n / 4 < 30 := by have := implemented_lt himpl; omega
    by_cases hx : n / 4 = x.val
    · simp [irqPriority, himpl, hx]
    · simp [irqPriority, himpl, hx, hlt, Ne.symm hx]
  · simp [irqPriority, himpl]

/-- Settles O31: the refusal of R204, and the priorities that the write covers. -/
theorem priorityWrites : Obligations.PriorityWrites := by
  intro s x v sel u
  constructor
  · rintro ⟨j, hj, -, hlive⟩
    rw [sfrWrite, if_pos ((changesLivePriority_write_iff s x v sel).2 ⟨j, hj, hlive⟩)]
  · intro hdead
    have hkept : ¬ changesLivePriority s x.val (mergeWrite s.ipc[x] v sel (priorityMask s.dev x.val) 0#16) = true := by
      rw [changesLivePriority_write_iff]
      rintro ⟨j, hj, hne, hrequests, hlive⟩
      obtain ⟨hbefore, hafter⟩ := hdead j hj (implemented_of_requests hrequests) hne hrequests
      rcases hlive with hlive | hlive
      · exact Bool.false_ne_true (hbefore.symm.trans hlive)
      · exact Bool.false_ne_true (hafter.symm.trans hlive)
    refine ⟨_, if_neg hkept, rfl, fun n => (irqPriority_set_ipc s x _ n).trans (if_ctx_congr Iff.rfl ?_ fun _ => rfl)⟩
    rintro ⟨hx, himpl⟩
    have hn : 4 * x.val + n % 4 = n := by omega
    rw [priorityWrite_field (x := x.val) _ v sel (by omega) (by rw [hn]; exact himpl)]
    rfl

end Sys2Proof.Machine
end

section
/-! What a read of each register returns (42_sfr_access.md R120; 10_state.md R33; 60_exceptions.md R170). -/

namespace Sys2Proof.Machine

theorem sfrRead_corcon_getLsbD (s : State) (b : Nat) :
    (sfrRead s .corcon).getLsbD b = (decide (b < 13) && s.corcon.getLsbD b) := by
  rw [sfrRead, BitVec.getLsbD_and]
  by_cases hb : b < 16
  · rw [getLsbD_of_eq_maskOf (m := 0x1FFF#16) (p := fun b => decide (b < 13)) (by decide) hb, Bool.and_comm]
  · simp [BitVec.getLsbD_of_ge _ b (by omega : 16 ≤ b)]

theorem sfrRead_intcon1_getLsbD (s : State) (b : Nat) :
    (sfrRead s .intcon1).getLsbD b = (decide (b ≠ 0 ∧ b ≠ 5) && s.intcon1.getLsbD b) := by
  rw [sfrRead, BitVec.getLsbD_and]
  by_cases hb : b < 16
  · rw [intcon1Mask_getLsbD hb, Bool.and_comm]
  · simp [BitVec.getLsbD_of_ge _ b (by omega : 16 ≤ b)]

/-- INTCON2<14> is no bit of the register but the latch of DISI. -/
theorem sfrRead_intcon2_getLsbD (s : State) (b : Nat) :
    (sfrRead s .intcon2).getLsbD b =
      if b = 14 then s.disiActive else decide (b ∈ [15, 2, 1, 0]) && s.intcon2.getLsbD b := by
  have hlatch : (if s.disiActive then 0x4000#16 else 0#16).getLsbD b = (s.disiActive && decide (b = 14)) := by
    cases s.disiActive with
    | false => exact BitVec.getLsbD_zero
    | true =>
      by_cases hb : b < 16
      · exact getLsbD_of_eq_maskOf (m := 0x4000#16) (p := fun b => true && decide (b = 14)) (by decide) hb
      · have hne : b ≠ 14 := by omega
        simp [hne, BitVec.getLsbD_of_ge _ b (by omega : 16 ≤ b)]
  rw [sfrRead, BitVec.getLsbD_or, BitVec.getLsbD_and, intcon2Mask_getLsbD, hlatch]
  by_cases h14 : b = 14
  · simp [h14]
  · simp [h14, Bool.and_comm]

theorem sfrRead_disicnt_getLsbD (s : State) (b : Nat) : (sfrRead s .disicnt).getLsbD b = s.disicnt.getLsbD b := by
  rw [sfrRead, BitVec.getLsbD_setWidth]
  by_cases hb : b < 16
  · rw [decide_eq_true hb, Bool.true_and]
  · simp [BitVec.getLsbD_of_ge s.disicnt b (by omega : 14 ≤ b), hb]

/-! The registers of the sources. -/

/-- The bits of IFSx and of IECx that are read belong to the sources (R33). -/
theorem flagRead_getLsbD (d : Device) (regs : Vector Word 8) (x : Fin 8) {b : Nat} (hb : b < 16) :
    (regs[x] &&& flagMask d x.val).getLsbD b = (implemented d (16 * x.val + b) &&
      (regs[(16 * x.val + b) / 16]?.getD 0#16).getLsbD ((16 * x.val + b) % 16)) := by
  have hdiv : (16 * x.val + b) / 16 = x.val := by omega
  have hmod : (16 * x.val + b) % 16 = b := by omega
  rw [BitVec.getLsbD_and, flagMask_getLsbD, hdiv, hmod]
  simp [hb, Bool.and_comm]

theorem sfrRead_ifs_getLsbD (s : State) (x : Fin 8) {b : Nat} (hb : b < 16) :
    (sfrRead s (.ifs x)).getLsbD b = irqFlag s (16 * x.val + b) :=
  flagRead_getLsbD s.dev s.ifs x hb

theorem sfrRead_iec_getLsbD (s : State) (x : Fin 8) {b : Nat} (hb : b < 16) :
    (sfrRead s (.iec x)).getLsbD b = irqEnable s (16 * x.val + b) :=
  flagRead_getLsbD s.dev s.iec x hb

/-- A nibble of IPCx holds a priority, or 0 where no source is. -/
theorem priorityNibble_eq (d : Device) (x : Nat) (w : Word) {j : Nat} (hj : j < 4) :
    (w &&& priorityMask d x).extractLsb' (4 * j) 4 =
      if implemented d (4 * x + j) then (w.extractLsb' (4 * j) 3).setWidth 4 else 0#4 := by
  apply BitVec.eq_of_getLsbD_eq
  intro i hi
  have hlt : 4 * j + i < 16 := by omega
  have hdiv : (4 * j + i) / 4 = j := by omega
  have hmod : (4 * j + i) % 4 = i := by omega
  rw [BitVec.getLsbD_extractLsb', BitVec.getLsbD_and, priorityMask_getLsbD, hdiv, hmod]
  cases implemented d (4 * x + j) with
  | false => simp
  | true =>
    rw [if_pos rfl, BitVec.getLsbD_setWidth, BitVec.getLsbD_extractLsb']
    by_cases h3 : i = 3
    · simp [h3]
    · have hi3 : i < 3 := by omega
      simp [h3, hi, hi3, hlt]

theorem sfrRead_ipc_field (s : State) (x : Fin 30) {j : Nat} (hj : j < 4) :
    ((sfrRead s (.ipc x)).extractLsb' (4 * j) 4).toNat = irqPriority s (4 * x.val + j) := by
  have hdiv : (4 * x.val + j) / 4 = x.val := by omega
  have hmod : (4 * x.val + j) % 4 = j := by omega
  rw [sfrRead, priorityNibble_eq _ _ _ hj, irqPriority, hdiv, hmod]
  cases implemented s.dev (4 * x.val + j) with
  | false => rfl
  | true =>
    rw [if_pos rfl, if_pos rfl, BitVec.toNat_setWidth_of_le (by decide)]
    simp

/-! INTTREG (R170; log 13). -/

/-- The implemented bits of INTTREG. -/
theorem inttregMask_getLsbD {b : Nat} (hb : b < 16) : (0x0F7F#16).getLsbD b = decide (b ∉ [15, 14, 13, 12, 7]) :=
  getLsbD_of_eq_maskOf (p := fun b => decide (b ∉ [15, 14, 13, 12, 7])) (by decide) hb

theorem sfrRead_inttreg_reserved (s : State) {b : Nat} (h : b ∈ [15, 14, 13, 12, 7]) :
    (sfrRead s .inttreg).getLsbD b = false := by
  have hb : b < 16 := by simp at h; omega
  rw [sfrRead, BitVec.getLsbD_and, inttregMask_getLsbD hb, decide_eq_false (not_not_intro h), Bool.and_false]

/-- Outside the windows of D10 a read returns the latched fields. -/
theorem sfrRead_inttreg_latched {s : State} (hfresh : s.inttregFresh = true) (hnone : presentableIrq s = none) {b : Nat}
    (h : b ∉ [15, 14, 13, 12, 7]) : (sfrRead s .inttreg).getLsbD b = s.inttreg.getLsbD b := by
  have hopen : (s.inttregFresh && (presentableIrq s).isNone) = true := by rw [hfresh, hnone]; rfl
  rw [sfrRead, if_pos hopen, BitVec.getLsbD_and]
  by_cases hb : b < 16
  · rw [inttregMask_getLsbD hb, decide_eq_true h, Bool.and_true]
  · simp [BitVec.getLsbD_of_ge _ b (by omega : 16 ≤ b)]

/-! The latches of RCON and OSCCON (10_state.md R53, R54; log 12). -/

theorem sfrRead_rcon_trapr {s : State} (h : s.traprSet = true) : (sfrRead s .rcon).getLsbD 15 = true := by
  rw [sfrRead, if_pos h, BitVec.getLsbD_or]
  exact Bool.or_true _

theorem sfrRead_osccon_cf {s : State} (h : s.cfSet = true) : (sfrRead s .osccon).getLsbD 3 = true := by
  rw [sfrRead, if_pos h, BitVec.getLsbD_or]
  exact Bool.or_true _

/-- Settles O29: the reads of the registers, one by one. -/
theorem registerReads : Obligations.RegisterReads := fun s =>
  ⟨sfrRead_corcon_getLsbD s, sfrRead_intcon1_getLsbD s, sfrRead_intcon2_getLsbD s, sfrRead_disicnt_getLsbD s,
    fun hwritten => if_pos hwritten, rfl, fun _ => rfl,
    fun x _ hb => ⟨sfrRead_ifs_getLsbD s x hb, sfrRead_iec_getLsbD s x hb⟩, fun x _ hj => sfrRead_ipc_field s x hj,
    fun _ => sfrRead_inttreg_reserved s, fun hfresh hnone _ => sfrRead_inttreg_latched hfresh hnone,
    sfrRead_rcon_trapr, sfrRead_osccon_cf⟩

end Sys2Proof.Machine
end

section
/-! The instructions and operations through which software reaches the registers and data space: MOV f,Wnd and MOV Wns,f
(42_sfr_access.md R120, R121; 20_memory.md R75), and the register writes of R122 and R91. -/

namespace Sys2Proof.Machine

/-- An operation whose one event is an address error that R146 admits. -/
theorem finish_addrEvent_admitted {s : State} (h : admitsTrap s .addressError) :
    finish (addrEvent true) s = .next { s with badFetch := false, intcon1 := s.intcon1 ||| 0x0008#16 } := by
  have hsoft : markFetch false (raiseSoft (addrEvent true) s) = { s with badFetch := false } := by
    simp [raiseSoft, addrEvent, markFetch]
  have hadmits : admitsTrap { s with badFetch := false } .addressError := h
  have hfinish : finish (addrEvent true) s =
      raiseHard .addressError (markFetch false (raiseSoft (addrEvent true) s)) := rfl
  rw [hfinish, hsoft, raiseHard_of_admitsTrap hadmits]
  rfl

theorem putWEvents_of_ne (s : State) {d : WReg} (h : d ≠ 15) : putWEvents s d = quiet := by
  rw [putWEvents, decide_eq_false h, Bool.false_and]
  rfl

theorem putW_of_ne (s : State) {d : WReg} (v : Word) (h : d ≠ 15) : putW s d v = { s with w := s.w.set d v } := by
  rw [putW, if_neg h]

/-! MOV f,Wnd (R120, R75; 60_exceptions.md R150 item 3). -/

theorem exec_movFromF (f : DataAddr) (d : WReg) (s : State) : exec (.movFromF f d) s =
    finish (joinEvents (addrEvent (wordReadFaults s f)) (putWEvents (putW s d (readWord s f)) d))
      (advance (putW s d (readWord s f))) := rfl

/-- The address of a register is implemented (20_memory.md R80). -/
theorem wordReadFaults_sfr {s : State} {f : DataAddr} {r : Sfr} (heven : f.getLsbD 0 = false)
    (h : sfrAt s.dev f = some r) : wordReadFaults s f = false := by
  rw [wordReadFaults, heven, dataImplemented, evenPart_of_even heven, h]
  rfl

theorem readWord_sfr {s : State} {f : DataAddr} {r : Sfr} (heven : f.getLsbD 0 = false)
    (h : sfrAt s.dev f = some r) : readWord s f = sfrRead s r := by
  rw [readWord, heven, h]
  rfl

theorem wordReadFaults_unimplemented {s : State} {f : DataAddr} (h : dataImplemented s.dev f = false) :
    wordReadFaults s f = true := by
  rw [wordReadFaults, h, Bool.not_false, Bool.or_true]

/-- Settles O26: a load is `putW` of the word read, with W15 checked, or with the address error of the read. -/
theorem movFromDataReads : Obligations.MovFromDataReads := by
  intro s f d
  refine ⟨fun hgood => ⟨fun hd => ?_, ?_⟩, fun r heven hr => ⟨wordReadFaults_sfr heven hr, readWord_sfr heven hr⟩,
    fun hram => ?_, fun hd himpl hadmits => ⟨readWord s f, ?_⟩⟩
  · rw [exec_movFromF, hgood, putWEvents_of_ne _ hd, addrEvent_false, joinEvents_quiet_left, finish_quiet,
      putW_of_ne _ _ hd]
    rfl
  · rw [exec_movFromF, hgood, putWEvents_w15, addrEvent_false, joinEvents_quiet_left, finish_stackEvent]
    rfl
  · obtain ⟨hread, hgood, -⟩ := ram_reads hram
    exact ⟨hgood, hread⟩
  · rw [exec_movFromF, wordReadFaults_unimplemented himpl, putWEvents_of_ne _ hd, joinEvents_quiet_right,
      finish_addrEvent_admitted (s := advance (putW s d (readWord s f))) hadmits, putW_of_ne _ _ hd]
    rfl

/-! MOV Wns,f (R121, R75; 93_implementation_defined.md U14). -/

theorem exec_movToF (i : WReg) (f : DataAddr) (s : State) :
    exec (.movToF i f) s = finishAccess (writeWord s f s.w[i]) advance quiet := rfl

/-- A store where no RAM is has no effect on any state (log 11). -/
theorem ramWrite_of_not_ram {s : State} {a : DataAddr} (b : Byte) (h : isRam s.dev a = false) : ramWrite s a b = s := by
  rw [ramWrite, if_neg (ne_true_of_eq_false h)]

/-- A word write at an even address where no register and no RAM is, and that the device does not report. -/
theorem writeWord_dropped {s : State} {f : DataAddr} (v : Word) (hgood : wordWriteFaults s f = false)
    (hsfr : sfrAt s.dev f = none) (hlow : isRam s.dev f = false) (hhigh : isRam s.dev (f + 1#16) = false) :
    writeWord s f v = .ok (s, quiet) := by
  rw [writeWord, hgood, hsfr, ramWrite_of_not_ram _ hlow, ramWrite_of_not_ram _ hhigh]
  rfl

/-- A word write that raises the address error is not performed (R151). -/
theorem writeWord_faulting {s : State} {f : DataAddr} (v : Word) (h : wordWriteFaults s f = true) :
    writeWord s f v = .ok (s, addrEvent true) := by
  rw [writeWord, if_pos h]

theorem wordWriteFaults_even {s : State} {f : DataAddr} (h : f.getLsbD 0 = false) :
    wordWriteFaults s f = (!dataImplemented s.dev f && s.dev.unimplementedWriteTraps) := by
  rw [wordWriteFaults, h, Bool.false_or, byteWriteFaults]

/-- Settles O27: the store is two bytes of RAM, or dropped, or reported. -/
theorem movToDataStores : Obligations.MovToDataStores := by
  intro s i f
  refine ⟨fun hram => ?_, fun heven hsfr hlow hhigh => ⟨fun hsilent => ?_, fun himpl hreports hadmits => ?_⟩⟩
  · obtain ⟨hnext, hframe⟩ := finishAccess_ram (ram_write s.w[i] hram) (ram2_eq s _ _ _ _)
    exact ⟨_, hnext, hframe, ram2_read s.w[i] hram⟩
  · have hgood : wordWriteFaults s f = false := by
      rw [wordWriteFaults_even heven]
      rcases hsilent with himpl | hquiet
      · rw [himpl, Bool.not_true, Bool.false_and]
      · rw [hquiet, Bool.and_false]
    rw [exec_movToF, writeWord_dropped _ hgood hsfr hlow hhigh]
    exact finish_quiet (advance s)
  · have hfaults : wordWriteFaults s f = true := by
      rw [wordWriteFaults_even heven, himpl, hreports]
      rfl
    rw [exec_movToF, writeWord_faulting _ hfaults]
    exact finish_addrEvent_admitted (s := advance s) hadmits

/-! Register writes (R121, R122). -/

/-- An operation of one word whose effect is a register write, and whose own events are stack events. -/
theorem endsInWrite_sfrWrite {s s1 : State} (hnext : nextPc s1 = nextPc s) (r : Sfr) (v sel : Word) (c : Bool) :
    endsInWrite (finishAccess (sfrWrite s1 r v sel) advance (stackEvent c)) s (sfrWrite s1 r v sel) c := by
  cases hw : sfrWrite s1 r v sel with
  | error x => rfl
  | ok p =>
    obtain ⟨t, e⟩ := p
    obtain ⟨hpc, -, -, -, -, -, -, -, -, -, -, -, -, -, -, hdev⟩ := sfrWrite_frame hw
    obtain ⟨d, rfl⟩ : ∃ d, e = stackEvent d := by
      rcases sfrWrite_events hw with rfl | ⟨-, rfl⟩
      · exact ⟨false, rfl⟩
      · exact ⟨_, rfl⟩
    rw [endsInWrite, finishAccess_stackEvent, nextPc_congr hpc hdev, hnext, Bool.or_comm c]
    rfl

/-- The same for an operation without events of its own. -/
theorem endsInWrite_quiet (s : State) (r : Sfr) (v sel : Word) :
    endsInWrite (finishAccess (sfrWrite s r v sel) advance quiet) s (sfrWrite s r v sel) false :=
  endsInWrite_sfrWrite rfl r v sel false

/-- A change of one bit at a register's address is a write of the register's read with the bit changed (R122). -/
theorem modifyBit_sfr {s : State} {f : DataAddr} {r : Sfr} (b : BitVec 4) (v : Bool) (h : sfrAt s.dev f = some r) :
    modifyBit s f b v = sfrWrite s r (setBit (sfrRead s r) b.toNat v) 0xFFFF#16 := by
  rw [modifyBit, h]

theorem setBit_true (w : Word) (b : Nat) : setBit w b true = w ||| (1#16 <<< b) := rfl

theorem setBit_false (w : Word) (b : Nat) : setBit w b false = w &&& ~~~(1#16 <<< b) := rfl

theorem exec_bsetF (f : DataAddr) (b : BitVec 4) (s : State) :
    exec (.bsetF f b) s = finishAccess (modifyBit s f b true) advance quiet := rfl

theorem exec_bclrF (f : DataAddr) (b : BitVec 4) (s : State) :
    exec (.bclrF f b) s = finishAccess (modifyBit s f b false) advance quiet := rfl

/-- An indirect set or clear at an even address is the change of a bit there, with R79's check on an address from W15. -/
theorem exec_bitIndirect_even {s : State} {op : BitOp} {p : WReg} (b : BitVec 4) (heven : (s.w[p]).getLsbD 0 = false)
    (hop : op ≠ .other) : exec (.bitIndirect op p b) s =
      finishAccess (modifyBit s s.w[p] b (bitOpValue s op)) advance
        (stackEvent (p == 15 && s.splimWritten && decide (s.splim < eaOf s.dev (sp s)))) := by
  have hflags : bitOpFlags s op = s := by
    cases op with
    | set => rfl
    | clear => rfl
    | other => exact absurd rfl hop
  rw [exec_bitIndirect, execBitIndirect, if_neg (ne_true_of_eq_false heven), baseEvents_eq, hflags]

/-- The byte of a byte write in its place in the word (R121). -/
theorem halfValue_lo (c : Byte) : halfValue .lo c = c.setWidth 16 := by
  apply BitVec.eq_of_getLsbD_eq
  intro b hb
  rw [halfValue, wordOfBytes_getLsbD, BitVec.getLsbD_setWidth]
  by_cases h8 : b < 8
  · simp [h8, hb]
  · simp [h8, BitVec.getLsbD_of_ge c b (by omega)]

theorem halfValue_hi (c : Byte) : halfValue .hi c = c.setWidth 16 <<< 8 := by
  apply BitVec.eq_of_getLsbD_eq
  intro b hb
  have hlt : b - 8 < 16 := by omega
  rw [halfValue, wordOfBytes_getLsbD, BitVec.getLsbD_shiftLeft, BitVec.getLsbD_setWidth]
  by_cases h8 : b < 8
  · simp [h8]
  · simp [h8, hb, hlt]

theorem fieldMask_getLsbD (hi lo : BitVec 4) {b : Nat} (hb : b < 16) :
    (fieldMask hi lo).getLsbD b = (decide (lo.toNat ≤ b) && decide (b ≤ hi.toNat)) :=
  getLsbD_of_eq_maskOf rfl hb

/-- Settles O37: each of them is one `sfrWrite`, from the state of the operation or from the state after its pop. -/
theorem registerInstructionsWriteTheSfr : Obligations.RegisterInstructionsWriteTheSfr := by
  intro s r write bset bclr
  refine ⟨fun f heven hr => ⟨fun k => ?_, fun b => ?_, fun b => ?_, fun hpop => ?_, ?_⟩, rfl,
    fun v => endsInWrite_quiet s r v _, fun c => ⟨?_, ?_⟩, fun b => ⟨?_, ?_⟩, fun hi lo x => ⟨?_, ?_⟩⟩
  · rw [exec_movToF, writeWord_sfr _ heven hr]
    exact endsInWrite_quiet s r _ _
  · rw [exec_bsetF, modifyBit_sfr b true hr, setBit_true]
    exact endsInWrite_quiet s r _ _
  · rw [exec_bclrF, modifyBit_sfr b false hr, setBit_false]
    exact endsInWrite_quiet s r _ _
  · rw [exec_popF_ram f hpop, writeWord_sfr (s := popState s) _ heven hr, popState_ram hpop]
    exact endsInWrite_sfrWrite rfl r _ _ _
  · rintro p b rfl above
    rw [exec_bitIndirect_even b heven (by decide), exec_bitIndirect_even b heven (by decide), modifyBit_sfr b _ hr,
      modifyBit_sfr b _ hr]
    exact ⟨endsInWrite_sfrWrite rfl r _ _ _, endsInWrite_sfrWrite rfl r _ _ _⟩
  · rw [← halfValue_lo]
    exact endsInWrite_quiet s r _ _
  · rw [← halfValue_hi]
    exact endsInWrite_quiet s r _ _
  · exact endsInWrite_quiet s r _ _
  · exact endsInWrite_quiet s r _ _
  · exact endsInWrite_quiet s r _ _
  · exact fun _ => fieldMask_getLsbD hi lo

end Sys2Proof.Machine
end

section
/-! The lock of IPL<2:0> while NSTDIS is set (42_sfr_access.md R123, 10_state.md R15). An access leaves SR alone or is a
register write; a register write leaves IPL<2:0> alone while NSTDIS is set; and no flag that an instruction writes is a
bit of IPL<2:0>. -/

namespace Sys2Proof.Machine

/-- An access from `s` that is not refused leaves IPL<2:0>. -/
def AccessKeepsIpl (s : State) (r : Except Refusal (State × Events)) : Prop := ∀ t e, r = .ok (t, e) → ipl t = ipl s

/-- A result from `s` that is a next state has the IPL<2:0> of `s` or is a device reset. -/
def ResultKeepsIpl (s : State) (r : Res) : Prop := ∀ t, r = .next t → ipl t = ipl s ∨ IsReset t

theorem ipl_of_sr {s t : State} (h : t.sr = s.sr) : ipl t = ipl s := congrArg (BitVec.extractLsb' 5 3) h

/-! The accesses. -/

/-- The lock of R123: with NSTDIS set a write of SR reaches N, OV, Z and C, and the clear-only bits. -/
theorem ipl_srWrite {s : State} (h : nstdis s = true) (v sel : Word) :
    ipl { s with sr := mergeWrite s.sr v sel (if nstdis s then 0x000F#16 else 0x00EF#16) 0x3400#16 } = ipl s := by
  refine ipl_congr fun b h5 h8 => ?_
  have hb : b < 16 := by omega
  have hmask : ¬ (b ∈ [0, 1, 2, 3] ∨ (b ∈ [5, 6, 7] ∧ nstdis s = false)) := by simp [h]; omega
  have hclear : b ∉ [10, 12, 13] := by simp; omega
  refine (mergeWrite_bit s.sr v sel _ _ b).trans ?_
  rw [srMask_getLsbD _ hb, srClearOnly_getLsbD hb, decide_eq_false hmask, decide_eq_false hclear]
  simp

theorem accessKeepsIpl_sfrWrite {s : State} (h : nstdis s = true) (r : Sfr) (v sel : Word) :
    AccessKeepsIpl s (sfrWrite s r v sel) := by
  intro t e hw
  cases r with
  | sr =>
    cases hw
    exact ipl_srWrite h v sel
  | disicnt =>
    cases hw
    exact ipl_of_sr (writeDisicnt_sr s _)
  | intcon1 =>
    rw [sfrWrite] at hw
    split at hw <;> cases hw
    rfl
  | ipc x =>
    rw [sfrWrite] at hw
    split at hw <;> cases hw
    rfl
  | w | splim | corcon | intcon2 | inttreg | rcon | osccon | ifs | iec =>
    cases hw
    rfl

theorem accessKeepsIpl_writeWord {s : State} (h : nstdis s = true) (a : DataAddr) (v : Word) :
    AccessKeepsIpl s (writeWord s a v) := by
  intro t e hw
  rcases writeWord_cases hw with ⟨-, rfl, -⟩ | ⟨-, r, -, hr⟩ | ⟨-, -, -, rfl⟩
  · rfl
  · exact accessKeepsIpl_sfrWrite h r _ _ t e hr
  · exact ipl_of_sr (by rw [ramWrite_sr, ramWrite_sr])

theorem accessKeepsIpl_writeByte {s : State} (h : nstdis s = true) (a : DataAddr) (v : Byte) :
    AccessKeepsIpl s (writeByte s a v) := by
  intro t e hw
  rcases writeByte_cases hw with ⟨-, rfl, -⟩ | ⟨-, r, -, hr⟩ | ⟨-, -, -, rfl⟩
  · rfl
  · exact accessKeepsIpl_sfrWrite h r _ _ t e hr
  · exact ipl_of_sr (ramWrite_sr s a v)

theorem accessKeepsIpl_modifyBit {s : State} (h : nstdis s = true) (f : DataAddr) (b : BitVec 4) (v : Bool) :
    AccessKeepsIpl s (modifyBit s f b v) := by
  intro t e hw
  rcases modifyBit_cases hw with ⟨r, -, hr⟩ | ⟨rfl, -⟩ | ⟨a, u, hr⟩
  · exact accessKeepsIpl_sfrWrite h r _ _ t e hr
  · rfl
  · exact accessKeepsIpl_writeByte h a u t e hr

/-- A push is a word write, or none, and a new W15. -/
theorem accessKeepsIpl_push16 {s : State} (h : nstdis s = true) (v : Word) (inhibit : Bool) :
    AccessKeepsIpl s (push16 s v inhibit) := by
  intro t e hp
  rcases push16_cases hp with ⟨-, rfl⟩ | ⟨-, s1, e1, hw, rfl⟩
  · rfl
  · exact accessKeepsIpl_writeWord h _ _ s1 e1 hw

/-! The instructions. -/

theorem resultKeepsIpl_next {s t : State} (h : ipl t = ipl s) : ResultKeepsIpl s (.next t) := by
  intro u hu
  cases hu
  exact .inl h

/-- The trap events of an operation set flags of INTCON1, or reset the device. -/
theorem resultKeepsIpl_finish {s t : State} (e : Events) (h : ipl t = ipl s) : ResultKeepsIpl s (finish e t) := by
  intro u hu
  rcases finish_cases hu with ⟨-, rfl⟩ | ⟨-, hraise⟩
  · exact .inl h
  · rcases raiseHard_cases hraise with ⟨-, rfl⟩ | ⟨-, -, rfl⟩
    · exact .inr ⟨_, _, rfl⟩
    · exact .inl h

theorem resultKeepsIpl_access {s s1 : State} {r : Except Refusal (State × Events)} (e : Events) (hs : ipl s1 = ipl s)
    (hr : AccessKeepsIpl s1 r) : ResultKeepsIpl s (finishAccess r advance e) := by
  intro u hu
  obtain ⟨t, f, hok, hf⟩ := finishAccess_cases hu
  exact resultKeepsIpl_finish (t := advance t) _ ((hr t f hok).trans hs) u hf

theorem ipl_freeFlags (s : State) : ipl (freeFlags s) = ipl s := (keptFlags_freeFlags s).1

/-- OA and OB are no bits of IPL<2:0>. -/
theorem ipl_putAcc (s : State) (acc : Acc) (v : BitVec 40) (c : Bool) : ipl (putAcc s acc v c) = ipl s := by
  have hbit : 8 ≤ overflowStatusBit acc ∧ overflowStatusBit acc < 16 := by cases acc <;> decide
  refine ipl_congr fun b h5 h8 => ?_
  have hne : b ≠ overflowStatusBit acc := by omega
  rw [putAcc_sr, setBit_getLsbD _ hbit.2, if_neg hne]

theorem resultKeepsIpl_writeAccumulator (acc : Acc) (e : Events) (s : State) :
    ResultKeepsIpl s (writeAccumulator acc e s) :=
  resultKeepsIpl_finish _ ((ipl_putAcc (freeFlags s) acc _ _).trans (ipl_freeFlags s))

theorem resultKeepsIpl_execSftac (acc : Acc) (c : ShiftCount) (s : State) : ResultKeepsIpl s (execSftac acc c s) := by
  rw [execSftac]
  split
  · exact resultKeepsIpl_finish _ (ipl_freeFlags s)
  · exact resultKeepsIpl_writeAccumulator acc quiet s

/-- The flags of a divide and RA are no bits of IPL<2:0>. -/
theorem ipl_afterDivide (s : State) (n q r : WReg) (u v : Word) (goesOn : Bool) :
    ipl (afterDivide s n q r u v goesOn) = ipl s :=
  ipl_congr fun _ h5 h8 => afterDivide_kept s n q r u v goesOn (openFlags_ipl h5 h8) (by omega)

theorem resultKeepsIpl_execPopF {s : State} (h : nstdis s = true) (f : DataAddr) : ResultKeepsIpl s (execPopF f s) := by
  rw [execPopF]
  split
  · exact resultKeepsIpl_finish _ rfl
  · exact resultKeepsIpl_access _ rfl (accessKeepsIpl_writeWord (s := popState s) h f _)

theorem resultKeepsIpl_execBitIndirect {s : State} (h : nstdis s = true) (op : BitOp) (p : WReg) (b : BitVec 4) :
    ResultKeepsIpl s (execBitIndirect op p b s) := by
  obtain ⟨f, hflags, ⟨hipl, -⟩, -⟩ := bitOpFlags_cases s op
  rw [execBitIndirect, hflags]
  split
  · exact resultKeepsIpl_finish _ hipl
  · exact resultKeepsIpl_access _ hipl (accessKeepsIpl_modifyBit (s := { s with sr := f }) h _ b _)

theorem resultKeepsIpl_exec {i : Instr} {s : State} (h : nstdis s = true) (hretfie : i ≠ .retfie)
    (hmovD : ∀ form, i ≠ .movD form) : ResultKeepsIpl s (exec i s) := by
  cases i with
  | retfie => exact absurd rfl hretfie
  | movD form => exact absurd rfl (hmovD form)
  | nop | disi | pwrsav => exact resultKeepsIpl_next rfl
  | reset =>
    intro t ht
    cases ht
    exact .inr ⟨_, _, rfl⟩
  | ret | goto | bra | movFromF => exact resultKeepsIpl_finish _ rfl
  | movLit k d =>
    rw [exec_movLit]
    exact resultKeepsIpl_finish _ rfl
  | pushF f => exact resultKeepsIpl_access _ rfl (accessKeepsIpl_push16 h _ _)
  | popF f => exact resultKeepsIpl_execPopF h f
  | movToF r f => exact resultKeepsIpl_access _ rfl (accessKeepsIpl_writeWord h f _)
  | bsetF f b => exact resultKeepsIpl_access _ rfl (accessKeepsIpl_modifyBit h f b true)
  | bclrF f b => exact resultKeepsIpl_access _ rfl (accessKeepsIpl_modifyBit h f b false)
  | sftac acc c => exact resultKeepsIpl_execSftac acc c s
  | repeatDivide m n q r =>
    rw [exec_repeatDivide]
    exact resultKeepsIpl_next (ipl_afterDivide s n q r _ _ _)
  | macClass acc x y => exact resultKeepsIpl_writeAccumulator acc _ s
  | btsc | btss => exact resultKeepsIpl_finish _ (ipl_freeFlags s)
  | bitIndirect op p b => exact resultKeepsIpl_execBitIndirect h op p b

/-- Settles O55: every instruction but RETFIE and MOV.D leaves IPL<2:0> or resets the device, whose SR is 0 then. -/
theorem iplIsLockedWithoutNesting : Obligations.IplIsLockedWithoutNesting := by
  intro s t i hnstdis hretfie hmovD ht
  refine (resultKeepsIpl_exec hnstdis hretfie hmovD t ht).imp_right fun hreset => ?_
  obtain ⟨-, hdev⟩ := (fixedPart_eq_iff s t).1 (resultKeepsFixed_exec i s t ht)
  obtain ⟨c, u, rfl⟩ := hreset
  exact ⟨rfl, congrArg resetPc hdev⟩

end Sys2Proof.Machine
end

section
/-! Arbitration (60_exceptions.md R135 to R139): the winner among the requesting sources, the mask test, and what the
boundary check takes. `winnerAmong` and `topTrapAmong` each carry the best one so far; what they return is said once, for
any list, by induction on it. -/

namespace Sys2Proof.Machine

/-! The winner (R136, R137). -/

/-- Source `n` goes before source `m`: a greater priority, or an equal one and a smaller number (R137). -/
def goesBefore (s : State) (n m : Nat) : Prop :=
  irqPriority s m < irqPriority s n ∨ (irqPriority s m = irqPriority s n ∧ n < m)

/-- `n` requests, and goes before every other source of the list that requests. -/
def IsWinnerOf (s : State) (l : List Nat) (n : Nat) : Prop :=
  n ∈ l ∧ requests s n = true ∧ ∀ m ∈ l, requests s m = true → m ≠ n → goesBefore s n m

theorem goesBefore_trans {s : State} {n k m : Nat} (hnk : goesBefore s n k) (hkm : goesBefore s k m) :
    goesBefore s n m := by
  rw [goesBefore] at *
  omega

/-- The winner of a list goes before whatever one of the list goes before. -/
theorem IsWinnerOf.before {s : State} {l : List Nat} {n k m : Nat} (h : IsWinnerOf s l n) (hk : k ∈ l)
    (hreq : requests s k = true) (hkm : goesBefore s k m) : goesBefore s n m := by
  obtain ⟨-, -, hfirst⟩ := h
  by_cases hne : k = n
  · exact hne ▸ hkm
  · exact goesBefore_trans (hfirst k hk hreq hne) hkm

/-- A later source takes the place of the best one so far only with a greater priority. -/
theorem winnerAmong_some (s : State) (l : List Nat) {b : Nat} (hsorted : (b :: l).Pairwise (· < ·))
    (hb : requests s b = true) : ∃ n, winnerAmong s l (some b) = some n ∧ IsWinnerOf s (b :: l) n := by
  induction l generalizing b with
  | nil =>
    exact ⟨b, rfl, List.mem_singleton_self b, hb, fun m hm _ hne => absurd (List.mem_singleton.1 hm) hne⟩
  | cons c l ih =>
    obtain ⟨hbelow, hcl⟩ := List.pairwise_cons.1 hsorted
    obtain ⟨hbc, hbl⟩ := List.forall_mem_cons.1 hbelow
    rw [winnerAmong]
    split
    · rename_i hc
      simp only [Bool.and_eq_true, decide_eq_true_eq] at hc
      obtain ⟨hreq, hgreater⟩ := hc
      obtain ⟨n, hn, hwinner⟩ := ih hcl hreq
      have ⟨hmem, hnreq, hfirst⟩ := hwinner
      exact ⟨n, hn, List.mem_cons_of_mem b hmem, hnreq, List.forall_mem_cons.2
        ⟨fun _ _ => hwinner.before List.mem_cons_self hreq (.inl hgreater), hfirst⟩⟩
    · rename_i hc
      simp only [Bool.and_eq_true, decide_eq_true_eq, not_and, Nat.not_lt] at hc
      have hkept (hreq : requests s c = true) : goesBefore s b c := by
        have hle := hc hreq
        rw [goesBefore]
        omega
      obtain ⟨n, hn, hwinner⟩ := ih (List.pairwise_cons.2 ⟨hbl, (List.pairwise_cons.1 hcl).2⟩) hb
      have ⟨hmem, hnreq, hfirst⟩ := hwinner
      obtain ⟨hfirstb, hfirstl⟩ := List.forall_mem_cons.1 hfirst
      refine ⟨n, hn, ?_, hnreq, List.forall_mem_cons.2 ⟨hfirstb, List.forall_mem_cons.2 ⟨fun hreq _ => ?_, hfirstl⟩⟩⟩
      · exact List.mem_cons.2 ((List.mem_cons.1 hmem).imp_right (List.mem_cons_of_mem c))
      · exact hwinner.before List.mem_cons_self hb (hkept hreq)

/-- No source of the list requests, or the first of the greatest priority is returned. -/
theorem winnerAmong_none (s : State) (l : List Nat) (hsorted : l.Pairwise (· < ·)) :
    (winnerAmong s l none = none ∧ ∀ m ∈ l, requests s m = false) ∨
    ∃ n, winnerAmong s l none = some n ∧ IsWinnerOf s l n := by
  induction l with
  | nil => exact .inl ⟨rfl, fun m hm => nomatch hm⟩
  | cons b l ih =>
    rw [winnerAmong]
    cases hb : requests s b with
    | true => exact .inr (winnerAmong_some s l hsorted hb)
    | false =>
      rcases ih (List.pairwise_cons.1 hsorted).2 with ⟨hnone, hall⟩ | ⟨n, hn, hmem, hreq, hfirst⟩
      · exact .inl ⟨hnone, List.forall_mem_cons.2 ⟨hb, hall⟩⟩
      · refine .inr ⟨n, hn, List.mem_cons_of_mem b hmem, hreq, List.forall_mem_cons.2 ⟨fun h => ?_, hfirst⟩⟩
        exact absurd (hb.symm.trans h) Bool.false_ne_true

theorem mem_irqTable_of_requests {s : State} {n : Nat} (h : requests s n = true) : n ∈ irqTable := by
  rw [requests, Bool.and_eq_true] at h
  exact mem_irqTable_of_irqFlag h.1

/-- The winner, over every number: R131's table holds all that request, in natural order. -/
theorem winner_cases (s : State) : (winner s = none ∧ ∀ m, requests s m = false) ∨
    ∃ n, winner s = some n ∧ requests s n = true ∧ ∀ m, requests s m = true → m ≠ n → goesBefore s n m := by
  rcases winnerAmong_none s irqTable (by decide) with ⟨hnone, hall⟩ | ⟨n, hn, -, hreq, hfirst⟩
  · refine .inl ⟨hnone, fun m => ?_⟩
    by_contra hm
    have hreq : requests s m = true := eq_true_of_ne_false hm
    exact hm (hall m (mem_irqTable_of_requests hreq))
  · exact .inr ⟨n, hn, hreq, fun m hm => hfirst m (mem_irqTable_of_requests hm) hm⟩

/-- Settles O39: no two sources go before each other. -/
theorem winnerIsGreatestThenFirst : Obligations.WinnerIsGreatestThenFirst := by
  intro s
  rcases winner_cases s with ⟨hnone, hall⟩ | ⟨k, hk, hreq, hfirst⟩
  · refine ⟨fun n => ⟨fun h => ?_, fun h => ?_⟩, iff_of_true hnone hall⟩
    · exact absurd (hnone.symm.trans h) (Option.some_ne_none n).symm
    · exact absurd ((hall n).symm.trans h.1) Bool.false_ne_true
  · refine ⟨fun n => ⟨fun h => ?_, fun ⟨hnreq, hnfirst⟩ => ?_⟩, iff_of_false ?_ fun hall => ?_⟩
    · obtain rfl : k = n := Option.some.inj (hk.symm.trans h)
      exact ⟨hreq, hfirst⟩
    · by_contra hne
      have hkn : k ≠ n := fun e => hne (e ▸ hk)
      have hbefore := hfirst n hnreq (Ne.symm hkn)
      have hafter := hnfirst k hreq hkn
      rw [goesBefore] at hbefore
      omega
    · rw [hk]
      exact Option.some_ne_none k
    · exact absurd ((hall k).symm.trans hreq) Bool.false_ne_true

/-! The mask test (R135, R138). -/

theorem irqPriority_le_seven (s : State) (n : Nat) : irqPriority s n ≤ 7 := by
  rw [irqPriority]
  split
  · exact Nat.le_of_lt_succ (BitVec.isLt _)
  · exact Nat.zero_le 7

theorem passesMask_eq_true_iff (s : State) (l : Nat) :
    passesMask s l = true ↔ cpuIPL s < l ∧ (s.disiActive = false ∨ l = 7) := by
  simp [passesMask]

theorem presentableIrq_eq_some_iff (s : State) (n : Nat) : presentableIrq s = some n ↔
    winner s = some n ∧ cpuIPL s < irqPriority s n ∧ (s.disiActive = false ∨ irqPriority s n = 7) := by
  rw [← passesMask_eq_true_iff, presentableIrq]
  cases hw : winner s with
  | none => simp
  | some m =>
    by_cases hm : passesMask s (irqPriority s m) = true
    · simp only [hm, if_true, Option.some.injEq]
      exact ⟨fun h => ⟨h, h ▸ hm⟩, fun h => h.1⟩
    · simp only [hm, Bool.false_eq_true, if_false, reduceCtorEq, Option.some.injEq, false_iff, not_and]
      rintro rfl
      exact hm

/-- At CPU priority 7 or above no interrupt is presented. -/
theorem presentableIrq_eq_none {s : State} (h : 7 ≤ cpuIPL s) : presentableIrq s = none := by
  rw [Option.eq_none_iff_forall_ne_some]
  intro n hn
  obtain ⟨-, hlevel, -⟩ := (presentableIrq_eq_some_iff s n).1 hn
  have := irqPriority_le_seven s n
  omega

/-- Where any requester passes the mask, so does the winner, whose priority is no smaller. -/
theorem presentableIrq_isSome {s : State} {n : Nat} (hreq : requests s n = true) (hlevel : cpuIPL s < irqPriority s n)
    (hdisi : s.disiActive = false ∨ irqPriority s n = 7) : (presentableIrq s).isSome = true := by
  rcases winner_cases s with ⟨-, hall⟩ | ⟨k, hk, -, hfirst⟩
  · exact absurd ((hall n).symm.trans hreq) Bool.false_ne_true
  · have hge : irqPriority s n ≤ irqPriority s k := by
      by_cases hkn : n = k
      · rw [hkn]
      · have := hfirst n hreq hkn
        rw [goesBefore] at this
        omega
    have hle := irqPriority_le_seven s k
    have hpresent : presentableIrq s = some k :=
      (presentableIrq_eq_some_iff s k).2 ⟨hk, by omega, hdisi.imp_right fun h => by omega⟩
    rw [hpresent]
    rfl

theorem trapPresentable_iff (s : State) (t : Trap) :
    trapPresentable s t = true ↔ trapPending s t = true ∧ cpuIPL s < trapLevel s.dev t := by
  simp [trapPresentable]

theorem ipl_toNat_lt (s : State) : (ipl s).toNat < 8 := (ipl s).isLt

/-- With R134's levels every trap stands above every CPU priority without IPL3, and none above 15. -/
theorem trapLevel_bounds {d : Device} (h : trapLevelsOrdered d = true) (t : Trap) :
    8 ≤ trapLevel d t ∧ trapLevel d t ≤ 15 := by
  simp only [trapLevelsOrdered, Bool.and_eq_true, decide_eq_true_eq] at h
  cases t <;> (rw [trapLevel]; omega)

theorem cpuIPL_of_ipl3 {s : State} (h : ipl3 s = true) : cpuIPL s = 8 + (ipl s).toNat := by
  rw [cpuIPL, h]
  rfl

theorem cpuIPL_of_not_ipl3 {s : State} (h : ipl3 s = false) : cpuIPL s = (ipl s).toNat := by
  rw [cpuIPL, h]
  exact Nat.zero_add _

/-- Settles O40: the two tests, and what follows from the bounds of priorities and levels. -/
theorem presentationTest : Obligations.PresentationTest := by
  intro s
  have hipl := ipl_toNat_lt s
  refine ⟨?_, ?_, presentableIrq_eq_some_iff s, trapPresentable_iff s,
    fun ⟨n, hreq, hlevel, hdisi⟩ => presentableIrq_isSome hreq hlevel hdisi, fun h => presentableIrq_eq_none ?_,
    fun hordered t hpending hipl3 => (trapPresentable_iff s t).2 ⟨hpending, ?_⟩⟩
  · rw [cpuIPL, ipl, BitVec.extractLsb'_toNat, Nat.shiftRight_eq_div_pow]
    rfl
  · cases h3 : ipl3 s with
    | true => rw [cpuIPL_of_ipl3 h3]; omega
    | false => rw [cpuIPL_of_not_ipl3 h3]; omega
  · rcases h with h7 | h3
    · rw [cpuIPL, h7]
      exact Nat.le_add_left 7 _
    · rw [cpuIPL_of_ipl3 h3]
      omega
  · have := trapLevel_bounds hordered t
    rw [cpuIPL_of_not_ipl3 hipl3]
    omega

/-! The boundary check (R139, R147). -/

/-- A presentable trap above every other presentable one is returned, wherever it stands. -/
theorem topTrapAmong_greatest {s : State} {t : Trap} (ht : trapPresentable s t = true)
    (hgreatest : ∀ v, trapPresentable s v = true → v ≠ t → trapLevel s.dev v < trapLevel s.dev t) (l : List Trap)
    {best : Option Trap} (hbest : ∀ u, best = some u → trapPresentable s u = true) (hmem : t ∈ l ∨ best = some t) :
    topTrapAmong s l best = some t := by
  induction l generalizing best with
  | nil => exact hmem.resolve_left List.not_mem_nil
  | cons v l ih =>
    cases best with
    | none =>
      rw [topTrapAmong]
      refine ih (fun u hu => ?_) ?_
      · split at hu
        · rename_i hv
          exact Option.some.inj hu ▸ hv
        · cases hu
      · rcases List.mem_cons.1 (hmem.resolve_right (Option.some_ne_none t).symm) with rfl | h
        · exact .inr (if_pos ht)
        · exact .inl h
    | some u =>
      have hu := hbest u rfl
      rw [topTrapAmong]
      refine ih (fun w hw => ?_) ?_
      · split at hw
        · rename_i hv
          simp only [Bool.and_eq_true] at hv
          exact Option.some.inj hw ▸ hv.1
        · exact hbest w hw
      · by_cases hut : u = t
        · subst hut
          have hkept : ¬ (trapPresentable s v && decide (trapLevel s.dev u < trapLevel s.dev v)) = true := by
            simp only [Bool.and_eq_true, decide_eq_true_eq, not_and, Nat.not_lt]
            intro hv
            by_cases hvu : v = u
            · rw [hvu]
            · exact (hgreatest v hv hvu).le
          exact .inr (if_neg hkept)
        · rcases hmem with h | h
          · rcases List.mem_cons.1 h with rfl | h
            · have hlt := hgreatest u hu hut
              exact .inr (if_pos (by simp [ht, hlt]))
            · exact .inl h
          · exact absurd (Option.some.inj h) hut

theorem topTrap_of_greatest {s : State} {t : Trap} (ht : trapPresentable s t = true)
    (hgreatest : ∀ v, trapPresentable s v = true → v ≠ t → trapLevel s.dev v < trapLevel s.dev t) :
    topTrap s = some t :=
  topTrapAmong_greatest ht hgreatest trapsByLevel (fun _ hu => nomatch hu) (.inl (by cases t <;> decide))

theorem topTrap_eq_none {s : State} (h : ∀ t, trapPresentable s t = false) : topTrap s = none := by
  simp [topTrap, trapsByLevel, topTrapAmong, h]

/-- A deferrable exception is taken, or it is deferred below its bound and counted (R139, D8). -/
theorem deferOrTake_cases {x : Exception} {limit : Nat} {s u : State} {y : Option Exception}
    (h : deferOrTake x limit s = (y, u)) :
    (y = some x ∧ u.skid = 0) ∨ (y = none ∧ s.skid < limit ∧ u.skid = s.skid + 1) := by
  rw [deferOrTake] at h
  split at h
  · rename_i hc
    simp only [Bool.and_eq_true, decide_eq_true_eq] at hc
    cases h
    exact .inr ⟨rfl, hc.1, rfl⟩
  · cases h
    exact .inl ⟨rfl, rfl⟩

theorem boundaryCheck_trap {s : State} {t : Trap} (h : topTrap s = some t) : boundaryCheck s =
    if hardTrap t then (some (.trap t), { s with skid := 0 }) else deferOrTake (.trap t) s.dev.skidMaxSoft s := by
  rw [boundaryCheck, h]

theorem boundaryCheck_irq {s : State} {n : Nat} (h : topTrap s = none) (hn : presentableIrq s = some n) :
    boundaryCheck s = deferOrTake (.irq n) s.dev.skidMaxIrq s := by
  rw [boundaryCheck, h, hn]

theorem boundaryCheck_none {s : State} (h : topTrap s = none) (hn : presentableIrq s = none) :
    boundaryCheck s = (none, { s with skid := 0 }) := by
  rw [boundaryCheck, h, hn]

/-- Settles O41: the greatest trap at once or by `deferOrTake`, else the interrupt, else nothing. -/
theorem boundaryCheckChooses : Obligations.BoundaryCheckChooses := by
  intro s u x h
  refine ⟨?_, fun t ht hgreatest => ?_, fun hnotrap n hn => ?_, fun hnotrap hn => ?_⟩
  · obtain ⟨k, -, hk⟩ := boundaryCheck_skid s
    rw [h] at hk
    subst hk
    rfl
  · rw [boundaryCheck_trap (topTrap_of_greatest ht hgreatest)] at h
    split at h
    · cases h
      exact .inl ⟨rfl, rfl⟩
    · rename_i hsoft
      refine (deferOrTake_cases h).imp_right fun ⟨hnone, hbound, hcount⟩ => ?_
      exact ⟨hnone, eq_false_of_ne_true hsoft, hbound, hcount⟩
  · rw [boundaryCheck_irq (topTrap_eq_none hnotrap) hn] at h
    exact deferOrTake_cases h
  · rw [boundaryCheck_none (topTrap_eq_none hnotrap) hn] at h
    cases h
    exact ⟨rfl, rfl⟩

end Sys2Proof.Machine
end

section
/-! The entry of an exception whose frame lies in RAM (60_exceptions.md R140, R142, R143, R145): the state in which the
handler begins, its CPU priority level, and what that level admits. -/

namespace Sys2Proof.Machine

/-- The state in which the handler of `x` begins at `a`, where the frame lies in RAM and leaves the memory `m`. -/
def afterEntry (s : State) (x : Exception) (a : ProgAddr) (m : List Host.Cell) : State :=
  { s with
    pc := a
    w := s.w.set 15 (sp s + 4#16)
    sr := withIpl s.sr (exceptionIpl s s x)
    corcon := setBit s.corcon 3 (exceptionIpl3 s x)
    inttreg := 0#4 ++ BitVec.ofNat 4 (exceptionLevel s x) ++ 0#1 ++ exceptionVecnum s x
    inttregFresh := true
    power := .run
    disiLoaded := false
    badFetch := badFetchAfter s x
    bufPc := returnAddress s x
    bufSrl := srl s
    mem := m
    intcon1 := s.intcon1 ||| stkerrIf (pushStackError s (sp s) || pushStackError s (sp s + 2#16)) }

/-- RAM in `t` is that of `s` with a frame of the return address `ret` at W15 of `s` (R140). -/
def holdsFrame (s t : State) (ret : ProgAddr) : Prop :=
  ∀ a, ramRead t a =
    if a = sp s then lowByte (frameFirst s ret)
    else if a = sp s + 1#16 then highByte (frameFirst s ret)
    else if a = sp s + 2#16 then lowByte (frameSecond s ret)
    else if a = sp s + 3#16 then highByte (frameSecond s ret)
    else ramRead s a

/-- An entry with its frame in RAM completes exactly where the vector gives an address. -/
theorem enterException_ram {s : State} (x : Exception) (h0 : ramWordAt s (sp s) = true)
    (h2 : ramWordAt s (sp s + 2#16) = true) :
    ∃ m, (∀ a, holdsFrame s (afterEntry s x a m) (returnAddress s x)) ∧
      ∀ u, enterException x s = .next u ↔
        ∃ a, vectorTarget s (exceptionVector s x) = .ok a ∧ u = afterEntry s x a m := by
  obtain ⟨t, hpush, ht, -, hmem⟩ := pushFrame_ram (returnAddress s x) h0 h2
  generalize t.mem = m at ht
  subst ht
  refine ⟨m, fun a c => (ramRead_congr rfl rfl rfl c).trans (hmem c), fun u => ?_⟩
  have hvector : vectorTarget { s with w := s.w.set 15 (sp s + 4#16), mem := m } (exceptionVector s x) =
      vectorTarget s (exceptionVector s x) := rfl
  rw [enterException, hpush]
  simp only [hvector]
  cases vectorTarget s (exceptionVector s x) with
  | error e => cases e <;> simp
  | ok a =>
    simp only [finish_stackEvent, Host.Outcome.next.injEq, Except.ok.injEq, exists_eq_left']
    exact eq_comm

/-- A usable vector word (D13, R6). -/
theorem vectorTarget_usable {s : State} {v : Nat} {w : ProgWord} (hat : progAt s (vectorAddress s v) = some (.word w))
    (h23 : w.getLsbD 23 = false) (h0 : w.getLsbD 0 = false)
    (hwidth : narrow s.dev.pcBits (w.extractLsb' 0 23) = w.extractLsb' 0 23) :
    vectorTarget s v = .ok (w.extractLsb' 0 23) := by
  have heven : (w.extractLsb' 0 23).getLsbD 0 = false := by
    rw [BitVec.getLsbD_extractLsb', h0, Bool.and_false]
  have husable : usableVector s.dev w = true := by
    rw [usableVector, pcOf, evenPc_of_even heven, hwidth, h23, beq_self_eq_true]
    rfl
  simp only [vectorTarget, hat, husable, if_true]

/-! The handler's first state. -/

/-- Replacing IPL<2:0> keeps the other bits of SR. -/
theorem withIpl_getLsbD (sr : Word) (k : BitVec 3) {b : Nat} (h : b < 5 ∨ 7 < b) :
    (withIpl sr k).getLsbD b = sr.getLsbD b := by
  by_cases hb : b < 16
  · rw [withIpl, BitVec.getLsbD_append, BitVec.getLsbD_append]
    rcases h with h | h
    · simp [h]
    · have h5 : ¬ b < 5 := by omega
      have h3 : ¬ b - 5 < 3 := by omega
      have hrest : b - 5 - 3 < 8 := by omega
      have hpos : 8 + (b - 5 - 3) = b := by omega
      simp [h5, h3, hrest, hpos]
  · rw [BitVec.getLsbD_of_ge _ b (by omega), BitVec.getLsbD_of_ge _ b (by omega)]

section
variable (s : State) (x : Exception) (a : ProgAddr) (m : List Host.Cell)

theorem ipl_afterEntry : ipl (afterEntry s x a m) = exceptionIpl s s x := withIpl_ipl _ _

theorem ipl3_afterEntry : ipl3 (afterEntry s x a m) = exceptionIpl3 s x := by
  refine (setBit_getLsbD _ (by decide) _ 3).trans ?_
  rw [if_pos rfl]

theorem sr_afterEntry {b : Nat} (h : b < 5 ∨ 7 < b) : (afterEntry s x a m).sr.getLsbD b = s.sr.getLsbD b :=
  withIpl_getLsbD s.sr _ h

/-- A pending trap stays pending: the entry clears no flag. -/
theorem trapPending_afterEntry {v : Trap} (h : trapPending s v = true) : trapPending (afterEntry s x a m) v = true := by
  rw [trapPending] at h
  rw [trapPending, afterEntry, BitVec.getLsbD_or, h, Bool.true_or]

end

/-- An interrupt that is presented finds no trap in progress. -/
theorem not_ipl3_of_presentableIrq {s : State} {n : Nat} (h : presentableIrq s = some n) : ipl3 s = false := by
  obtain ⟨-, hlevel, -⟩ := (presentableIrq_eq_some_iff s n).1 h
  have hle := irqPriority_le_seven s n
  by_contra h3
  rw [cpuIPL_of_ipl3 (eq_true_of_ne_false h3)] at hlevel
  omega

/-- A source that is presented is one of the device. -/
theorem implemented_of_presentableIrq {s : State} {n : Nat} (h : presentableIrq s = some n) :
    implemented s.dev n = true := by
  obtain ⟨hwinner, -⟩ := (presentableIrq_eq_some_iff s n).1 h
  rcases winner_cases s with ⟨hnone, -⟩ | ⟨k, hk, hreq, -⟩
  · exact absurd (hnone.symm.trans hwinner) (Option.some_ne_none n).symm
  · obtain rfl : k = n := Option.some.inj (hk.symm.trans hwinner)
    exact implemented_of_requests hreq

/-- The level of an interrupt's handler (R143). -/
theorem cpuIPL_afterEntry_irq {s : State} {n : Nat} (h : ipl3 s = false) (a : ProgAddr) (m : List Host.Cell) :
    cpuIPL (afterEntry s (.irq n) a m) = if nstdis s then 7 else irqPriority s n := by
  have h3 : ipl3 (afterEntry s (.irq n) a m) = false := (ipl3_afterEntry s _ a m).trans h
  rw [cpuIPL_of_not_ipl3 h3, ipl_afterEntry, exceptionIpl]
  split
  · rfl
  · exact Nat.mod_eq_of_lt (by have := irqPriority_le_seven s n; omega)

/-- The level of a trap's handler is the trap's, whatever NSTDIS is (R142). -/
theorem cpuIPL_afterEntry_trap {s : State} (hordered : trapLevelsOrdered s.dev = true) (t : Trap) (a : ProgAddr)
    (m : List Host.Cell) : cpuIPL (afterEntry s (.trap t) a m) = trapLevel s.dev t := by
  have hbounds := trapLevel_bounds hordered t
  rw [cpuIPL_of_ipl3 (ipl3_afterEntry s _ a m), ipl_afterEntry, exceptionIpl, BitVec.toNat_ofNat,
    Nat.mod_eq_of_lt (by omega)]
  omega

/-! The frame of D3. -/

/-- An even address ends in 0. -/
theorem extract_append_zero {ret : ProgAddr} (h : ret.getLsbD 0 = false) :
    ret.extractLsb' 1 15 ++ 0#1 = ret.extractLsb' 0 16 := by
  apply BitVec.eq_of_getLsbD_eq
  intro b hb
  rw [BitVec.getLsbD_append, BitVec.getLsbD_extractLsb', BitVec.getLsbD_extractLsb']
  by_cases hzero : b = 0
  · rw [hzero]
    exact h.symm
  · have h1 : ¬ b < 1 := by omega
    have h15 : b - 1 < 15 := by omega
    have hpred : 1 + (b - 1) = b := by omega
    rw [if_neg h1, decide_eq_true h15, decide_eq_true (show b < 16 from hb), hpred, Nat.zero_add]

theorem defaultFrame_words {s : State} {ret : ProgAddr} (hframe : s.dev.frame = defaultFrame)
    (heven : ret.getLsbD 0 = false) :
    frameFirst s ret = ret.extractLsb' 0 16 ∧
    frameSecond s ret = s.sr.extractLsb' 0 8 ++ BitVec.ofBool (s.corcon.getLsbD 3) ++ ret.extractLsb' 16 7 := by
  rw [frameFirst, frameSecond, hframe, frameWord_default_first, frameWord_default_second, extract_append_zero heven]
  exact ⟨rfl, rfl⟩

/-! Interrupts (R140, R143, R170). -/

/-- INTTREG after an interrupt's entry: ILR in bits 11:8, VECNUM in bits 6:0. -/
theorem latchedInttreg_eq {l n : Nat} (hl : l < 16) (hn : n < 128) :
    0#4 ++ BitVec.ofNat 4 l ++ 0#1 ++ BitVec.ofNat 7 n = BitVec.ofNat 16 (256 * l + n) := by
  have hlevel : (0#4 ++ BitVec.ofNat 4 l).toNat = l := by
    rw [BitVec.toNat_append]
    simpa using hl
  have hgap : (0#4 ++ BitVec.ofNat 4 l ++ 0#1).toNat = 2 * l := by
    rw [BitVec.toNat_append, hlevel, ← Nat.shiftLeft_add_eq_or_of_lt (by decide), Nat.shiftLeft_eq, Nat.mul_comm]
    rfl
  have hvecnum : (BitVec.ofNat 7 n).toNat = n := Nat.mod_eq_of_lt hn
  apply BitVec.eq_of_toNat_eq
  rw [BitVec.toNat_append, hgap, hvecnum, ← Nat.shiftLeft_add_eq_or_of_lt (by omega), Nat.shiftLeft_eq,
    BitVec.toNat_ofNat, Nat.mod_eq_of_lt (by omega)]
  omega

/-- IPL3 keeps its value where it is written with it. -/
theorem setBit_self (w : Word) {b : Nat} (hb : b < 16) : setBit w b (w.getLsbD b) = w := by
  apply BitVec.eq_of_getLsbD_eq
  intro i hi
  rw [setBit_getLsbD w hb]
  split
  · rename_i h
    rw [h]
  · rfl

/-- Settles O44: the entry is `afterEntry`, at the address that the vector word holds. -/
theorem interruptEntry : Obligations.InterruptEntry := by
  intro s n v hpresent heven h0 h2 hat h23 hbit0 hwidth
  obtain ⟨m, hframe, hentry⟩ := enterException_ram (.irq n) h0 h2
  have hexec := (hentry _).2 ⟨_, vectorTarget_usable hat h23 hbit0 hwidth, rfl⟩
  have hle := irqPriority_le_seven s n
  have hn := implemented_lt (implemented_of_presentableIrq hpresent)
  have hinttreg := latchedInttreg_eq (l := irqPriority s n) (n := n) (by omega) (by omega)
  refine ⟨_, hexec, ?_, ipl_afterEntry s (.irq n) _ m, fun b hb => sr_afterEntry s _ _ m hb, hframe _,
    fun hlayout => defaultFrame_words hlayout heven⟩
  rw [← hinttreg, afterEntry, exceptionIpl3, ipl3, setBit_self _ (by decide)]
  rfl

/-! Traps (R142, R150). -/

/-- The return address of a trap (D24). -/
theorem returnAddress_trap (s : State) (t : Trap) : returnAddress s (.trap t) = s.pc ∨
    (t = .addressError ∧ s.badFetch = true ∧ returnAddress s (.trap t) = nextPc s) := by
  cases t with
  | addressError =>
    rw [returnAddress]
    split
    · rename_i h
      rw [Bool.and_eq_true] at h
      exact .inr ⟨rfl, h.1, rfl⟩
    · exact .inl rfl
  | oscFail | stackError | mathError => exact .inl rfl

/-- Only the entry of the address error uses up the mark of a bad fetch. -/
theorem badFetchAfter_trap (s : State) (t : Trap) :
    badFetchAfter s (.trap t) = (s.badFetch && t != .addressError) := by
  cases t with
  | addressError => exact (Bool.and_false _).symm
  | oscFail | stackError | mathError => exact (Bool.and_true _).symm

/-- ILR is in bits 11:8 of INTTREG. -/
theorem latchedInttreg_ilr (l : BitVec 4) (v : BitVec 7) : (0#4 ++ l ++ 0#1 ++ v).extractLsb' 8 4 = l := by
  apply BitVec.eq_of_getLsbD_eq
  intro i hi
  rw [BitVec.getLsbD_extractLsb', BitVec.getLsbD_append, BitVec.getLsbD_append, BitVec.getLsbD_append]
  interval_cases i <;> simp

/-- Settles O45: the entry is `afterEntry`, with IPL3 set and the trap's level. -/
theorem trapEntry : Obligations.TrapEntry := by
  intro s x v hpresent heven h0 h2 hat h23 hbit0 hwidth
  obtain ⟨m, hframe, hentry⟩ := enterException_ram (.trap x) h0 h2
  have hexec := (hentry _).2 ⟨_, vectorTarget_usable hat h23 hbit0 hwidth, rfl⟩
  have hret := returnAddress_trap s x
  have hreteven : (returnAddress s (.trap x)).getLsbD 0 = false := by
    rcases hret with h | ⟨-, -, h⟩
    · rw [h]; exact heven
    · rw [h]; exact pcOf_getLsbD_zero _ _
  refine ⟨_, _, hexec, hret, ?_, fun hordered => ⟨cpuIPL_afterEntry_trap hordered x _ m, ?_⟩,
    fun b hb => sr_afterEntry s _ _ m hb, hframe _, fun hlayout => defaultFrame_words hlayout hreteven⟩
  · rw [← badFetchAfter_trap]
    rfl
  · have hbounds := trapLevel_bounds hordered x
    rw [afterEntry, latchedInttreg_ilr, exceptionLevel, BitVec.toNat_ofNat, Nat.mod_eq_of_lt (by omega)]

/-! Nesting (R143, R145). -/

/-- Settles O47: the handler's level, and that the entry changes no request, no priority and no pending trap. -/
theorem handlersNestByLevel : Obligations.HandlersNestByLevel := by
  intro s u x h0 h2 hordered hexec
  obtain ⟨m, -, hentry⟩ := enterException_ram x h0 h2
  obtain ⟨a, -, rfl⟩ := (hentry u).1 hexec
  refine ⟨?_, ?_⟩
  · rintro n rfl hpresent
    have hlevel := cpuIPL_afterEntry_irq (n := n) (not_ipl3_of_presentableIrq hpresent) a m
    refine ⟨fun k hk => ?_, fun v hv => ?_⟩
    · obtain ⟨-, hgreater, -⟩ := (presentableIrq_eq_some_iff _ k).1 hk
      have hpriority : irqPriority (afterEntry s (.irq n) a m) k = irqPriority s k := rfl
      have hle := irqPriority_le_seven s k
      rw [hlevel, hpriority] at hgreater
      cases hnstdis : nstdis s with
      | true =>
        rw [hnstdis, if_pos rfl] at hgreater
        omega
      | false =>
        rw [hnstdis, if_neg Bool.false_ne_true] at hgreater
        exact ⟨rfl, hgreater⟩
    · have hbounds := trapLevel_bounds hordered v
      have hle := irqPriority_le_seven s n
      have hbelow : cpuIPL (afterEntry s (.irq n) a m) < trapLevel s.dev v := by
        rw [hlevel]
        split <;> omega
      exact (trapPresentable_iff _ v).2 ⟨trapPending_afterEntry s _ a m hv, hbelow⟩
  · rintro t rfl
    have hlevel := cpuIPL_afterEntry_trap hordered t a m
    have hbounds := trapLevel_bounds hordered t
    refine ⟨presentableIrq_eq_none (by omega), fun v hv => ?_⟩
    obtain ⟨-, hgreater⟩ := (trapPresentable_iff _ v).1 hv
    rw [hlevel] at hgreater
    exact hgreater

end Sys2Proof.Machine
end

section
/-! Trap events (60_exceptions.md R134, R146, R149, R153, R154), and the flags that the environment sets (R132, R168). -/

namespace Sys2Proof.Machine

/-! Levels and tables (R134; 10_state.md R23 to R51). -/

/-- No two traps share a level. -/
theorem trapLevel_injective {d : Device} (h : trapLevelsOrdered d = true) {t u : Trap}
    (heq : trapLevel d t = trapLevel d u) : t = u := by
  simp only [trapLevelsOrdered, Bool.and_eq_true, decide_eq_true_eq] at h
  by_contra hne
  cases t <;> cases u <;> simp [trapLevel] at hne heq <;> omega

/-- The hard traps of the default device are those of level 13 and above (R147). -/
theorem hardTrap_default (t : Trap) : hardTrap t = decide (13 ≤ trapLevel defaultDevice t) := by
  cases t <;> rfl

/-- Settles O42: the tables evaluated, and the order of the levels. -/
theorem trapAndMaskTables : Obligations.TrapAndMaskTables :=
  ⟨⟨rfl, rfl, rfl, rfl⟩, by decide, ⟨rfl, rfl, rfl, rfl⟩, hardTrap_default,
    fun _ _ _ hordered heq => trapLevel_injective hordered heq, by decide,
    by decide⟩

/-! The answers to a hard trap event (R146, R149). -/

theorem cpuIPL_deviceReset (c : ResetCause) (s : State) : cpuIPL (deviceReset c s) = 0 := by
  have hipl3 : ipl3 (deviceReset c s) = false := by
    rw [ipl3, deviceReset_corcon]
    decide
  rw [cpuIPL_of_not_ipl3 hipl3, ipl, deviceReset_sr]
  decide

/-- Settles O48: the three answers of `raiseHard`. -/
theorem hardTrapEvent : Obligations.HardTrapEvent := by
  refine fun s t _ => ⟨fun h => ?_, raiseHard_of_meetsOwnHandler, fun h => ?_⟩
  · exact ⟨_, raiseHard_of_conflicts h, rfl, sfrRead_rcon_trapr rfl, rfl, rfl, cpuIPL_deviceReset _ s, rfl⟩
  · rw [raiseHard_of_admitsTrap h, setBit_true]

theorem envStep_oscillatorFailure {s : State} (h : s.power = .run) :
    envStep .oscillatorFailure s = raiseHard .oscFail { s with cfSet := true } :=
  if_pos h

/-- Settles O52: the hard trap event of `oscFail`, whose answers do not read CF. -/
theorem oscillatorFailure : Obligations.OscillatorFailure := by
  refine fun s => ⟨fun hrun h => ?_, fun hrun h => ?_, fun hrun h => ?_, fun hasleep => if_neg hasleep⟩
  · rw [envStep_oscillatorFailure hrun]
    exact ⟨_, raiseHard_of_admitsTrap (s := { s with cfSet := true }) h, rfl, sfrRead_osccon_cf rfl⟩
  · rw [envStep_oscillatorFailure hrun]
    exact raiseHard_of_meetsOwnHandler (s := { s with cfSet := true }) h
  · rw [envStep_oscillatorFailure hrun]
    exact ⟨_, raiseHard_of_conflicts (s := { s with cfSet := true }) h, rfl, rfl⟩

/-! The error bits of an accumulator operation (R153, R154). -/

/-- The bits of an overflow, `plain`, and of a catastrophic one, `cata`. -/
def overflowBits (acc : Acc) (plain cata : Bool) : Word :=
  (if plain then overflowErrorBits acc else 0#16) ||| (if cata then catastrophicErrorBits acc else 0#16)

theorem accumulatorErrors_eq (s : State) (acc : Acc) (c31 c39 : Bool) : accumulatorErrors s acc c31 c39 =
    overflowBits acc (c31 && s.intcon1.getLsbD (if acc = .a then 10 else 9) && !Config.sat31 acc s.corcon)
      (c39 && s.intcon1.getLsbD 8 && !(Config.sat31 acc s.corcon || Config.sat39 acc s.corcon)) := by
  cases acc <;> rfl

/-- R153's table. -/
theorem overflowBits_table (acc : Acc) (plain cata : Bool) :
    (overflowBits acc plain cata).getLsbD 14 = (plain && acc == .a) ∧
    (overflowBits acc plain cata).getLsbD 13 = (plain && acc == .b) ∧
    (overflowBits acc plain cata).getLsbD 12 = (cata && acc == .a) ∧
    (overflowBits acc plain cata).getLsbD 11 = (cata && acc == .b) ∧
    (overflowBits acc plain cata).getLsbD 4 = (plain || cata) ∧ overflowBits acc plain cata &&& 0x87EF#16 = 0#16 := by
  cases acc <;> cases plain <;> cases cata <;> decide

/-- Settles O17: R153's table; 31-bit saturation excludes both overflows. -/
theorem accumulatorErrorBits : Obligations.AccumulatorErrorBits := by
  intro s acc c31 c39 e plain cata
  have he : e = overflowBits acc plain cata := accumulatorErrors_eq s acc c31 c39
  obtain ⟨h14, h13, h12, h11, h4, hrest⟩ := overflowBits_table acc plain cata
  rw [he]
  refine ⟨h14, h13, h12, h11, h4, hrest, fun hsat => ?_⟩
  have hplain : plain = false := by simp only [plain, hsat, Bool.not_true, Bool.and_false]
  have hcata : cata = false := by simp only [cata, hsat, Bool.true_or, Bool.not_true, Bool.and_false]
  rw [hplain, hcata]
  simp [overflowBits]

/-! The flags of the sources (R132, R168). -/

theorem raiseIrq_absent {s : State} {n : Nat} (h : implemented s.dev n = false) : raiseIrq s n = s := by
  simp [raiseIrq, h]

theorem raiseIrq_present {s : State} {n : Nat} (h : implemented s.dev n = true) (hn : n / 16 < 8) :
    raiseIrq s n = { s with ifs := s.ifs.set (n / 16) (setBit s.ifs[n / 16] (n % 16) true) } := by
  rw [raiseIrq, dif_pos hn, if_pos h]

/-- `raiseIrq` writes the flags alone. -/
theorem raiseIrq_frame (s : State) (n : Nat) : raiseIrq s n = { s with ifs := (raiseIrq s n).ifs } := by
  cases himpl : implemented s.dev n with
  | false => rw [raiseIrq_absent himpl]
  | true => rw [raiseIrq_present himpl (by have := implemented_lt himpl; omega)]

theorem irqFlag_of_absent {s : State} {m : Nat} (h : implemented s.dev m = false) : irqFlag s m = false := by
  rw [irqFlag, h, Bool.false_and]

/-- Of all the flags `raiseIrq` sets the one of its source. -/
theorem irqFlag_raiseIrq (s : State) (n m : Nat) :
    irqFlag (raiseIrq s n) m = (irqFlag s m || (decide (m = n) && implemented s.dev n)) := by
  have hdev := raiseIrq_dev s n
  cases himpl : implemented s.dev n with
  | false => rw [raiseIrq_absent himpl, Bool.and_false, Bool.or_false]
  | true =>
    have hn : n / 16 < 8 := by have := implemented_lt himpl; omega
    cases hm : implemented s.dev m with
    | false =>
      have hne : m ≠ n := by
        rintro rfl
        exact Bool.false_ne_true (hm.symm.trans himpl)
      rw [irqFlag_of_absent hm, irqFlag_of_absent (by rw [hdev, hm]), decide_eq_false hne]
      rfl
    | true =>
      have hm8 : m / 16 < 8 := by have := implemented_lt hm; omega
      rw [irqFlag_of_implemented hm hm8, irqFlag_of_implemented (by rw [hdev, hm]) hm8, Bool.and_true]
      simp only [raiseIrq_present himpl hn]
      by_cases hword : n / 16 = m / 16
      · have hbit : (m % 16 = n % 16) = (m = n) := by simp only [eq_iff_iff]; omega
        simp only [hword, Vector.getElem_set_self, setBit_getLsbD _ (Nat.mod_lt n (by decide : 0 < 16)), hbit]
        by_cases hmn : m = n <;> simp [hmn]
      · have hne : m ≠ n := by
          rintro rfl
          exact hword rfl
        rw [Vector.getElem_set_ne hn hm8 hword, decide_eq_false hne, Bool.or_false]

theorem pinIrq_eq (x : Fin 3) : pinIrq x = [0, 20, 29][x] := by
  revert x
  decide

theorem peripheralEvent_eq (n : Nat) (s : State) :
    peripheralEvent n s = if n ∈ [0, 20, 29] then s else raiseIrq s n := by
  simp [peripheralEvent, or_assoc]

/-- The edge of pin `x` that INTCON2.INTxEP selects (R168). -/
def selectedEdge (s : State) (x : Fin 3) (level : Bool) : Bool :=
  if s.intcon2.getLsbD x.val then s.pins[x] && !level else !s.pins[x] && level

theorem pinEvent_eq (x : Fin 3) (level : Bool) (s : State) : pinEvent x level s =
    if selectedEdge s x level then raiseIrq { s with pins := s.pins.set x level } (pinIrq x)
    else { s with pins := s.pins.set x level } := by
  have hedge : ((!s.intcon2.getLsbD x.val && !s.pins[x] && level) || (s.intcon2.getLsbD x.val && s.pins[x] && !level)) =
      selectedEdge s x level := by
    rw [selectedEdge]
    cases s.intcon2.getLsbD x.val <;> simp
  rw [← hedge]
  rfl

/-- Settles O51: each event is `raiseIrq`, or leaves the flags. -/
theorem environmentSetsFlags : Obligations.EnvironmentSetsFlags := by
  intro s
  refine ⟨fun n => ⟨_, rfl, ?_, fun m => ?_⟩, fun x level => ⟨_, rfl, ?_, fun m => ?_⟩⟩
  · rw [peripheralEvent_eq]
    split
    · rfl
    · exact raiseIrq_frame s n
  · rw [peripheralEvent_eq]
    split
    · rename_i hpin
      rw [decide_eq_false (not_not_intro hpin), Bool.and_false, Bool.or_false]
    · rename_i hperipheral
      rw [irqFlag_raiseIrq, decide_eq_true hperipheral, Bool.and_true]
  · rw [pinEvent_eq]
    split
    · exact raiseIrq_frame { s with pins := s.pins.set x level } (pinIrq x)
    · rfl
  · have hpins : irqFlag { s with pins := s.pins.set x level } m = irqFlag s m := rfl
    have hsource : (decide (m = pinIrq x) && implemented s.dev m) =
        (decide (m = pinIrq x) && implemented s.dev (pinIrq x)) := by
      by_cases hm : m = pinIrq x
      · rw [hm]
      · rw [decide_eq_false hm, Bool.false_and, Bool.false_and]
    rw [pinEvent_eq, ← pinIrq_eq, hsource]
    change _ = (irqFlag s m || (_ && selectedEdge s x level))
    cases selectedEdge s x level with
    | true => rw [if_pos rfl, irqFlag_raiseIrq, hpins, Bool.and_true]
    | false => rw [if_neg Bool.false_ne_true, hpins, Bool.and_false, Bool.or_false]

end Sys2Proof.Machine
end

section
/-! A step of the running CPU (60_exceptions.md R130, R139, R150; 40_system_instructions.md R107): which turn is taken,
what is fetched, and the ticks that follow. -/

namespace Sys2Proof.Machine

/-- The agenda gives the CPU the turn, and the turn is taken off it. -/
theorem step_cpu {s : State} {rest : List Turn} (hagenda : s.agenda = [] ∧ rest = [] ∨ s.agenda = .cpu :: rest)
    (hrun : s.power = .run) : step s = nextDraw (runningTurn { s with agenda := rest }) := by
  have hturn : cpuTurn { s with agenda := rest } = runningTurn { s with agenda := rest } := by
    simp only [cpuTurn, hrun]
  rw [← hturn, step, systemStep]
  rcases hagenda with ⟨hempty, rfl⟩ | hcpu
  · have hsame : ({ s with agenda := [] } : State) = s := by rw [← hempty]
    rw [hsame]
    simp only [hempty]
  · rw [hcpu]

/-- The state with another skid. -/
def withSkid (k : Nat) (s : State) : State := { s with skid := k }

/-- Where the boundary check enters no exception, an operation runs, with the skid that the check leaves. -/
theorem runningTurn_none {s : State} (h : (boundaryCheck s).1 = none) :
    runningTurn s = runAt (withSkid (boundaryCheck s).2.skid s) := by
  obtain ⟨k, -, hk⟩ := boundaryCheck_skid s
  have hcheck : boundaryCheck s = (none, withSkid k s) := Prod.ext h hk
  rw [runningTurn, hcheck]
  rfl

/-- An exception that is taken sets the skid to 0. -/
theorem deferOrTake_some {x y : Exception} {limit : Nat} {s : State} (h : (deferOrTake x limit s).1 = some y) :
    deferOrTake x limit s = (some y, withSkid 0 s) := by
  rw [deferOrTake] at h ⊢
  split at h
  · cases h
  · rename_i hc
    rw [if_neg hc]
    exact Prod.ext h rfl

theorem boundaryCheck_some {s : State} {x : Exception} (h : (boundaryCheck s).1 = some x) :
    boundaryCheck s = (some x, withSkid 0 s) := by
  cases ht : topTrap s with
  | some t =>
    rw [boundaryCheck_trap ht] at h ⊢
    by_cases hhard : hardTrap t = true
    · rw [if_pos hhard] at h ⊢
      exact Prod.ext h rfl
    · rw [if_neg hhard] at h ⊢
      exact deferOrTake_some h
  | none =>
    cases hn : presentableIrq s with
    | some n =>
      rw [boundaryCheck_irq ht hn] at h ⊢
      exact deferOrTake_some h
    | none =>
      rw [boundaryCheck_none ht hn] at h
      cases h

/-- Where the boundary check enters an exception, the turn is its entry. -/
theorem runningTurn_some {s : State} {x : Exception} (h : (boundaryCheck s).1 = some x) :
    runningTurn s = afterTicks (entryCycles s.draws) (enterException x (withSkid 0 s)) := by
  rw [runningTurn, boundaryCheck_some h]

/-! What is fetched (30_encoding.md R91 to R93). -/

theorem fetch_word {s : State} {w : ProgWord} {i : Instr} (h : progAt s s.pc = some (.word w))
    (hdecode : decode w (progWordAt s (nextPc s)) = .ok i) : fetch s = .instr i := by
  rw [nextPc] at hdecode
  simp only [fetch, fetchAt, h, hdecode]

theorem fetch_instr {s : State} {i : Instr} (h : progAt s s.pc = some (.instr i)) (hwf : i.wellFormed = true) :
    fetch s = .instr i := by
  simp only [fetch, fetchAt, h, hwf, if_true]

theorem fetch_abs {s : State} {o : AbsOp} (h : progAt s s.pc = some (.abs o)) (hwf : o.wellFormed = true) :
    fetch s = .abs o := by
  simp only [fetch, fetchAt, h, hwf, if_true]

theorem runAt_instr {s : State} {i : Instr} (himpl : progImplemented s.dev s.pc = true) (h : fetch s = .instr i) :
    runAt s = afterTicks (cycles s.draws i) (exec i s) := by
  simp only [runAt, himpl, h, if_true]

theorem runAt_abs {s : State} {o : AbsOp} (himpl : progImplemented s.dev s.pc = true) (h : fetch s = .abs o) :
    runAt s = afterTicks (1 + Config.extraCycles s.draws) (execAbs o s) := by
  simp only [runAt, himpl, h, if_true]

/-- At an unimplemented address no operation is executed (R150 cause 5). -/
theorem runAt_unimplemented {s : State} (h : progImplemented s.dev s.pc = false) : runAt s =
    afterTicks (1 + Config.extraCycles s.draws) (raiseHard .addressError (markFetch true s)) := by
  rw [runAt, if_neg (ne_true_of_eq_false h)]

/-! The turn of an operation. The check changes the skid alone, so the fetch may be read before it. -/

section
variable {s : State}

theorem runningTurn_instr {i : Instr} (hnone : (boundaryCheck s).1 = none)
    (himpl : progImplemented s.dev s.pc = true) (h : fetch s = .instr i) : runningTurn s =
      afterTicks (cycles s.draws i) (exec i (withSkid (boundaryCheck s).2.skid s)) :=
  (runningTurn_none hnone).trans (runAt_instr (s := withSkid _ s) himpl h)

theorem runningTurn_abs {o : AbsOp} (hnone : (boundaryCheck s).1 = none)
    (himpl : progImplemented s.dev s.pc = true) (h : fetch s = .abs o) : runningTurn s =
      afterTicks (1 + Config.extraCycles s.draws) (execAbs o (withSkid (boundaryCheck s).2.skid s)) :=
  (runningTurn_none hnone).trans (runAt_abs (s := withSkid _ s) himpl h)

theorem runningTurn_unimplemented (hnone : (boundaryCheck s).1 = none) (h : progImplemented s.dev s.pc = false) :
    runningTurn s = afterTicks (1 + Config.extraCycles s.draws)
      (raiseHard .addressError (markFetch true (withSkid (boundaryCheck s).2.skid s))) :=
  (runningTurn_none hnone).trans (runAt_unimplemented (s := withSkid _ s) h)

end

/-! Ticks (R107, R210, R211). -/

theorem entryCycles_cases (t : Nat) : entryCycles t = 4 ∨ entryCycles t = 5 := by
  rw [entryCycles]
  split
  · exact .inr rfl
  · exact .inl rfl

/-- The ticks of an entry are counted: its state is no load of DISICNT (R126). -/
theorem disiLoaded_enterException {x : Exception} {s t : State} (h : enterException x s = .next t) :
    t.disiLoaded = false := by
  obtain ⟨s1, e1, s2, e2, a, -, -, -, hfinish⟩ := enterException_cases h
  rcases finish_cases hfinish with ⟨-, rfl⟩ | ⟨-, hraise⟩
  · rfl
  · rcases raiseHard_cases hraise with ⟨-, rfl⟩ | ⟨-, -, rfl⟩ <;> rfl

/-- Settles O5: the turn that is taken, and its end. -/
theorem stepRunsTheFetchedInstruction : Obligations.StepRunsTheFetchedInstruction := by
  intro s rest hagenda hrun
  have hstep := step_cpu hagenda hrun
  have hskid (k : Nat) : ({ s with agenda := rest, skid := k } : State) = withSkid k { s with agenda := rest } := rfl
  have hmark (k : Nat) : ({ s with agenda := rest, skid := k, badFetch := true } : State) =
      markFetch true (withSkid k { s with agenda := rest }) := rfl
  refine ⟨fun i hnone himpl hfetch => ⟨one_le_cycles s.draws i, ?_⟩, fun o hnone himpl hat hwf =>
    ⟨1 + Config.extraCycles s.draws, Nat.le_add_right 1 _, ?_⟩, fun hnone hunimpl =>
    ⟨1 + Config.extraCycles s.draws, Nat.le_add_right 1 _, ?_⟩, fun x hsome =>
    ⟨entryCycles s.draws, entryCycles_cases s.draws, ?_, fun t => disiLoaded_enterException⟩⟩
  · have hfetched : fetch { s with agenda := rest } = .instr i := by
      rcases hfetch with ⟨w, hat, hdecode⟩ | ⟨hat, hwf⟩
      · exact fetch_word hat hdecode
      · exact fetch_instr hat hwf
    rw [hskid (boundaryCheck _).2.skid, hstep, runningTurn_instr hnone himpl hfetched]
    cases exec i _ <;> rfl
  · have hfetched : fetch { s with agenda := rest } = .abs o := fetch_abs hat hwf
    rw [hskid (boundaryCheck _).2.skid, hstep, runningTurn_abs hnone himpl hfetched]
    cases execAbs o _ <;> rfl
  · rw [hmark (boundaryCheck _).2.skid, hstep, runningTurn_unimplemented hnone hunimpl]
    cases raiseHard _ _ <;> rfl
  · rw [hskid 0, hstep, runningTurn_some hsome]
    cases enterException x _ <;> rfl

end Sys2Proof.Machine
end

section
/-! The address errors of operands (60_exceptions.md R150 causes 1 and 3, R151; 41_named_instructions.md R110, R116,
R117): MOV.D, the MAC class and the bit tests end in their effect on registers, with the three answers of R146. -/

namespace Sys2Proof.Machine

/-! The bits of INTCON1 that the events of an operation may set. -/

theorem or_and_of_clear {x y k : Word} (h : y &&& k = 0#16) : (x ||| y) &&& k = x &&& k := by
  rw [BitVec.and_comm, BitVec.and_or_distrib_left, BitVec.and_comm k x, BitVec.and_comm k y, h, BitVec.or_zero]

theorem clear_of_subset {x m k : Word} (hk : m &&& k = k) (h : x &&& m = 0#16) : x &&& k = 0#16 := by
  rw [← hk, ← BitVec.and_assoc, h, BitVec.zero_and]

/-- The math events set no trap flag but MATHERR, and no enable: bits 14:11, 7, 6 and 4 at most (R153, R155, R156). -/
def SetsErrorBitsOnly (e : Events) : Prop := e.math &&& 0x872F#16 = 0#16

theorem SetsErrorBitsOnly.join {e f : Events} (he : SetsErrorBitsOnly e) (hf : SetsErrorBitsOnly f) :
    SetsErrorBitsOnly (joinEvents e f) :=
  (or_and_of_clear hf).trans he

theorem SetsErrorBitsOnly.getLsbD {e : Events} (h : SetsErrorBitsOnly e) {b : Nat}
    (hb : (0x872F#16).getLsbD b = true) : e.math.getLsbD b = false := by
  have hbit := congrArg (fun x => x.getLsbD b) h
  rw [BitVec.getLsbD_and, hb, Bool.and_true, BitVec.getLsbD_zero] at hbit
  exact hbit

theorem setsErrorBitsOnly_of_math {e : Events} (h : e.math = 0#16) : SetsErrorBitsOnly e := by
  rw [SetsErrorBitsOnly, h, BitVec.zero_and]

theorem setsErrorBitsOnly_quiet : SetsErrorBitsOnly quiet := setsErrorBitsOnly_of_math rfl

theorem setsErrorBitsOnly_stackEvent (c : Bool) : SetsErrorBitsOnly (stackEvent c) := setsErrorBitsOnly_of_math rfl

theorem setsErrorBitsOnly_addrEvent (c : Bool) : SetsErrorBitsOnly (addrEvent c) := setsErrorBitsOnly_of_math rfl

theorem setsErrorBitsOnly_jumpEvent (c : Bool) : SetsErrorBitsOnly (jumpEvent c) := setsErrorBitsOnly_of_math rfl

theorem setsErrorBitsOnly_doubleBaseEvents (s : State) (p : WReg) : SetsErrorBitsOnly (doubleBaseEvents s p) :=
  (setsErrorBitsOnly_stackEvent _).join ((setsErrorBitsOnly_stackEvent _).join (setsErrorBitsOnly_stackEvent _))

theorem setsErrorBitsOnly_optionalFetch (s : State) (x : Option WReg) (fromY : Bool) :
    SetsErrorBitsOnly (optionalFetch s x fromY) := by
  cases x with
  | none => exact setsErrorBitsOnly_quiet
  | some p => exact (setsErrorBitsOnly_stackEvent _).join (setsErrorBitsOnly_addrEvent _)

theorem setsErrorBitsOnly_accumulator (s : State) (acc : Acc) (c31 c39 : Bool) :
    SetsErrorBitsOnly (mathEvent (accumulatorErrors s acc c31 c39)) := by
  obtain ⟨-, -, -, -, -, hrest⟩ := overflowBits_table acc
    (c31 && s.intcon1.getLsbD (if acc = .a then 10 else 9) && !Config.sat31 acc s.corcon)
    (c39 && s.intcon1.getLsbD 8 && !(Config.sat31 acc s.corcon || Config.sat39 acc s.corcon))
  rw [← accumulatorErrors_eq] at hrest
  exact clear_of_subset (by decide) hrest

/-- The bits of INTCON1 that no trap event sets, after an address error. -/
theorem addressErrorBits_kept {x math : Word} (hmath : math &&& 0x872F#16 = 0#16) (stack : Bool) :
    (x ||| 0x0008#16 ||| math ||| stkerrIf stack) &&& 0x8721#16 = x &&& 0x8721#16 := by
  have hstack : stkerrIf stack &&& 0x8721#16 = 0#16 := by cases stack <;> rfl
  rw [or_and_of_clear hstack, or_and_of_clear (clear_of_subset (by decide) hmath), or_and_of_clear (by decide)]

/-- An instruction that ends in an address error, with an effect `u` on neither the device, the CPU priority nor INTCON1. -/
theorem raisesAddressError_of_finish {i : Instr} {s u : State} {e : Events} {effect : State → Prop}
    (hordered : trapLevelsOrdered s.dev = true) (hexec : exec i s = finish e u) (haddr : e.addr = true)
    (hmath : SetsErrorBitsOnly e) (hfetch : e.fetch = false) (hdev : u.dev = s.dev) (hlevel : cpuIPL u = cpuIPL s)
    (hintcon1 : u.intcon1 = s.intcon1) (heffect : ∀ c, effect { u with intcon1 := c, badFetch := false }) :
    raisesAddressError i s effect := by
  obtain ⟨hadmits, hconflicts, hmeets⟩ :=
    finish_addressError haddr (hmath.getLsbD (by decide)) hordered hdev hlevel hintcon1
  rw [raisesAddressError, hexec]
  refine ⟨fun h => ⟨_, hadmits h, ?_, addressErrorBits_kept hmath e.stack, ?_⟩, hconflicts, hmeets⟩
  · have hflag : (0x0008#16).getLsbD 3 = true := by decide
    rw [BitVec.getLsbD_or, BitVec.getLsbD_or, BitVec.getLsbD_or, hflag, Bool.or_true, Bool.true_or, Bool.true_or]
  · rw [hfetch]
    exact heffect _

/-! The operands. -/

theorem wordReadFaults_odd {s : State} {a : DataAddr} (h : a.getLsbD 0 = true) : wordReadFaults s a = true := by
  rw [wordReadFaults, h, Bool.true_or]

theorem wordWriteFaults_odd {s : State} {a : DataAddr} (h : a.getLsbD 0 = true) : wordWriteFaults s a = true := by
  rw [wordWriteFaults, h, Bool.true_or]

theorem doubleReadFaults_odd {s : State} {a : DataAddr} (h : a.getLsbD 0 = true) (psv : Bool) :
    doubleReadFaults s a psv = true := by
  cases psv with
  | true => exact h
  | false => rw [doubleReadFaults, wordReadFaults_odd h]; rfl

/-- An address error among events is one of the whole (R160). -/
theorem addr_joinEvents (e f : Events) : (joinEvents e f).addr = (e.addr || f.addr) := rfl

theorem addr_joinEvents_addrEvent (e : Events) : (joinEvents e (addrEvent true)).addr = true := Bool.or_true e.addr

/-- MOV.D that loads from an odd address still writes its registers and flags (log 21). -/
theorem raisesAddressError_loadDouble {s : State} (hordered : trapLevelsOrdered s.dev = true) {p d : WReg} (psv : Bool)
    (hodd : (s.w[p]).getLsbD 0 = true) : raisesAddressError (.movD (.load p d psv)) s (fun t =>
      t = { s with pc := nextPc s, w := t.w, sr := t.sr, intcon1 := t.intcon1, badFetch := false } ∧
      (∀ j, j ≠ d → j ≠ pairNext d → t.w[j] = s.w[j]) ∧ keptFlags s t) := by
  refine raisesAddressError_of_finish hordered (exec_movD_load p d psv s) ?_
    (((setsErrorBitsOnly_doubleBaseEvents s p).join (setsErrorBitsOnly_addrEvent _)).join
      ((setsErrorBitsOnly_stackEvent _).join (setsErrorBitsOnly_stackEvent _))) rfl rfl
    (cpuIPL_of_keptFlags (keptFlags_freeFlags s) rfl) rfl
    fun c => ⟨rfl, fun j hd hnext => ?_, keptFlags_freeFlags s⟩
  · rw [doubleReadFaults_odd hodd psv, addr_joinEvents, addr_joinEvents_addrEvent, Bool.true_or]
  · exact (putW_w_ne (putW s d _) _ hnext).trans (putW_w_ne s _ hd)

/-- MOV.D that stores at an odd address writes its flags alone (R151). -/
theorem raisesAddressError_storeDouble {s : State} (hordered : trapLevelsOrdered s.dev = true) {src p : WReg}
    (hodd : (s.w[p]).getLsbD 0 = true) : raisesAddressError (.movD (.store src p)) s (fun t =>
      t = { s with pc := nextPc s, sr := t.sr, intcon1 := t.intcon1, badFetch := false } ∧ keptFlags s t) := by
  have hexec : exec (.movD (.store src p)) s =
      finish (joinEvents (doubleBaseEvents s p) (addrEvent true)) (advance (freeFlags s)) := by
    rw [exec_movD_store, storeDouble, wordWriteFaults_odd hodd]
    rfl
  exact raisesAddressError_of_finish hordered hexec (addr_joinEvents_addrEvent _)
    ((setsErrorBitsOnly_doubleBaseEvents s p).join (setsErrorBitsOnly_addrEvent true)) rfl rfl
    (cpuIPL_of_keptFlags (keptFlags_freeFlags s) rfl) rfl fun c => ⟨rfl, keptFlags_freeFlags s⟩

/-- A fetch at an odd address or from the other space (R116). -/
theorem optionalFetch_addr {s : State} {p : WReg} {fromY : Bool}
    (h : (s.w[p]).getLsbD 0 = true ∨ inYSpace s.dev s.w[p] = !fromY) : (optionalFetch s (some p) fromY).addr = true := by
  have haddr : (optionalFetch s (some p) fromY).addr =
      (wordReadFaults s s.w[p] || inYSpace s.dev s.w[p] != fromY) := rfl
  rw [haddr]
  rcases h with hodd | hspace
  · rw [wordReadFaults_odd hodd, Bool.true_or]
  · rw [hspace]
    cases fromY <;> exact Bool.or_true _

/-- A fetch is no transfer of control. -/
theorem optionalFetch_fetch (s : State) (x : Option WReg) (fromY : Bool) :
    (optionalFetch s x fromY).fetch = false := by
  cases x <;> rfl

theorem cpuIPL_of_ipl {s t : State} (hipl : ipl t = ipl s) (hcorcon : t.corcon = s.corcon) : cpuIPL t = cpuIPL s := by
  rw [cpuIPL, cpuIPL, hipl, ipl3, ipl3, hcorcon]

theorem ipl_putAcc_freeFlags (s : State) (acc : Acc) (v : BitVec 40) (c : Bool) :
    ipl (putAcc (freeFlags s) acc v c) = ipl s :=
  (ipl_putAcc (freeFlags s) acc v c).trans (ipl_freeFlags s)

/-- The MAC class with a bad fetch still writes its accumulator and flags (log 23). -/
theorem raisesAddressError_macClass {s : State} (hordered : trapLevelsOrdered s.dev = true) {acc : Acc}
    {x y : Option WReg} (hbad : (optionalFetch s x false).addr = true ∨ (optionalFetch s y true).addr = true) :
    raisesAddressError (.macClass acc x y) s (fun t =>
      t = { s with
        pc := nextPc s
        sr := t.sr
        accA := if acc = .a then t.accA else s.accA
        accB := if acc = .b then t.accB else s.accB
        intcon1 := t.intcon1
        badFetch := false } ∧ ipl t = ipl s) := by
  have hipl := ipl_putAcc_freeFlags s acc (Config.resultAcc s.draws) (Config.carry31 s.draws)
  refine raisesAddressError_of_finish hordered (exec_macClass acc x y s) ?_
    (((setsErrorBitsOnly_optionalFetch s x _).join (setsErrorBitsOnly_optionalFetch s y _)).join
      (setsErrorBitsOnly_accumulator s acc _ _)) ?_ ?_
    (cpuIPL_of_ipl hipl ?_) ?_ fun c => ⟨?_, hipl⟩
  · have hfetches : (joinEvents (optionalFetch s x false) (optionalFetch s y true)).addr = true :=
      Bool.or_eq_true_iff.2 hbad
    rw [addr_joinEvents, hfetches, Bool.true_or]
  · simp only [joinEvents, mathEvent, optionalFetch_fetch, Bool.or_self]
  · exact putAcc_dev _ acc _ _
  · exact putAcc_corcon _ acc _ _
  · exact putAcc_intcon1 _ acc _ _
  · cases acc <;> rfl

/-- A bit test at an odd address still writes its flags and may skip (log 23). -/
theorem raisesAddressError_bitTest {s : State} (hordered : trapLevelsOrdered s.dev = true) {i : Instr}
    {src : BitSource} {p : WReg} {b : BitVec 4} (hi : i = .btsc src b ∨ i = .btss src b)
    (hsrc : src = .indirect p ∨ src = .psv p) (hodd : (s.w[p]).getLsbD 0 = true) : raisesAddressError i s (fun t =>
      t = { s with pc := t.pc, sr := t.sr, intcon1 := t.intcon1, badFetch := false } ∧ keptFlags s t) := by
  have hevents : bitSourceEvents s src = joinEvents (baseEvents s p s.w[p]) (addrEvent true) := by
    rcases hsrc with rfl | rfl
    · rw [bitSourceEvents, wordReadFaults_odd hodd]
    · rw [bitSourceEvents, hodd]
  have hexec : exec i s = finish (joinEvents (baseEvents s p s.w[p]) (addrEvent true))
      { freeFlags s with pc := skipTarget s (Config.skips s.draws) } := by
    rw [exec_bitTest hi, bitTestSkip, hevents]
    rfl
  exact raisesAddressError_of_finish hordered hexec (addr_joinEvents_addrEvent _)
    ((setsErrorBitsOnly_stackEvent _).join (setsErrorBitsOnly_addrEvent true)) rfl rfl
    (cpuIPL_of_keptFlags (keptFlags_freeFlags s) rfl) rfl fun c => ⟨rfl, keptFlags_freeFlags s⟩

/-- Settles O57: the four kinds of operands. -/
theorem operandAddressErrors : Obligations.OperandAddressErrors := by
  refine fun s hordered => ⟨fun p d psv hodd => raisesAddressError_loadDouble hordered psv hodd,
    fun src p hodd => raisesAddressError_storeDouble hordered hodd,
    fun acc x y hbad => raisesAddressError_macClass hordered ?_,
    fun i src p b hi hsrc hodd => raisesAddressError_bitTest hordered hi hsrc hodd⟩
  rcases hbad with ⟨p, rfl, h⟩ | ⟨p, rfl, h⟩
  · exact .inl (optionalFetch_addr h)
  · exact .inr (optionalFetch_addr h)

end Sys2Proof.Machine
end

section
/-! What an address error inhibits (60_exceptions.md R151, 92_eei_decisions.md D32). An operation raises its address error
where it has written no data space, or before it does; the ending of the operation then changes INTCON1 alone. Accesses
and results are followed by what they leave of the state: `dataPart`, which no such operation writes; `encodedPart`, with
CORCON and SR; and `controlPart`, with CORCON and IPL<2:0>. -/

namespace Sys2Proof.Machine

/-- Data space, but for the working registers, SR and CORCON: RAM, the registers, and the bits of INTCON1 that no trap event
sets. -/
def dataPart (s : State) :=
  (s.mem, s.ifs, s.iec, s.ipc, s.intcon2, s.splim, s.splimWritten, s.disicnt, s.disiActive, s.inttreg, s.traprSet, s.cfSet,
    s.intcon1 &&& 0x8721#16)

/-- What no encoded instruction that sets ADDRERR has written, but for RETFIE. -/
def encodedPart (s : State) := (dataPart s, s.corcon, s.sr)

/-- What no operation that sets ADDRERR has written, but for RETFIE: the free flags are no part of it. -/
def controlPart (s : State) := (dataPart s, s.corcon, ipl s)

theorem controlPart_of {s t : State} (hdata : dataPart t = dataPart s) (hcorcon : t.corcon = s.corcon)
    (hipl : ipl t = ipl s) : controlPart t = controlPart s :=
  Prod.ext hdata (Prod.ext hcorcon hipl)

/-- IPL<2:0> is in SR. -/
theorem controlPart_of_encodedPart {s t : State} (h : encodedPart t = encodedPart s) : controlPart t = controlPart s :=
  congrArg (fun p => (p.1, p.2.1, BitVec.extractLsb' 5 3 p.2.2)) h

/-! The ending of an operation. -/

/-- A part of the state that pc, the mark of a bad fetch, and the bits of INTCON1 that trap events set are no part of. -/
def IgnoresEnding {α : Type} (f : State → α) : Prop :=
  ∀ s p c b, c &&& 0x8721#16 = s.intcon1 &&& 0x8721#16 → f { s with pc := p, intcon1 := c, badFetch := b } = f s

theorem dataPart_ignoresEnding : IgnoresEnding dataPart := by
  intro s p c b h
  simp only [dataPart, h]

theorem encodedPart_ignoresEnding : IgnoresEnding encodedPart :=
  fun s p c b h => congrArg (fun d => (d, s.corcon, s.sr)) (dataPart_ignoresEnding s p c b h)

theorem controlPart_ignoresEnding : IgnoresEnding controlPart :=
  fun s p c b h => congrArg (fun d => (d, s.corcon, ipl s)) (dataPart_ignoresEnding s p c b h)

/-- A result from `s` that is a next state with ADDRERR newly set has the part `f` of `s`. -/
def ResultInhibits {α : Type} (f : State → α) (s : State) (r : Res) : Prop :=
  ∀ t, r = .next t → s.intcon1.getLsbD 3 = false → t.intcon1.getLsbD 3 = true → f t = f s

theorem resultInhibits_control {s : State} {r : Res} (h : ResultInhibits encodedPart s r) :
    ResultInhibits controlPart s r :=
  fun t ht hclear hset => controlPart_of_encodedPart (h t ht hclear hset)

/-- The soft events of an operation do not set ADDRERR. -/
theorem softBits_clear {x math : Word} (hx : x.getLsbD 3 = false) (hmath : math &&& 0x872F#16 = 0#16) (stack : Bool) :
    (x ||| math ||| stkerrIf stack).getLsbD 3 = false := by
  have hbit : math.getLsbD 3 = false := SetsErrorBitsOnly.getLsbD (e := mathEvent math) hmath (by decide)
  rw [BitVec.getLsbD_or, BitVec.getLsbD_or, hx, hbit, stkerrIf_getLsbD]
  exact Bool.and_false stack

/-- An operation that does not set ADDRERR. -/
theorem resultInhibits_next {α : Type} {f : State → α} {s u : State}
    (h : s.intcon1.getLsbD 3 = false → u.intcon1.getLsbD 3 = false) : ResultInhibits f s (.next u) := by
  intro t ht hclear hset
  cases ht
  exact absurd ((h hclear).symm.trans hset) Bool.false_ne_true

/-- An operation ends with ADDRERR set only by an address error that R146 admits; a device reset clears the flag. -/
theorem resultInhibits_finish {α : Type} {f : State → α} (hf : IgnoresEnding f) {s u : State} {e : Events}
    (hmath : SetsErrorBitsOnly e) (hclear : s.intcon1.getLsbD 3 = false → u.intcon1.getLsbD 3 = false)
    (hu : e.addr = true → f u = f s) : ResultInhibits f s (finish e u) := by
  intro t ht hs hset
  rcases finish_cases ht with ⟨-, rfl⟩ | ⟨haddr, hraise⟩
  · have hsoft : (raiseSoft e u).intcon1.getLsbD 3 = false := softBits_clear (hclear hs) hmath e.stack
    exact absurd (hsoft.symm.trans hset) Bool.false_ne_true
  · rcases raiseHard_cases hraise with ⟨-, rfl⟩ | ⟨-, -, rfl⟩
    · rw [deviceReset_intcon1, BitVec.getLsbD_zero] at hset
      exact absurd hset Bool.false_ne_true
    · refine (hf u u.pc _ e.fetch ?_).trans (hu haddr)
      have hflag : (1#16 <<< 3 : Word) &&& 0x8721#16 = 0#16 := by decide
      have hstack : stkerrIf e.stack &&& 0x8721#16 = 0#16 := by cases e.stack <;> rfl
      exact (or_and_of_clear hflag).trans
        ((or_and_of_clear hstack).trans (or_and_of_clear (clear_of_subset (by decide) hmath)))

/-! The accesses. -/

/-- An access from `s` that leaves `t` with events `e`: it sets no trap flag itself, and where it raises an address error it
has written nothing. -/
structure AccessInhibited (s t : State) (e : Events) : Prop where
  errorBits : SetsErrorBitsOnly e
  staysClear : s.intcon1.getLsbD 3 = false → t.intcon1.getLsbD 3 = false
  inhibits : e.addr = true → encodedPart t = encodedPart s

/-- A register write never sets ADDRERR (R127). -/
theorem sfrWrite_staysClear {s t : State} {r : Sfr} {v sel : Word} {e : Events} (h : sfrWrite s r v sel = .ok (t, e))
    (hs : s.intcon1.getLsbD 3 = false) : t.intcon1.getLsbD 3 = false := by
  cases r with
  | intcon1 =>
    rw [sfrWrite] at h
    split at h
    · rename_i hkept
      cases h
      have hflag : trapFlagMask.getLsbD 3 = true := by decide
      have hbit := congrArg (fun x => x.getLsbD 3) hkept
      rw [BitVec.getLsbD_and, BitVec.getLsbD_and, BitVec.getLsbD_not, hs, hflag, BitVec.getLsbD_zero] at hbit
      simpa using hbit
    · cases h
  | ipc x =>
    rw [sfrWrite] at h
    split at h <;> cases h
    exact hs
  | disicnt =>
    cases h
    rw [writeDisicnt_intcon1]
    exact hs
  | w | splim | sr | corcon | intcon2 | inttreg | rcon | osccon | ifs | iec =>
    cases h
    exact hs

theorem sfrWrite_addr {s t : State} {r : Sfr} {v sel : Word} {e : Events} (h : sfrWrite s r v sel = .ok (t, e)) :
    e.addr = false := by
  rcases sfrWrite_events h with rfl | ⟨-, rfl⟩ <;> rfl

theorem accessInhibited_sfrWrite {s t : State} {r : Sfr} {v sel : Word} {e : Events}
    (h : sfrWrite s r v sel = .ok (t, e)) : AccessInhibited s t e where
  errorBits := by
    rcases sfrWrite_events h with rfl | ⟨-, rfl⟩
    · exact setsErrorBitsOnly_quiet
    · exact setsErrorBitsOnly_stackEvent _
  staysClear := sfrWrite_staysClear h
  inhibits haddr := absurd ((sfrWrite_addr h).symm.trans haddr) Bool.false_ne_true

theorem accessInhibited_faulting (s : State) : AccessInhibited s s (addrEvent true) :=
  ⟨setsErrorBitsOnly_addrEvent true, id, fun _ => rfl⟩

/-- An access that raises no event and leaves INTCON1. -/
theorem accessInhibited_quiet {s t : State} (h : t.intcon1 = s.intcon1) : AccessInhibited s t quiet :=
  ⟨setsErrorBitsOnly_quiet, fun hs => by rw [h]; exact hs, fun haddr => absurd haddr Bool.false_ne_true⟩

section
variable {s t : State} {e : Events}

theorem accessInhibited_writeWord {a : DataAddr} {v : Word} (h : writeWord s a v = .ok (t, e)) :
    AccessInhibited s t e := by
  rcases writeWord_cases h with ⟨-, rfl, rfl⟩ | ⟨-, r, -, hr⟩ | ⟨-, -, rfl, rfl⟩
  · exact accessInhibited_faulting t
  · exact accessInhibited_sfrWrite hr
  · exact accessInhibited_quiet (by rw [ramWrite_intcon1, ramWrite_intcon1])

/-- A word write raises the address error only at an address that faults. -/
theorem writeWord_addr {a : DataAddr} {v : Word} (hgood : wordWriteFaults s a = false)
    (h : writeWord s a v = .ok (t, e)) : e.addr = false := by
  rcases writeWord_cases h with ⟨hbad, -, -⟩ | ⟨-, r, -, hr⟩ | ⟨-, -, rfl, -⟩
  · exact absurd (hgood.symm.trans hbad) Bool.false_ne_true
  · exact sfrWrite_addr hr
  · rfl

theorem accessInhibited_writeByte {a : DataAddr} {v : Byte} (h : writeByte s a v = .ok (t, e)) :
    AccessInhibited s t e := by
  rcases writeByte_cases h with ⟨-, rfl, rfl⟩ | ⟨-, r, -, hr⟩ | ⟨-, -, rfl, rfl⟩
  · exact accessInhibited_faulting t
  · exact accessInhibited_sfrWrite hr
  · exact accessInhibited_quiet (ramWrite_intcon1 s a v)

theorem writeByte_addr {a : DataAddr} {v : Byte} (hgood : byteWriteFaults s a = false)
    (h : writeByte s a v = .ok (t, e)) : e.addr = false := by
  rcases writeByte_cases h with ⟨hbad, -, -⟩ | ⟨-, r, -, hr⟩ | ⟨-, -, rfl, -⟩
  · exact absurd (hgood.symm.trans hbad) Bool.false_ne_true
  · exact sfrWrite_addr hr
  · rfl

theorem accessInhibited_modifyBit {f : DataAddr} {b : BitVec 4} {v : Bool} (h : modifyBit s f b v = .ok (t, e)) :
    AccessInhibited s t e := by
  rcases modifyBit_cases h with ⟨r, -, hr⟩ | ⟨rfl, rfl⟩ | ⟨a, u, hr⟩
  · exact accessInhibited_sfrWrite hr
  · exact accessInhibited_faulting t
  · exact accessInhibited_writeByte hr

/-- A change of one bit raises the address error only where the byte is unimplemented. -/
theorem modifyBit_addr {f : DataAddr} {b : BitVec 4} {v : Bool} (hgood : byteReadFaults s (bitByte f b) = false)
    (h : modifyBit s f b v = .ok (t, e)) : e.addr = false := by
  have hwrite : byteWriteFaults s (bitByte f b) = false := by
    rw [byteReadFaults] at hgood
    rw [byteWriteFaults, hgood, Bool.false_and]
  rw [modifyBit] at h
  split at h
  · exact sfrWrite_addr h
  · rw [modifyByteBit, hgood] at h
    exact writeByte_addr hwrite h

/-- The advance of W15 after a push adds R79's checks. -/
theorem accessInhibited_pushDone {s1 : State} {e1 : Events} (h : AccessInhibited s s1 e1) {ea : DataAddr}
    (hp : pushDone s1 ea e1 = (t, e)) : AccessInhibited s t e := by
  cases hp
  refine ⟨h.errorBits.join (setsErrorBitsOnly_stackEvent _), h.staysClear, fun haddr => h.inhibits ?_⟩
  exact (Bool.or_false e1.addr).symm.trans haddr

/-- A push that is inhibited moves W15 alone. -/
theorem accessInhibited_push16 {v : Word} {inhibit : Bool} (h : push16 s v inhibit = .ok (t, e)) :
    AccessInhibited s t e ∧ (inhibit = true → encodedPart t = encodedPart s) := by
  rw [push16] at h
  split at h
  · refine ⟨accessInhibited_pushDone (accessInhibited_quiet rfl) (Except.ok.inj h), fun _ => ?_⟩
    cases h
    rfl
  · rename_i hperformed
    refine ⟨?_, fun hinhibit => absurd hinhibit hperformed⟩
    split at h
    · cases h
    · rename_i s1 e1 hw
      exact accessInhibited_pushDone (accessInhibited_writeWord hw) (Except.ok.inj h)

theorem wordWriteFaults_congr (hdev : t.dev = s.dev) (a : DataAddr) : wordWriteFaults t a = wordWriteFaults s a := by
  rw [wordWriteFaults, wordWriteFaults, byteWriteFaults, byteWriteFaults, hdev]

/-- Two word writes neither of whose addresses faults. -/
theorem accessInhibited_writeDouble {ea : DataAddr} {u v : Word} (hgood : wordWriteFaults s ea = false)
    (hgood2 : wordWriteFaults s (ea + 2#16) = false) (h : writeDouble s ea u v = .ok (t, e)) :
    AccessInhibited s t e := by
  rw [writeDouble] at h
  split at h
  · cases h
  · rename_i s1 e1 hw1
    split at h
    · cases h
    · rename_i s2 e2 hw2
      cases h
      have hfirst := accessInhibited_writeWord hw1
      have hsecond := accessInhibited_writeWord hw2
      obtain ⟨-, hdev⟩ := (fixedPart_eq_iff s s1).1 (accessKeepsFixed_writeWord s _ _ s1 e1 hw1)
      refine ⟨hfirst.errorBits.join hsecond.errorBits, fun hs => hsecond.staysClear (hfirst.staysClear hs),
        fun haddr => ?_⟩
      rw [addr_joinEvents, writeWord_addr hgood hw1,
        writeWord_addr ((wordWriteFaults_congr hdev _).trans hgood2) hw2] at haddr
      exact absurd haddr Bool.false_ne_true

end

/-- An operation of one word whose effect is an access from `s1`, which differs from `s` in nothing of `f`. -/
theorem resultInhibits_access {α : Type} {f : State → α} (hf : IgnoresEnding f) {s s1 : State}
    {r : Except Refusal (State × Events)} {e : Events} (hmath : SetsErrorBitsOnly e) (hintcon1 : s1.intcon1 = s.intcon1)
    (hpart : ∀ t, encodedPart t = encodedPart s1 → f t = f s)
    (hr : ∀ t d, r = .ok (t, d) → AccessInhibited s1 t d ∧ (e.addr = true → encodedPart t = encodedPart s1)) :
    ResultInhibits f s (finishAccess r advance e) := by
  intro u hu
  obtain ⟨t, d, hok, hfinish⟩ := finishAccess_cases hu
  obtain ⟨haccess, hown⟩ := hr t d hok
  refine resultInhibits_finish hf (u := advance t) (hmath.join haccess.errorBits)
    (fun hs => haccess.staysClear (by rw [hintcon1]; exact hs)) (fun haddr => ?_) u hfinish
  refine (hf t (nextPc t) t.intcon1 t.badFetch rfl).trans (hpart t ?_)
  rw [addr_joinEvents, Bool.or_eq_true] at haddr
  exact haddr.elim hown haccess.inhibits

/-- The same where the operation raises no address error beside its access. -/
theorem resultInhibits_accessAlone {s : State} {r : Except Refusal (State × Events)}
    (hr : ∀ t d, r = .ok (t, d) → AccessInhibited s t d) :
    ResultInhibits encodedPart s (finishAccess r advance quiet) :=
  resultInhibits_access encodedPart_ignoresEnding setsErrorBitsOnly_quiet rfl (fun _ => id)
    fun t d hok => ⟨hr t d hok, fun haddr => absurd haddr Bool.false_ne_true⟩

/-! The instructions that R92 encodes. -/

theorem setsErrorBitsOnly_popEvents (s : State) : SetsErrorBitsOnly (popEvents s) :=
  (setsErrorBitsOnly_addrEvent _).join (setsErrorBitsOnly_stackEvent _)

/-- A pop whose word is written somewhere, unless the pop raises an address error (R151). -/
theorem resultInhibits_popThen {s : State} {r : Except Refusal (State × Events)}
    (hr : ∀ t d, r = .ok (t, d) → AccessInhibited (popState s) t d) :
    ResultInhibits encodedPart s (if (popEvents s).addr then finish (popEvents s) (advance (popState s))
      else finishAccess r advance (popEvents s)) := by
  split
  · exact resultInhibits_finish encodedPart_ignoresEnding (setsErrorBitsOnly_popEvents s) id fun _ => rfl
  · rename_i hgood
    exact resultInhibits_access (s1 := popState s) encodedPart_ignoresEnding (setsErrorBitsOnly_popEvents s) rfl
      (fun _ => id) fun t d hok => ⟨hr t d hok, fun haddr => absurd haddr hgood⟩

theorem resultInhibits_jump (a : ProgAddr) (s : State) : ResultInhibits encodedPart s (jump a s) :=
  resultInhibits_finish encodedPart_ignoresEnding (setsErrorBitsOnly_jumpEvent _) id fun _ => rfl

theorem resultInhibits_encoded {i : Instr} (hencoded : i.encoded = true) (hretfie : i ≠ .retfie) (s : State) :
    ResultInhibits encodedPart s (exec i s) := by
  cases i with
  | retfie => exact absurd rfl hretfie
  | nop | disi | pwrsav => exact resultInhibits_next id
  | reset => exact resultInhibits_next fun _ => BitVec.getLsbD_zero
  | ret =>
    exact resultInhibits_finish encodedPart_ignoresEnding
      ((setsErrorBitsOnly_popEvents s).join (setsErrorBitsOnly_popEvents _)) id fun _ => rfl
  | goto a => exact resultInhibits_jump a s
  | bra n => exact resultInhibits_jump _ s
  | pushF f =>
    exact resultInhibits_access encodedPart_ignoresEnding (setsErrorBitsOnly_addrEvent _) rfl (fun _ => id)
      fun t d hok => accessInhibited_push16 hok
  | popF f => exact resultInhibits_popThen fun _ _ => accessInhibited_writeWord
  | movLit k d =>
    rw [exec_movLit]
    exact resultInhibits_finish encodedPart_ignoresEnding (setsErrorBitsOnly_stackEvent _) id fun _ => rfl
  | movToF r f => exact resultInhibits_accessAlone fun _ _ => accessInhibited_writeWord
  | movFromF f d =>
    rw [exec_movFromF]
    exact resultInhibits_finish encodedPart_ignoresEnding
      ((setsErrorBitsOnly_addrEvent _).join (setsErrorBitsOnly_stackEvent _)) id fun _ => rfl
  | bsetF f b => exact resultInhibits_accessAlone fun _ _ => accessInhibited_modifyBit
  | bclrF f b => exact resultInhibits_accessAlone fun _ _ => accessInhibited_modifyBit
  | sftac | repeatDivide | macClass | movD | btsc | btss | bitIndirect =>
    exact absurd hencoded Bool.false_ne_true

/-! The instructions without an encoding, whose flags are free. -/

/-- An operation of one word whose effect is one on working registers, accumulators and flags. -/
theorem resultInhibits_finish_control {s u : State} {e : Events} (hmath : SetsErrorBitsOnly e)
    (hintcon1 : u.intcon1 = s.intcon1) (hdata : dataPart u = dataPart s) (hcorcon : u.corcon = s.corcon)
    (hipl : ipl u = ipl s) : ResultInhibits controlPart s (finish e u) :=
  resultInhibits_finish controlPart_ignoresEnding hmath (fun hs => by rw [hintcon1]; exact hs)
    fun _ => controlPart_of hdata hcorcon hipl

theorem dataPart_putAcc (s : State) (acc : Acc) (v : BitVec 40) (c : Bool) : dataPart (putAcc s acc v c) = dataPart s := by
  cases acc <;> rfl

theorem resultInhibits_writeAccumulator (acc : Acc) {e : Events} (he : SetsErrorBitsOnly e) (s : State) :
    ResultInhibits controlPart s (writeAccumulator acc e s) :=
  resultInhibits_finish_control (he.join (setsErrorBitsOnly_accumulator s acc _ _)) (putAcc_intcon1 (freeFlags s) acc _ _)
    (dataPart_putAcc (freeFlags s) acc _ _) (putAcc_corcon (freeFlags s) acc _ _) (ipl_putAcc_freeFlags s acc _ _)

theorem setsErrorBitsOnly_shift : SetsErrorBitsOnly (mathEvent shiftErrorBits) :=
  show shiftErrorBits &&& 0x872F#16 = 0#16 by decide

theorem resultInhibits_execSftac (acc : Acc) (c : ShiftCount) (s : State) :
    ResultInhibits controlPart s (execSftac acc c s) := by
  rw [execSftac]
  split
  · exact resultInhibits_finish_control setsErrorBitsOnly_shift rfl rfl rfl (ipl_freeFlags s)
  · exact resultInhibits_writeAccumulator acc setsErrorBitsOnly_quiet s

theorem setsErrorBitsOnly_divide : SetsErrorBitsOnly (mathEvent divideErrorBits) :=
  show divideErrorBits &&& 0x872F#16 = 0#16 by decide

/-- A divide raises no address error. -/
theorem resultInhibits_repeatDivide (m n q r : WReg) (s : State) :
    ResultInhibits controlPart s (exec (.repeatDivide m n q r) s) := by
  rw [exec_repeatDivide]
  refine resultInhibits_next fun hs => softBits_clear hs ?_ _
  split <;> decide

theorem resultInhibits_execMovD (form : DoubleForm) (s : State) : ResultInhibits controlPart s (execMovD form s) := by
  cases form with
  | load p d psv =>
    exact resultInhibits_finish_control
      (((setsErrorBitsOnly_doubleBaseEvents s p).join (setsErrorBitsOnly_addrEvent _)).join
        ((setsErrorBitsOnly_stackEvent _).join (setsErrorBitsOnly_stackEvent _)))
      rfl rfl rfl (ipl_freeFlags _)
  | store src p =>
    rw [execMovD, storeDouble]
    split
    · exact resultInhibits_finish_control
        ((setsErrorBitsOnly_doubleBaseEvents s p).join (setsErrorBitsOnly_addrEvent true)) rfl rfl rfl (ipl_freeFlags s)
    · rename_i hgood
      rw [Bool.not_eq_true, Bool.or_eq_false_iff] at hgood
      obtain ⟨hlow, hhigh⟩ := hgood
      have hflags : controlPart (freeFlags s) = controlPart s := controlPart_of rfl rfl (ipl_freeFlags s)
      exact resultInhibits_access (s1 := freeFlags s) controlPart_ignoresEnding (setsErrorBitsOnly_doubleBaseEvents s p)
        rfl (fun t h => (controlPart_of_encodedPart h).trans hflags) fun t d hok =>
          ⟨accessInhibited_writeDouble hlow hhigh hok, fun haddr => absurd haddr Bool.false_ne_true⟩

theorem setsErrorBitsOnly_bitSourceEvents (s : State) (src : BitSource) : SetsErrorBitsOnly (bitSourceEvents s src) := by
  cases src with
  | file f => exact setsErrorBitsOnly_addrEvent _
  | indirect p => exact (setsErrorBitsOnly_stackEvent _).join (setsErrorBitsOnly_addrEvent _)
  | psv p => exact (setsErrorBitsOnly_stackEvent _).join (setsErrorBitsOnly_addrEvent _)

theorem resultInhibits_bitTestSkip (src : BitSource) (s : State) : ResultInhibits controlPart s (bitTestSkip src s) :=
  resultInhibits_finish_control (setsErrorBitsOnly_bitSourceEvents s src) rfl rfl rfl (ipl_freeFlags s)

theorem resultInhibits_execBitIndirect (op : BitOp) (p : WReg) (b : BitVec 4) (s : State) :
    ResultInhibits controlPart s (execBitIndirect op p b s) := by
  obtain ⟨g, hflags, ⟨hipl, -⟩, -⟩ := bitOpFlags_cases s op
  rw [execBitIndirect, hflags]
  split
  · exact resultInhibits_finish_control ((setsErrorBitsOnly_stackEvent _).join (setsErrorBitsOnly_addrEvent true))
      rfl rfl rfl hipl
  · exact resultInhibits_access (s1 := { s with sr := g }) controlPart_ignoresEnding (setsErrorBitsOnly_stackEvent _)
      rfl (fun t h => (controlPart_of_encodedPart h).trans (controlPart_of rfl rfl hipl)) fun t d hok =>
        ⟨accessInhibited_modifyBit hok, fun haddr => absurd haddr Bool.false_ne_true⟩

theorem resultInhibits_exec {i : Instr} (hretfie : i ≠ .retfie) (s : State) :
    ResultInhibits controlPart s (exec i s) := by
  by_cases hencoded : i.encoded = true
  · exact resultInhibits_control (resultInhibits_encoded hencoded hretfie s)
  · cases i with
    | sftac acc c => exact resultInhibits_execSftac acc c s
    | repeatDivide m n q r => exact resultInhibits_repeatDivide m n q r s
    | macClass acc x y =>
      exact resultInhibits_writeAccumulator acc
        ((setsErrorBitsOnly_optionalFetch s x _).join (setsErrorBitsOnly_optionalFetch s y _)) s
    | movD form => exact resultInhibits_execMovD form s
    | btsc src b => exact resultInhibits_bitTestSkip src s
    | btss src b => exact resultInhibits_bitTestSkip src s
    | bitIndirect op p b => exact resultInhibits_execBitIndirect op p b s
    | pwrsav m => exact absurd (by cases m <;> rfl) hencoded
    | nop | retfie | ret | disi | reset | goto | bra | pushF | popF | movLit | movToF | movFromF | bsetF | bclrF =>
      exact absurd rfl hencoded

/-- RETFIE restores SRL and IPL3, and writes nothing else. -/
theorem resultInhibits_retfie (s : State) : ResultInhibits dataPart s (exec .retfie s) :=
  resultInhibits_finish dataPart_ignoresEnding
    ((setsErrorBitsOnly_popEvents s).join (setsErrorBitsOnly_popEvents _)) id fun _ => rfl

/-! The actions of an instruction of the surrounding instruction set (41_named_instructions.md R110 item 3). -/

/-- An action that leaves `t` with events `e`: the address errors of an instruction are raised by `execOther`, so an action
raises none itself; and where they inhibit the instruction's writes it has written nothing. -/
structure ActionInhibited (inhibit : Bool) (s t : State) (e : Events) : Prop where
  errorBits : SetsErrorBitsOnly e
  staysClear : s.intcon1.getLsbD 3 = false → t.intcon1.getLsbD 3 = false
  noAddressError : e.addr = false
  inhibits : inhibit = true → controlPart t = controlPart s

theorem throughStack_stackEvent (s : State) (a : DataAddr) (base : EaBase) :
    ∃ c, throughStack s a base = stackEvent c := by
  cases base with
  | other => exact ⟨false, rfl⟩
  | stack wrapped => exact ⟨_, rfl⟩

/-- A data-space write of an action. -/
theorem actionInhibited_write {inhibit : Bool} {s t : State} {a : DataAddr} {base : EaBase} {e : Events}
    {r : Except Refusal (State × Events)}
    (hr : inhibit = false → ∀ u d, r = .ok (u, d) → AccessInhibited s u d ∧ d.addr = false)
    (h : withEvents (throughStack s a base) (if inhibit then .ok (s, quiet) else r) = .ok (t, e)) :
    ActionInhibited inhibit s t e := by
  obtain ⟨c, hc⟩ := throughStack_stackEvent s a base
  rw [hc] at h
  cases inhibit with
  | true =>
    cases h
    exact ⟨(setsErrorBitsOnly_stackEvent c).join setsErrorBitsOnly_quiet, id, rfl, fun _ => rfl⟩
  | false =>
    cases r with
    | error x => cases h
    | ok p =>
      obtain ⟨haccess, haddr⟩ := hr rfl p.1 p.2 rfl
      cases h
      exact ⟨(setsErrorBitsOnly_stackEvent c).join haccess.errorBits, haccess.staysClear, haddr,
        fun hinhibit => absurd hinhibit Bool.false_ne_true⟩

/-- A read through W15 is checked, and nothing else. -/
theorem actionInhibited_read (inhibit : Bool) (s : State) (a : DataAddr) (base : EaBase) :
    ActionInhibited inhibit s s (throughStack s a base) := by
  obtain ⟨c, hc⟩ := throughStack_stackEvent s a base
  rw [hc]
  exact ⟨setsErrorBitsOnly_stackEvent c, id, rfl, fun _ => rfl⟩

/-- The flags that a surrounding instruction may write as results are no bits of IPL<2:0>. -/
theorem ipl_surroundingFlags (s : State) (v : Word) : ipl (withFlags s v surroundingFlags) = ipl s := by
  refine ipl_congr fun b h5 h8 => ?_
  have hmask : surroundingFlags.getLsbD b = false := by interval_cases b <;> decide
  have hb : b < 16 := by omega
  rw [withFlags_sr, BitVec.getLsbD_or, BitVec.getLsbD_and, BitVec.getLsbD_and, BitVec.getLsbD_not, hmask]
  simp [hb]

theorem actionInhibited_runAction {inhibit : Bool} {s t : State} {a : Action} {e : Events}
    (hgood : inhibit = false → actionFaults s a = false) (h : runAction inhibit s a = .ok (t, e)) :
    ActionInhibited inhibit s t e := by
  cases a with
  | setW i v =>
    cases h
    exact ⟨setsErrorBitsOnly_stackEvent _, id, rfl, fun _ => rfl⟩
  | setFlags v =>
    cases h
    exact ⟨setsErrorBitsOnly_quiet, id, rfl, fun _ => controlPart_of rfl rfl (ipl_surroundingFlags s v)⟩
  | readWord a base =>
    cases h
    exact actionInhibited_read inhibit s a base
  | readByte a base =>
    cases h
    exact actionInhibited_read inhibit s a base
  | writeWord a v base =>
    exact actionInhibited_write
      (fun hwrites u d hok => ⟨accessInhibited_writeWord hok, writeWord_addr (hgood hwrites) hok⟩) h
  | writeByte a v base =>
    exact actionInhibited_write
      (fun hwrites u d hok => ⟨accessInhibited_writeByte hok, writeByte_addr (hgood hwrites) hok⟩) h
  | bitIndirect a b v base =>
    refine actionInhibited_write (fun hwrites u d hok => ⟨accessInhibited_modifyBit hok, modifyBit_addr ?_ hok⟩) h
    exact (Bool.or_eq_false_iff.1 (hgood hwrites)).2
  | writeAcc acc v c31 c39 =>
    cases h
    exact ⟨setsErrorBitsOnly_accumulator s acc c31 c39, fun hs => by rw [putAcc_intcon1]; exact hs, rfl,
      fun _ => controlPart_of (dataPart_putAcc s acc v c31) (putAcc_corcon s acc v c31) (ipl_putAcc s acc v c31)⟩
  | divideByZero =>
    cases h
    exact ⟨setsErrorBitsOnly_divide, id, rfl, fun _ => rfl⟩
  | badShift =>
    cases h
    exact ⟨setsErrorBitsOnly_shift, id, rfl, fun _ => rfl⟩
  | jump a =>
    cases h
    exact ⟨setsErrorBitsOnly_quiet, id, rfl, fun _ => rfl⟩

/-- Whether an action raises the address error depends on the device. -/
theorem actionFaults_congr {s t : State} (hdev : t.dev = s.dev) (a : Action) : actionFaults t a = actionFaults s a := by
  cases a <;>
    simp only [actionFaults, wordReadFaults, byteReadFaults, wordWriteFaults, byteWriteFaults, hdev]

theorem actionInhibited_runActions {inhibit : Bool} {as : List Action} {s t : State} {e d : Events}
    (hgood : inhibit = false → ∀ a ∈ as, actionFaults s a = false) (he : SetsErrorBitsOnly e) (haddr : e.addr = false)
    (h : runActions inhibit as s e = .ok (t, d)) : ActionInhibited inhibit s t d := by
  induction as generalizing s e with
  | nil =>
    cases h
    exact ⟨he, id, haddr, fun _ => rfl⟩
  | cons a as ih =>
    rw [runActions] at h
    split at h
    · cases h
    · rename_i s1 e1 ha
      obtain ⟨-, hdev⟩ := (fixedPart_eq_iff s s1).1 (accessKeepsFixed_runAction inhibit s a s1 e1 ha)
      have hfirst := actionInhibited_runAction (fun hwrites => hgood hwrites a List.mem_cons_self) ha
      have haddr1 : (joinEvents e e1).addr = false := by
        rw [addr_joinEvents, haddr, hfirst.noAddressError, Bool.or_self]
      have hgood1 (hwrites : inhibit = false) (b : Action) (hb : b ∈ as) : actionFaults s1 b = false :=
        (actionFaults_congr hdev b).trans (hgood hwrites b (List.mem_cons_of_mem a hb))
      have hrest := ih hgood1 (he.join hfirst.errorBits) haddr1 h
      exact ⟨hrest.errorBits, fun hs => hrest.staysClear (hfirst.staysClear hs), hrest.noAddressError,
        fun hinhibit => (hrest.inhibits hinhibit).trans (hfirst.inhibits hinhibit)⟩

/-- A transfer of control to an unimplemented address is an address error (R150 cause 4). -/
theorem actionFaults_of_jumpFaults {s : State} {a : Action} (h : jumpFaults s a = true) : actionFaults s a = true := by
  cases a with
  | jump b => exact h
  | setW | setFlags | readWord | readByte | writeWord | writeByte | bitIndirect | writeAcc | divideByZero | badShift =>
    exact absurd h Bool.false_ne_true

theorem controlPart_beginLoop (s : State) : controlPart (beginLoop s) = controlPart s := by
  rw [beginLoop]
  split <;> rfl

/-- The address error of any action inhibits the writes of all of them (D32). -/
theorem resultInhibits_execOther (k : Nat) (s : State) : ResultInhibits controlPart s (execOther k s) := by
  intro t ht
  obtain ⟨u, d, hok, hfinish⟩ := finishAccess_cases ht
  generalize hacts : Config.otherActions k s.draws = acts at hok hfinish
  have hbegin : controlPart (beginLoop (advanceBy (absLength (.other k)) s)) = controlPart s :=
    (controlPart_beginLoop _).trans rfl
  have hdev : (beginLoop (advanceBy (absLength (.other k)) s)).dev = s.dev := beginLoop_dev _
  have haction := actionInhibited_runActions
    (fun hnone a ha => (actionFaults_congr hdev a).trans (eq_false_of_ne_true (List.any_eq_false.1 hnone a ha)))
    setsErrorBitsOnly_quiet rfl hok
  refine resultInhibits_finish controlPart_ignoresEnding
    (((setsErrorBitsOnly_addrEvent _).join (setsErrorBitsOnly_jumpEvent _)).join haction.errorBits)
    (fun hs => haction.staysClear (by rw [beginLoop_intcon1]; exact hs)) (fun haddr => ?_) t hfinish
  rw [addr_joinEvents, haction.noAddressError, Bool.or_false] at haddr
  refine (haction.inhibits ?_).trans hbegin
  rcases Bool.or_eq_true_iff.1 haddr with h | h
  · exact h
  · obtain ⟨a, ha, hjump⟩ := List.any_eq_true.1 h
    exact List.any_eq_true.2 ⟨a, ha, actionFaults_of_jumpFaults hjump⟩

theorem resultInhibits_execAbs (o : AbsOp) (s : State) : ResultInhibits controlPart s (execAbs o s) := by
  cases o with
  | sfrRead r => exact resultInhibits_next id
  | sfrWrite | sfrWriteByte | sfrBset | sfrBclr | field =>
    exact resultInhibits_control (resultInhibits_accessAlone fun _ _ => accessInhibited_sfrWrite)
  | pushSr => exact resultInhibits_control (resultInhibits_accessAlone fun _ _ hok => (accessInhibited_push16 hok).1)
  | popSr => exact resultInhibits_control (resultInhibits_popThen fun _ _ => accessInhibited_sfrWrite)
  | other k => exact resultInhibits_execOther k s

/-- Every operation that sets ADDRERR, RETFIE among them, keeps the data part. -/
theorem dataPart_of_addressError {s t : State} (hs : s.intcon1.getLsbD 3 = false) (ht : t.intcon1.getLsbD 3 = true)
    (h : (∃ i, exec i s = .next t) ∨ (∃ o, execAbs o s = .next t)) :
    dataPart t = dataPart s ∧ (exec .retfie s ≠ .next t → controlPart t = controlPart s) := by
  have hcontrol (hkept : controlPart t = controlPart s) :
      dataPart t = dataPart s ∧ (exec .retfie s ≠ .next t → controlPart t = controlPart s) :=
    ⟨congrArg Prod.fst hkept, fun _ => hkept⟩
  rcases h with ⟨i, hi⟩ | ⟨o, ho⟩
  · by_cases hretfie : i = .retfie
    · subst hretfie
      exact ⟨resultInhibits_retfie s t hi hs ht, fun hne => absurd hi hne⟩
    · exact hcontrol (resultInhibits_exec hretfie s t hi hs ht)
  · exact hcontrol (resultInhibits_execAbs o s t ho hs ht)

/-- Settles O56: the data part, the control part but for RETFIE, and SR for the encoded instructions. -/
theorem addressErrorInhibitsWrites : Obligations.AddressErrorInhibitsWrites := by
  intro s t hs ht h
  obtain ⟨hdata, hcontrol⟩ := dataPart_of_addressError hs ht h
  simp only [dataPart, Prod.mk.injEq] at hdata
  obtain ⟨hmem, hifs, hiec, hipc, hintcon2, hsplim, hlatch, hcount, hactive, hinttreg, htrapr, hcf, hintcon1⟩ := hdata
  refine ⟨hmem, hifs, hiec, hipc, hintcon2, hsplim, hlatch, hcount, hactive, hinttreg, htrapr, hcf, hintcon1,
    fun hne => ?_, fun i hencoded hretfie hi => ?_⟩
  · have hkept := congrArg Prod.snd (hcontrol hne)
    exact ⟨congrArg Prod.fst hkept, congrArg Prod.snd hkept⟩
  · have hkept := resultInhibits_encoded hencoded hretfie s t hi hs ht
    exact congrArg (fun p => p.2.2) hkept

end Sys2Proof.Machine
end
